-- ==== Sys2Proof/Word.lean ====
section
/-! DEFINITION. The word types of the Hashish CORE (spec 00_scope.md R6, R8, R9): a word is a 64-bit
unsigned value, a code unit a 16-bit one, a word array a finite list of words. Word addition is
BitVec's, modulo 2^64; lengths, bases and bounds are exact naturals (R8). -/

namespace Sys2Proof

/-- A 64-bit unsigned word, bit 63 the most significant (R8). -/
abbrev Word := BitVec 64

/-- One byte of DMEM as the model stores it (log entry 1). -/
abbrev Byte := BitVec 8

/-- A 16-bit code unit of a text (R9). -/
abbrev CodeUnit := BitVec 16

/-- A word array: "the engine's uniform data representation" (R9, R12). -/
abbrev WordArray := List Word

/-- A text: a list of code units (R9). -/
abbrev Text := List CodeUnit

end Sys2Proof
end

