-- ==== Sys2Proof/Config.lean ====
section
/-! DEFINITION. What one instance of the core fixes (spec 00_scope.md R6, R7): the open parameters, which
a model takes as arguments. They travel in `State.cfg`, so that one step function serves every instance;
no step writes them (R30: "The configuration parameters are not state"). -/

namespace Sys2Proof

/-- DIGIT_RULE, the loop test of the base-N expansion (R7, 43_generator.md R244, R245; D21). -/
inductive DigitRule where
  /-- MASK_NONZERO, the default: loop while the mask is not 0. -/
  | maskNonzero
  /-- MASK_GE_N: loop while the mask is at least N. -/
  | maskGeN
  deriving DecidableEq, Repr

/-- The open parameters of R7. The first four are what the CFG_* registers report (R34-R37).
HOST_ORDERED has no field: the inbox IS the order of delivery (log entry 11). -/
structure Config where
  /-- DMEM_WORDS: the number of 64-bit words of DMEM. -/
  dmemWords : Word
  /-- PAD_CAP_WORDS: the largest padded message, in words, of one SHA-512 evaluation. -/
  padCapWords : Word
  /-- ALPHA_CAP: the largest alphabet size. -/
  alphaCap : Word
  /-- TIMEBASE_HZ: the tick rate of TIME. Only CFG_TICK shows it. -/
  timebaseHz : Word
  /-- CORE_BASE: the platform byte address of the register page. DESIGN CHOICE (log entry 17): the spec
  gives a platform byte address no width (R7, R80). CORE_BASE is a 64-bit word here, so below 2^64, and the
  address of a host access is a natural number with no upper bound and no wrap. -/
  coreBase : Word
  /-- DIGIT_RULE. -/
  digitRule : DigitRule
  deriving DecidableEq, Repr

/-- The constraints R7 puts on the parameters. -/
abbrev Config.wf (c : Config) : Prop :=
  64 ≤ c.dmemWords.toNat ∧ 32 ≤ c.padCapWords.toNat ∧ 62 ≤ c.alphaCap.toNat ∧ 0 < c.timebaseHz.toNat

/-- The instance that the test vectors of 95_test_vectors.md assume; CORE_BASE, which they leave open,
is 0 here. DESIGN CHOICE (log entry 2): unsafe for a claim about `State.reset` alone. -/
def Config.vectorInstance : Config :=
  { dmemWords := 256, padCapWords := 64, alphaCap := 128, timebaseHz := 1000, coreBase := 0
    digitRule := .maskNonzero }

end Sys2Proof
end

