-- ==== Sys2Proof/Syntax.lean ====
section
/-! DEFINITION. The commands: one constructor for each row of spec/opcode_table.json (30_encoding.md
R110, R111). Register numbers do not occur: every operand comes from a register or a DMEM region (R117).
A constructor carries the fields of the command word that are not fixed by its row: the four selectors,
and SET_MODE's target mode. -/

namespace Sys2Proof

/-- The password mode: DESC_MODE.MODE (10_state.md R50) and field M (R113). -/
inductive Mode where
  /-- GENERATED, encoded 0. -/
  | generated
  /-- ENCRYPTED, encoded 1. -/
  | encrypted
  deriving DecidableEq, Repr

/-- The four selector fields of a command word (R112): the implementation of each role. -/
structure Selectors where
  /-- HSEL: the HashEngine. -/
  hsel : BitVec 4
  /-- MSEL: the MacEngine. -/
  msel : BitVec 4
  /-- CSEL: the StreamCipher. -/
  csel : BitVec 4
  /-- GSEL: the PasswordGenerator. -/
  gsel : BitVec 4
  deriving DecidableEq, Repr

/-- The commands of the opcode map (R111). -/
inductive Instr where
  /-- HASH, OP 0x01 (R178). -/
  | hash (sel : Selectors)
  /-- HMAC, OP 0x02 (R206). -/
  | hmac (sel : Selectors)
  /-- OFB_ENC, OP 0x03 (R226). -/
  | ofbEnc (sel : Selectors)
  /-- OFB_DEC, OP 0x04 (R227). -/
  | ofbDec (sel : Selectors)
  /-- GENERATE, OP 0x05 (R254). -/
  | generate (sel : Selectors)
  /-- DERIVE_KEY, OP 0x06 (R285). -/
  | deriveKey (sel : Selectors)
  /-- COMPUTE_PW, OP 0x07 (R286). -/
  | computePw (sel : Selectors)
  /-- ENCRYPT_PW, OP 0x08 (R288). -/
  | encryptPw (sel : Selectors)
  /-- BENCHMARK, OP 0x09 (R290). -/
  | benchmark (sel : Selectors)
  /-- SET_MODE, OP 0x0A (R322), with its target mode, field M (R113). -/
  | setMode (sel : Selectors) (target : Mode)
  /-- BUMP_NONCE, OP 0x0B (R323). -/
  | bumpNonce (sel : Selectors)
  deriving DecidableEq, Repr

/-- The selector fields of a command. -/
def Instr.selectors : Instr → Selectors
  | .hash sel => sel
  | .hmac sel => sel
  | .ofbEnc sel => sel
  | .ofbDec sel => sel
  | .generate sel => sel
  | .deriveKey sel => sel
  | .computePw sel => sel
  | .encryptPw sel => sel
  | .benchmark sel => sel
  | .setMode sel _ => sel
  | .bumpNonce sel => sel

end Sys2Proof
end

