-- ==== Sys2Proof/WellFormed.lean ====
section
/-! DEFINITION. When a command is well formed: each of its four selectors names the one registered
implementation of its role (30_encoding.md R112). A command that is not completes with UNSUPPORTED,
whether or not it uses that role (R112, 60_exceptions.md R344). -/

namespace Sys2Proof

/-- A selector names a registered implementation: "a 4-bit selector field whose only registered value is
0" (00_scope.md R3, 30_encoding.md R112). -/
def registered (sel : BitVec 4) : Bool := sel == 0

/-- All four selectors are registered. -/
def Selectors.registered (s : Selectors) : Bool :=
  Sys2Proof.registered s.hsel && Sys2Proof.registered s.msel && Sys2Proof.registered s.csel &&
    Sys2Proof.registered s.gsel

/-- The well-formed commands. -/
def Instr.wellFormed (i : Instr) : Bool := i.selectors.registered

end Sys2Proof
end

