-- ==== Sys2Proof/Decode.lean ====
section
/-! DEFINITION. The command word, both ways: `decode`, total on every 64-bit word (30_encoding.md R116),
and `encode`, the word of a command (R110, R129). A word with an unregistered selector decodes to its
command, which then completes with UNSUPPORTED (R112, R119, log entry 9); `classify` is R116's three-way
answer. -/

namespace Sys2Proof

/-- Why a command word is ILLEGAL (60_exceptions.md R345). -/
inductive IllegalCause where
  /-- "a nonzero bit in [63:25]" (R114). -/
  | reservedBits
  /-- "an OP outside 0x01-0x0B" (R115). -/
  | unassignedOp
  /-- "M = 1 with OP ≠ 0x0A" (R113, R114). -/
  | modeBit
  deriving DecidableEq, Repr

/-- What decoding a word gives: a command, or a rejection with its cause. -/
inductive Decoded where
  /-- The word is no command: it completes with ILLEGAL. -/
  | illegal (why : IllegalCause)
  /-- The word is this command. -/
  | command (i : Instr)
  deriving DecidableEq, Repr

/-- The three answers of R116's decode function. -/
inductive WordClass where
  /-- ILLEGAL. -/
  | illegal
  /-- UNSUPPORTED. -/
  | unsupported
  /-- `Command(op, mode)`, as the command it is. -/
  | command (i : Instr)
  deriving DecidableEq, Repr

/-- Field OP, bits [7:0] (R110). -/
def fieldOp (w : Word) : BitVec 8 := w.extractLsb' 0 8

/-- Fields HSEL [11:8], MSEL [15:12], CSEL [19:16] and GSEL [23:20] (R110). -/
def fieldSelectors (w : Word) : Selectors :=
  { hsel := w.extractLsb' 8 4, msel := w.extractLsb' 12 4, csel := w.extractLsb' 16 4
    gsel := w.extractLsb' 20 4 }

/-- Field M, bit [24] (R110, R113). -/
def fieldM (w : Word) : BitVec 1 := w.extractLsb' 24 1

/-- Field RES, bits [63:25] (R110, R114). -/
def fieldRes (w : Word) : BitVec 39 := w.extractLsb' 25 39

/-- The mode a 1-bit field names: 0 = GENERATED, 1 = ENCRYPTED (R50, R113). -/
def modeOfBit (b : BitVec 1) : Mode := if b = 0 then .generated else .encrypted

/-- The 1-bit encoding of a mode (R50, R113). -/
def bitOfMode : Mode → BitVec 1
  | .generated => 0
  | .encrypted => 1

/-- The command an OP value names, given the other fields; none for an unassigned OP (R111, R115). -/
def opcodeMap (op : BitVec 8) (sel : Selectors) (m : BitVec 1) : Option Instr :=
  match op.toNat with
  | 0x01 => some (.hash sel)
  | 0x02 => some (.hmac sel)
  | 0x03 => some (.ofbEnc sel)
  | 0x04 => some (.ofbDec sel)
  | 0x05 => some (.generate sel)
  | 0x06 => some (.deriveKey sel)
  | 0x07 => some (.computePw sel)
  | 0x08 => some (.encryptPw sel)
  | 0x09 => some (.benchmark sel)
  | 0x0A => some (.setMode sel (modeOfBit m))
  | 0x0B => some (.bumpNonce sel)
  | _ => none

/-- Decoding a command word, the checks in the order of R116. -/
def decode (w : Word) : Decoded :=
  if fieldRes w ≠ 0 then .illegal .reservedBits
  else
    match opcodeMap (fieldOp w) (fieldSelectors w) (fieldM w) with
    | none => .illegal .unassignedOp
    | some i => if fieldM w = 1 ∧ fieldOp w ≠ 0x0A then .illegal .modeBit else .command i

/-- R116's decode function: ILLEGAL, then UNSUPPORTED, otherwise the command. -/
def classify (w : Word) : WordClass :=
  match decode w with
  | .illegal _ => .illegal
  | .command i => if i.wellFormed then .command i else .unsupported

/-- The OP value of a command (R111). -/
def Instr.op : Instr → BitVec 8
  | .hash _ => 0x01
  | .hmac _ => 0x02
  | .ofbEnc _ => 0x03
  | .ofbDec _ => 0x04
  | .generate _ => 0x05
  | .deriveKey _ => 0x06
  | .computePw _ => 0x07
  | .encryptPw _ => 0x08
  | .benchmark _ => 0x09
  | .setMode _ _ => 0x0A
  | .bumpNonce _ => 0x0B

/-- Field M of a command: SET_MODE's target, 0 for every other (R113). -/
def Instr.modeBit : Instr → BitVec 1
  | .setMode _ target => bitOfMode target
  | .hash _ | .hmac _ | .ofbEnc _ | .ofbDec _ | .generate _ | .deriveKey _ | .computePw _
  | .encryptPw _ | .benchmark _ | .bumpNonce _ => 0

/-- A command word from its fields, most significant first: RES, M, GSEL, CSEL, MSEL, HSEL, OP (R110). -/
def packFields (op : BitVec 8) (sel : Selectors) (m : BitVec 1) : Word :=
  (0 : BitVec 39) ++ m ++ sel.gsel ++ sel.csel ++ sel.msel ++ sel.hsel ++ op

/-- The command word of a command (R110, R129). -/
def encode (i : Instr) : Word := packFields i.op i.selectors i.modeBit

/-- The instruction the decoder reads from the low `nbits` bits of `w`, all higher bits 0. A command is
one 64-bit word written in one access (R118), so the word needs no byte order here. -/
def decodeTableWord (nbits w : Nat) : Option Instr :=
  match decode (BitVec.ofNat 64 (w % 2 ^ nbits)) with
  | .command i => some i
  | .illegal _ => none

end Sys2Proof
end

