-- ==== Sys2Proof/Machine/State.lean ====
section
/-! DEFINITION. The state of one core instance (spec 10_state.md R30): the register page, DMEM, the
sequencer (phase, latched command, snapshot) and the internal scratch; beside them the instance's
constants and two fields of the model's own, the environment's events still to come and the values the
host's reads returned (log entries 2 and 4). All of it is plain data. -/

namespace Sys2Proof.Machine

/-- The status codes of STATUS.CODE (60_exceptions.md R340). Codes 6-15 are never produced. -/
inductive StatusCode where
  /-- 0, OK: the command completed with all its effects. -/
  | ok
  /-- 1, ALLOC (R341). -/
  | alloc
  /-- 2, MALFORMED (R342). -/
  | malformed
  /-- 3, UNMATCHABLE (R343). -/
  | unmatchable
  /-- 4, UNSUPPORTED (R344). -/
  | unsupported
  /-- 5, ILLEGAL (R345). -/
  | illegal
  deriving DecidableEq, Repr

/-- The stored registers and register fields of the register page (10_state.md section 4). ID and the
reserved indices are hard-wired, the CFG_* registers are `State.cfg`, STATUS.BUSY is the phase and
STATUS.IRQ is derived (R33-R40, R61). -/
structure Regs where
  /-- CMD: the last accepted command word (R38). -/
  cmd : Word
  /-- CTRL.IE (R39). -/
  ie : Bool
  /-- STATUS.DONE (R40). -/
  done : Bool
  /-- STATUS.CODE (R40, R340). -/
  code : StatusCode
  /-- STATUS.WIGN (R40, R89). -/
  wign : Bool
  /-- TIME (R41, R359). -/
  time : Word
  /-- SRCA_BASE (R42). -/
  srcaBase : Word
  /-- SRCA_LEN (R42). -/
  srcaLen : Word
  /-- SRCB_BASE (R43). -/
  srcbBase : Word
  /-- SRCB_LEN (R43). -/
  srcbLen : Word
  /-- SRCC_BASE (R44). -/
  srccBase : Word
  /-- SRCC_LEN (R44). -/
  srccLen : Word
  /-- DST_BASE (R45). -/
  dstBase : Word
  /-- DST_CAP (R45). -/
  dstCap : Word
  /-- RES_LEN (R46). -/
  resLen : Word
  /-- RES_UNITS (R47). -/
  resUnits : Word
  /-- RES_COUNT (R48). -/
  resCount : Word
  /-- BENCH_BUDGET (R49). -/
  benchBudget : Word
  /-- DESC_MODE.MODE (R50). -/
  mode : Mode
  /-- DESC_NONCE (R51). -/
  nonce : Word
  /-- DESC_ITER (R52). -/
  iter : Word
  /-- DESC_CASE.CASE (R53). -/
  caseSens : Bool
  /-- DESC_CAPS.CAPS (R54). -/
  caps : BitVec 32
  /-- DESC_DIGITS.DIGITS (R55). -/
  digits : BitVec 32
  /-- DESC_MAXLEN.MAXLEN (R56). -/
  maxlen : BitVec 32
  /-- DESC_XBASE (R57). -/
  xBase : Word
  /-- DESC_XUNITS (R57). -/
  xUnits : Word
  /-- DESC_COUNTER (R58). -/
  counter : Word
  /-- DESC_CTBASE (R59). -/
  ctBase : Word
  /-- DESC_CTLEN (R59). -/
  ctLen : Word
  /-- DESC_FLAGS.NB (R60). -/
  nb : Bool
  deriving DecidableEq, Repr

/-- The register page after reset (R70, R380): every field 0 but DESC_MAXLEN, which is 15 (R56). -/
def Regs.reset : Regs :=
  { cmd := 0, ie := false, done := false, code := .ok, wign := false, time := 0
    srcaBase := 0, srcaLen := 0, srcbBase := 0, srcbLen := 0, srccBase := 0, srccLen := 0
    dstBase := 0, dstCap := 0, resLen := 0, resUnits := 0, resCount := 0, benchBudget := 0
    mode := .generated, nonce := 0, iter := 0, caseSens := false, caps := 0, digits := 0, maxlen := 15
    xBase := 0, xUnits := 0, counter := 0, ctBase := 0, ctLen := 0, nb := false }

/-- The register names of the register map (10_state.md section 4). -/
inductive Reg where
  /-- index 0x00 -/
  | id
  /-- index 0x01 -/
  | cfgDmem
  /-- index 0x02 -/
  | cfgPad
  /-- index 0x03 -/
  | cfgAlpha
  /-- index 0x04 -/
  | cfgTick
  /-- index 0x08 -/
  | cmd
  /-- index 0x09 -/
  | ctrl
  /-- index 0x0A -/
  | status
  /-- index 0x0B -/
  | time
  /-- index 0x10 -/
  | srcaBase
  /-- index 0x11 -/
  | srcaLen
  /-- index 0x12 -/
  | srcbBase
  /-- index 0x13 -/
  | srcbLen
  /-- index 0x14 -/
  | srccBase
  /-- index 0x15 -/
  | srccLen
  /-- index 0x16 -/
  | dstBase
  /-- index 0x17 -/
  | dstCap
  /-- index 0x18 -/
  | resLen
  /-- index 0x19 -/
  | resUnits
  /-- index 0x1A -/
  | resCount
  /-- index 0x1B -/
  | benchBudget
  /-- index 0x20 -/
  | descMode
  /-- index 0x21 -/
  | descNonce
  /-- index 0x22 -/
  | descIter
  /-- index 0x23 -/
  | descCase
  /-- index 0x24 -/
  | descCaps
  /-- index 0x25 -/
  | descDigits
  /-- index 0x26 -/
  | descMaxlen
  /-- index 0x27 -/
  | descXbase
  /-- index 0x28 -/
  | descXunits
  /-- index 0x29 -/
  | descCounter
  /-- index 0x2A -/
  | descCtbase
  /-- index 0x2B -/
  | descCtlen
  /-- index 0x2C -/
  | descFlags
  deriving DecidableEq, Repr

/-- DMEM as a list of (byte address, byte), the address being the byte's offset in the core's aperture:
word j's eight bytes are at `0x10000 + 8*j` and up (20_memory.md R80), the most significant first
(R83, log entry 1). -/
abbrev Memory := List Host.Cell

/-- What an unlisted byte reads as: reset makes "every DMEM word" 0 (R64, R380). -/
def Memory.unlisted : Byte := 0

/-- The canonical form: addresses strictly rising, and no entry equal to what an unlisted address reads
as. -/
abbrev Memory.wf (m : Memory) : Prop :=
  (m.map Prod.fst).Pairwise (· < ·) ∧ ∀ c ∈ m, c.2 ≠ Memory.unlisted

/-- The snapshot `snap` of the register page and DMEM, taken at acceptance (10_state.md R32,
20_memory.md R86). -/
structure Snapshot where
  /-- The register page as accepted. -/
  regs : Regs
  /-- DMEM as accepted. -/
  dmem : Memory
  deriving DecidableEq, Repr

/-- The sequencer's phase (R32). A snapshot exists exactly while BUSY. -/
inductive Phase where
  /-- IDLE. -/
  | idle
  /-- BUSY, with the snapshot of the command's acceptance. -/
  | busy (snap : Snapshot)
  deriving DecidableEq, Repr

/-- The internal scratch (R65, R66). It is zero at every boundary between two machine steps (R67, R177,
R205), but for the three pieces that BENCHMARK keeps while its loop runs (R289, log entries 6 and 7). -/
structure Scratch where
  /-- `H[0..7]`, the running digest (R65). -/
  digest : WordArray
  /-- `W[0..79]`, the message schedule (R65). -/
  schedule : WordArray
  /-- `a, b, c, d, e, f, g, h, T1, T2`, the working registers (R65). -/
  working : WordArray
  /-- The padded message buffer (R66). -/
  padded : WordArray
  /-- The HMAC key block (R66). -/
  keyBlock : WordArray
  /-- The HMAC inner pad (R66). -/
  innerPad : WordArray
  /-- The HMAC outer pad (R66). -/
  outerPad : WordArray
  /-- The HMAC inner digest (R66). -/
  innerDigest : WordArray
  /-- The keystream block (R66). -/
  keystream : WordArray
  /-- The generator's alphabet (R66). -/
  alphabet : Text
  /-- The generator's candidate string (R66). -/
  candidate : Text
  /-- The generator's protection marks (R66). -/
  marks : List Bool
  /-- The generator's working counter (R66). -/
  workCounter : Word
  /-- `initial_key` inside a pipeline command (R66); BENCHMARK re-hashes it in place (R289). -/
  initialKey : WordArray
  /-- `hashed_key` inside a pipeline command (R66). -/
  hashedKey : WordArray
  /-- Whether BENCHMARK has entered its loop (R32: "the core's internal sequencing"). -/
  benchRunning : Bool
  /-- The BENCHMARK start time t0 (R66, R289). -/
  benchStart : Word
  /-- The BENCHMARK iteration count (R66, R289). -/
  benchCount : Word
  deriving DecidableEq, Repr

/-- All scratch zero (R67): the fixed-length buffers hold zero words, the others hold nothing. -/
def Scratch.zero : Scratch :=
  { digest := List.replicate 8 0, schedule := List.replicate 80 0, working := List.replicate 10 0
    padded := [], keyBlock := List.replicate 16 0, innerPad := List.replicate 16 0
    outerPad := List.replicate 16 0, innerDigest := List.replicate 8 0, keystream := List.replicate 8 0
    alphabet := [], candidate := [], marks := [], workCounter := 0
    initialKey := List.replicate 8 0, hashedKey := List.replicate 8 0
    benchRunning := false, benchStart := 0, benchCount := 0 }

/-- What the environment may do next (00_scope.md R4, 60_exceptions.md R359, R364, 70 R380), and `core`,
which is not an event but the core's turn before the next one (R356, log entry 4). -/
inductive Event where
  /-- A host write of `data`, `width` bits wide, at platform byte address `addr`. -/
  | write (width addr : Nat) (data : Word)
  /-- A host read, `width` bits wide, at platform byte address `addr`. -/
  | read (width addr : Nat)
  /-- TIME advances by `n` ticks of the timebase (R41, R359). -/
  | tick (n : Nat)
  /-- The platform's reset input (R380). -/
  | reset
  /-- The core takes one step of its own before the next event. -/
  | core
  deriving DecidableEq, Repr

/-- The state of one core instance. -/
structure State where
  /-- The instance's constants (R7, R34-R37); no step writes them. -/
  cfg : Config
  /-- The register page (R30 (a)). -/
  regs : Regs
  /-- DMEM (R30 (b), R64). -/
  dmem : Memory
  /-- The sequencer's phase, with the snapshot (R30 (c), R32). -/
  phase : Phase
  /-- The internal scratch (R30 (d)). -/
  scratch : Scratch
  /-- The MODEL's own: the environment's events still to come, in order (R90, log entry 4). -/
  inbox : List Event
  /-- The MODEL's own: the values the host's reads returned, oldest first (R393, log entry 4). -/
  observed : List Word
  deriving DecidableEq, Repr

/-- Why the machine stops with a fault. It has NO constructor: no rule of the spec stops this machine.
A failing command completes with a status code (60_exceptions.md R347, R351) and an undefined host access
has no effect (20_memory.md R82), so nothing raises a fault; that is exact, hence safe (log entry 14). -/
inductive Fault where
  deriving DecidableEq, Repr

/-- Why the model gives an instruction no meaning. -/
inductive Refusal where
  /-- Raised by an arm of `exec` whose instruction has no meaning yet; no arm is such, so nothing raises
  it. Safe: a refusal only leaves claims unprovable. -/
  | notModelled (mnemonic : String)
  deriving DecidableEq, Repr

/-- The core of an instance with constants `c`, right after reset (R70, R380): IDLE, every register at
its reset value, DMEM and scratch zero. -/
def State.resetOf (c : Config) : State :=
  { cfg := c, regs := Regs.reset, dmem := [], phase := .idle, scratch := Scratch.zero, inbox := []
    observed := [] }

/-- The machine right after reset, for the instance of the test vectors (log entry 2). -/
def State.reset : State := State.resetOf Config.vectorInstance

end Sys2Proof.Machine
end

