-- ==== Sys2Proof/Machine/Flags.lean ====
section
/-! DEFINITION. The flags: the STATUS bits are the only ones (10_state.md R40, R63), and no command
computes a condition code. Also the interrupt level (60_exceptions.md R353). -/

namespace Sys2Proof.Machine

/-- A 1-bit field read as a word. -/
def wordOfBool (b : Bool) : Word := if b then 1 else 0

/-- The number of a status code (R340). -/
def StatusCode.number : StatusCode → Word
  | .ok => 0
  | .alloc => 1
  | .malformed => 2
  | .unmatchable => 3
  | .unsupported => 4
  | .illegal => 5

/-- STATUS.BUSY: 1 while phase = BUSY (R40). -/
def State.busy (s : State) : Bool :=
  match s.phase with
  | .idle => false
  | .busy _ => true

/-- The interrupt output, a level: `IRQ = STATUS.DONE ∧ CTRL.IE` (R353). -/
def State.irq (s : State) : Bool := s.regs.done && s.regs.ie

/-- STATUS as a host reads it (R40): BUSY bit 0, DONE bit 1, IRQ bit 2, CODE bits [11:8], WIGN bit 16,
every other bit 0. -/
def State.statusWord (s : State) : Word :=
  wordOfBool s.busy ||| (wordOfBool s.regs.done <<< 1) ||| (wordOfBool s.irq <<< 2) |||
    (s.regs.code.number <<< 8) ||| (wordOfBool s.regs.wign <<< 16)

/-- CTRL as a host reads it (R39): IE is the only stored bit, ACK reads 0. -/
def State.ctrlWord (s : State) : Word := wordOfBool s.regs.ie

/-- STATUS.WIGN is set: the core ignored a host write because it was BUSY (R40, R89). -/
def State.setWign (s : State) : State := { s with regs := { s.regs with wign := true } }

end Sys2Proof.Machine
end

