-- ==== Sys2Proof/Machine/Ops.lean ====
section
/-! DEFINITION. The named operations over DMEM and the register page: byte, word and region accesses
(spec 20_memory.md R80-R85), reading and writing a register with its access type (10_state.md section 4,
R61, R62), acceptance and the two completions, which are the core's analogue of trap entry and return
(60_exceptions.md R349-R351), the CTRL write (R354), the timebase (R359) and reset (R380). -/

namespace Sys2Proof.Machine

/-! ### DMEM -/

/-- One byte of DMEM: what is listed, else what an unlisted address reads as. -/
def Memory.readByte : Memory → Nat → Byte
  | [], _ => Memory.unlisted
  | (k, b) :: m, a => if k = a then b else Memory.readByte m a

/-- An entry for address `a` before the list `m`, or none if it would hold the unlisted value. -/
def Memory.consCell (a : Nat) (b : Byte) (m : Memory) : Memory :=
  if b = Memory.unlisted then m else (a, b) :: m

/-- Writing one byte, keeping the canonical form. -/
def Memory.writeByte : Memory → Nat → Byte → Memory
  | [], a, b => Memory.consCell a b []
  | (k, c) :: m, a, b =>
    if a < k then Memory.consCell a b ((k, c) :: m)
    else if a = k then Memory.consCell a b m
    else (k, c) :: Memory.writeByte m a b

/-- Writing consecutive bytes from address `a` up. -/
def Memory.writeBytes : Memory → Nat → List Byte → Memory
  | m, _, [] => m
  | m, a, b :: bs => Memory.writeBytes (m.writeByte a b) (a + 1) bs

/-- The byte offset of DMEM word j, `0x10000 + 8*j` (R80). -/
def dmemAddr (j : Nat) : Nat := 0x10000 + 8 * j

/-- The bytes of a word, most significant first (R83, log entry 1). -/
def wordBytes (v : Word) : List Byte :=
  [v.extractLsb' 56 8, v.extractLsb' 48 8, v.extractLsb' 40 8, v.extractLsb' 32 8,
   v.extractLsb' 24 8, v.extractLsb' 16 8, v.extractLsb' 8 8, v.extractLsb' 0 8]

/-- A word from its bytes, most significant first (R83, log entry 1). -/
def wordOfBytes (b0 b1 b2 b3 b4 b5 b6 b7 : Byte) : Word :=
  b0 ++ b1 ++ b2 ++ b3 ++ b4 ++ b5 ++ b6 ++ b7

/-- `DMEM[j]` (R64). -/
def Memory.readWord (m : Memory) (j : Nat) : Word :=
  wordOfBytes (m.readByte (dmemAddr j)) (m.readByte (dmemAddr j + 1)) (m.readByte (dmemAddr j + 2))
    (m.readByte (dmemAddr j + 3)) (m.readByte (dmemAddr j + 4)) (m.readByte (dmemAddr j + 5))
    (m.readByte (dmemAddr j + 6)) (m.readByte (dmemAddr j + 7))

/-- `DMEM[j] <- v` (R81). -/
def Memory.writeWord (m : Memory) (j : Nat) (v : Word) : Memory := m.writeBytes (dmemAddr j) (wordBytes v)

/-- `MemRead(a, n)`: the word array `DMEM[a..a+n)` (00_scope.md R10, R85). -/
def memRead (m : Memory) : Nat → Nat → WordArray
  | _, 0 => []
  | a, n + 1 => m.readWord a :: memRead m (a + 1) n

/-- `MemWrite(a, n, v)` for the n-word array v: `DMEM[a..a+n) <- v` (R10, R85). -/
def memWrite (m : Memory) (a : Nat) (v : WordArray) : Memory :=
  m.writeBytes (dmemAddr a) (v.flatMap wordBytes)

/-! ### The register map -/

/-- The index of a register in the page (10_state.md section 4). -/
def Reg.index : Reg → Nat
  | .id => 0x00
  | .cfgDmem => 0x01
  | .cfgPad => 0x02
  | .cfgAlpha => 0x03
  | .cfgTick => 0x04
  | .cmd => 0x08
  | .ctrl => 0x09
  | .status => 0x0A
  | .time => 0x0B
  | .srcaBase => 0x10
  | .srcaLen => 0x11
  | .srcbBase => 0x12
  | .srcbLen => 0x13
  | .srccBase => 0x14
  | .srccLen => 0x15
  | .dstBase => 0x16
  | .dstCap => 0x17
  | .resLen => 0x18
  | .resUnits => 0x19
  | .resCount => 0x1A
  | .benchBudget => 0x1B
  | .descMode => 0x20
  | .descNonce => 0x21
  | .descIter => 0x22
  | .descCase => 0x23
  | .descCaps => 0x24
  | .descDigits => 0x25
  | .descMaxlen => 0x26
  | .descXbase => 0x27
  | .descXunits => 0x28
  | .descCounter => 0x29
  | .descCtbase => 0x2A
  | .descCtlen => 0x2B
  | .descFlags => 0x2C

/-- The register at an index of the page; none for a reserved index (R61). -/
def Reg.ofIndex (i : Nat) : Option Reg :=
  match i with
  | 0x00 => some .id
  | 0x01 => some .cfgDmem
  | 0x02 => some .cfgPad
  | 0x03 => some .cfgAlpha
  | 0x04 => some .cfgTick
  | 0x08 => some .cmd
  | 0x09 => some .ctrl
  | 0x0A => some .status
  | 0x0B => some .time
  | 0x10 => some .srcaBase
  | 0x11 => some .srcaLen
  | 0x12 => some .srcbBase
  | 0x13 => some .srcbLen
  | 0x14 => some .srccBase
  | 0x15 => some .srccLen
  | 0x16 => some .dstBase
  | 0x17 => some .dstCap
  | 0x18 => some .resLen
  | 0x19 => some .resUnits
  | 0x1A => some .resCount
  | 0x1B => some .benchBudget
  | 0x20 => some .descMode
  | 0x21 => some .descNonce
  | 0x22 => some .descIter
  | 0x23 => some .descCase
  | 0x24 => some .descCaps
  | 0x25 => some .descDigits
  | 0x26 => some .descMaxlen
  | 0x27 => some .descXbase
  | 0x28 => some .descXunits
  | 0x29 => some .descCounter
  | 0x2A => some .descCtbase
  | 0x2B => some .descCtlen
  | 0x2C => some .descFlags
  | _ => none

/-- The constant ID holds: "HASHISH" in ASCII and the revision 0x01 (R33). -/
def idConstant : Word := 0x4841534849534801

/-- `reg[NAME]` as a host reads it: in both phases its current value, reserved bits 0 (R33-R60, R89). -/
def readReg (s : State) : Reg → Word
  | .id => idConstant
  | .cfgDmem => s.cfg.dmemWords
  | .cfgPad => s.cfg.padCapWords
  | .cfgAlpha => s.cfg.alphaCap
  | .cfgTick => s.cfg.timebaseHz
  | .cmd => s.regs.cmd
  | .ctrl => s.ctrlWord
  | .status => s.statusWord
  | .time => s.regs.time
  | .srcaBase => s.regs.srcaBase
  | .srcaLen => s.regs.srcaLen
  | .srcbBase => s.regs.srcbBase
  | .srcbLen => s.regs.srcbLen
  | .srccBase => s.regs.srccBase
  | .srccLen => s.regs.srccLen
  | .dstBase => s.regs.dstBase
  | .dstCap => s.regs.dstCap
  | .resLen => s.regs.resLen
  | .resUnits => s.regs.resUnits
  | .resCount => s.regs.resCount
  | .benchBudget => s.regs.benchBudget
  | .descMode => (bitOfMode s.regs.mode).zeroExtend 64
  | .descNonce => s.regs.nonce
  | .descIter => s.regs.iter
  | .descCase => wordOfBool s.regs.caseSens
  | .descCaps => s.regs.caps.zeroExtend 64
  | .descDigits => s.regs.digits.zeroExtend 64
  | .descMaxlen => s.regs.maxlen.zeroExtend 64
  | .descXbase => s.regs.xBase
  | .descXunits => s.regs.xUnits
  | .descCounter => s.regs.counter
  | .descCtbase => s.regs.ctBase
  | .descCtlen => s.regs.ctLen
  | .descFlags => wordOfBool s.regs.nb

/-- What a host write of `v` stores while IDLE in a register other than CMD and CTRL: its non-reserved
bits, with no legality check, and nothing in a read-only register (R62). -/
def Regs.store (r : Regs) (v : Word) : Reg → Regs
  | .id | .cfgDmem | .cfgPad | .cfgAlpha | .cfgTick | .status | .time | .resLen | .resUnits
  | .resCount => r
  | .cmd | .ctrl => r
  | .srcaBase => { r with srcaBase := v }
  | .srcaLen => { r with srcaLen := v }
  | .srcbBase => { r with srcbBase := v }
  | .srcbLen => { r with srcbLen := v }
  | .srccBase => { r with srccBase := v }
  | .srccLen => { r with srccLen := v }
  | .dstBase => { r with dstBase := v }
  | .dstCap => { r with dstCap := v }
  | .benchBudget => { r with benchBudget := v }
  | .descMode => { r with mode := modeOfBit (v.extractLsb' 0 1) }
  | .descNonce => { r with nonce := v }
  | .descIter => { r with iter := v }
  | .descCase => { r with caseSens := v.getLsbD 0 }
  | .descCaps => { r with caps := v.extractLsb' 0 32 }
  | .descDigits => { r with digits := v.extractLsb' 0 32 }
  | .descMaxlen => { r with maxlen := v.extractLsb' 0 32 }
  | .descXbase => { r with xBase := v }
  | .descXunits => { r with xUnits := v }
  | .descCounter => { r with counter := v }
  | .descCtbase => { r with ctBase := v }
  | .descCtlen => { r with ctLen := v }
  | .descFlags => { r with nb := v.getLsbD 0 }

/-! ### Acceptance and completion -/

/-- Acceptance of command word `w` (R349): CMD latched, DONE and CODE cleared, the snapshot taken of the
page so changed and of DMEM, phase BUSY. WIGN and IE stay. -/
def accept (w : Word) (s : State) : State :=
  let r : Regs := { s.regs with cmd := w, done := false, code := .ok }
  { s with regs := r, phase := .busy { regs := r, dmem := s.dmem } }

/-- The completion step common to success and failure (R350, R351): IDLE, DONE, the code, the RES_*
registers, and zero scratch (R67). -/
def finish (code : StatusCode) (len units count : Word) (s : State) : State :=
  { s with
    phase := .idle
    scratch := Scratch.zero
    regs := { s.regs with
      done := true, code := code, resLen := len, resUnits := units, resCount := count } }

/-- `complete(OK)` (R350), with what the command puts into RES_LEN, RES_UNITS and RES_COUNT. -/
def complete (len units count : Word) (s : State) : State := finish .ok len units count s

/-- `raise Status(k)` (R351): the command ends with code k and no other effect (R347). -/
def raiseStatus (k : StatusCode) (s : State) : State := finish k 0 0 0 s

/-- The first check that fails gives the code (R348): each entry is a condition and the code to raise
where it does not hold. -/
def firstFailure : List (Bool × StatusCode) → Option StatusCode
  | [] => none
  | (ok, code) :: rest => if ok then firstFailure rest else some code

/-- The destination words of a command: `MemWrite(base, n, v)` on the core's DMEM (R85). -/
def State.storeWords (s : State) (base : Word) (v : WordArray) : State :=
  { s with dmem := memWrite s.dmem base.toNat v }

/-! ### Host accesses -/

/-- A CTRL write, in either phase (R354). -/
def writeCtrl (v : Word) (s : State) : State :=
  let ack := v.getLsbD 1
  { s with regs := { s.regs with
      ie := v.getLsbD 0
      done := s.regs.done && !ack
      wign := s.regs.wign && !ack } }

/-- A defined write to the register at index i of the page (R38, R61, R62, R89, R349, R354). -/
def writeRegIndex (i : Nat) (v : Word) (s : State) : State :=
  match Reg.ofIndex i with
  | some .ctrl => writeCtrl v s
  | r? =>
    if s.busy then s.setWign
    else
      match r? with
      | none => s
      | some .cmd => accept v s
      | some r => { s with regs := s.regs.store v r }

/-- A defined read of the register at index i: reserved indices read 0 (R61, R89). -/
def readRegIndex (i : Nat) (s : State) : Word :=
  match Reg.ofIndex i with
  | none => 0
  | some r => readReg s r

/-- A defined write to DMEM word j: stored while IDLE, ignored with WIGN while BUSY (R81, R89). -/
def writeDmem (j : Nat) (v : Word) (s : State) : State :=
  if s.busy then s.setWign else { s with dmem := s.dmem.writeWord j v }

/-- A defined read of DMEM word j: 0 while BUSY (R81, R89). -/
def readDmem (j : Nat) (s : State) : Word := if s.busy then 0 else s.dmem.readWord j

/-- The timebase ticks n times: TIME advances modulo 2^64, in both phases (R41, R359). -/
def tick (n : Nat) (s : State) : State :=
  { s with regs := { s.regs with time := s.regs.time + BitVec.ofNat 64 n } }

/-- The platform's reset (R380, R381): the reset state of the same instance. The events still to come and
the values already read are the environment's and stay (log entry 4). -/
def platformReset (s : State) : State :=
  { State.resetOf s.cfg with inbox := s.inbox, observed := s.observed }

end Sys2Proof.Machine
end

