-- ==== Sys2Proof/Machine/Operands.lean ====
section
/-! DEFINITION. Every operand form: the inputs a command computes from (spec 20_memory.md R86), regions
and their bounds check (R84), text operands and the raw encoding (30_encoding.md R120, R123), the
constraint record (43_generator.md R240), and where a host access lands (R80-R82). -/

namespace Sys2Proof.Machine

/-- What a command computes from: the snapshot of its acceptance (R86). A core that is not BUSY runs no
command; for it the current page and DMEM stand in, which R86 says are the same (log entry 8). -/
def State.inputs (s : State) : Snapshot :=
  match s.phase with
  | .busy snap => snap
  | .idle => { regs := s.regs, dmem := s.dmem }

/-- `InRange(b, n)`: `b + n ≤ DMEM_WORDS`, exactly (R84). -/
def inRange (c : Config) (b n : Nat) : Bool := decide (b + n ≤ c.dmemWords.toNat)

/-- The least integer at least a/b (00_scope.md R8). -/
def ceilDiv (a b : Nat) : Nat := (a + b - 1) / b

/-- The contents of `Region(base, len)` in the snapshot (R84, R85). -/
def Snapshot.region (sn : Snapshot) (base len : Word) : WordArray := memRead sn.dmem base.toNat len.toNat

/-- The first source region, `Region(SRCA_BASE, SRCA_LEN)` (R42). -/
def Snapshot.srca (sn : Snapshot) : WordArray := sn.region sn.regs.srcaBase sn.regs.srcaLen

/-- The second source region, `Region(SRCB_BASE, SRCB_LEN)` (R43). -/
def Snapshot.srcb (sn : Snapshot) : WordArray := sn.region sn.regs.srcbBase sn.regs.srcbLen

/-- The third source region, `Region(SRCC_BASE, SRCC_LEN)` (R44). -/
def Snapshot.srcc (sn : Snapshot) : WordArray := sn.region sn.regs.srccBase sn.regs.srccLen

/-- The stored ciphertext, `Region(DESC_CTBASE, DESC_CTLEN)` (R59). -/
def Snapshot.ciphertext (sn : Snapshot) : WordArray := sn.region sn.regs.ctBase sn.regs.ctLen

/-- The source regions lie in DMEM (R84). -/
def srcaInRange (c : Config) (r : Regs) : Bool := inRange c r.srcaBase.toNat r.srcaLen.toNat

/-- The second source region lies in DMEM (R84). -/
def srcbInRange (c : Config) (r : Regs) : Bool := inRange c r.srcbBase.toNat r.srcbLen.toNat

/-- The third source region lies in DMEM (R84). -/
def srccInRange (c : Config) (r : Regs) : Bool := inRange c r.srccBase.toNat r.srccLen.toNat

/-- The ciphertext region lies in DMEM (R84, R286). -/
def ciphertextInRange (c : Config) (r : Regs) : Bool := inRange c r.ctBase.toNat r.ctLen.toNat

/-- A destination of k words lies in DMEM (R84, R85). -/
def dstInRange (c : Config) (r : Regs) (k : Nat) : Bool := inRange c r.dstBase.toNat k

/-- A destination of k words fits the capacity the host allows (R45, R341). -/
def dstHolds (r : Regs) (k : Nat) : Bool := decide (k ≤ r.dstCap.toNat)

/-! ### Texts -/

/-- The four code units of a word, most significant first (R120). -/
def unitsOfWord (w : Word) : Text :=
  [w.extractLsb' 48 16, w.extractLsb' 32 16, w.extractLsb' 16 16, w.extractLsb' 0 16]

/-- A word from four code units, most significant first (R120). -/
def wordOfUnits (u0 u1 u2 u3 : CodeUnit) : Word := u0 ++ u1 ++ u2 ++ u3

/-- Raw encoding: four units to a word, the unused unit positions of the last word 0 (R120). -/
def rawEncode : Text → WordArray
  | [] => []
  | [a] => [wordOfUnits a 0 0 0]
  | [a, b] => [wordOfUnits a b 0 0]
  | [a, b, c] => [wordOfUnits a b c 0]
  | a :: b :: c :: d :: rest => wordOfUnits a b c d :: rawEncode rest

/-- The number of trailing zero units of a word, 0 to 4 (R121, R287). -/
def trailingZeroUnits (w : Word) : Nat :=
  ((unitsOfWord w).reverse.takeWhile (· == 0)).length

/-- `RAWLEN(p)`, the raw-decoded length of a word array (R121, R287). -/
def rawLen (p : WordArray) : Nat :=
  match p.getLast? with
  | none => 0
  | some w => 4 * (p.length - 1) + (4 - trailingZeroUnits w)

/-- The text operand (b, u): the first u code units of `MemRead(b, ceil(u/4))` (R123). -/
def textOperand (m : Memory) (b u : Nat) : Text := ((memRead m b (ceilDiv u 4)).flatMap unitsOfWord).take u

/-! ### Constraints -/

/-- `extra_symbols`: the text operand (DESC_XBASE, DESC_XUNITS) (R57). -/
def Snapshot.extraSymbols (sn : Snapshot) : Text := textOperand sn.dmem sn.regs.xBase.toNat sn.regs.xUnits.toNat

/-- The extra-symbol words lie in DMEM (R123). -/
def extraInRange (c : Config) (r : Regs) : Bool := inRange c r.xBase.toNat (ceilDiv r.xUnits.toNat 4)

/-! ### Host accesses -/

/-- Where a host access lands. -/
inductive BusTarget where
  /-- The register page, at this index. -/
  | register (i : Nat)
  /-- The DMEM window, at this word. -/
  | dmem (j : Nat)
  /-- Nowhere: the access is not defined (R82). -/
  | nothing
  deriving DecidableEq, Repr

/-- The target of an access of `width` bits at platform byte address `addr` (R80-R82). An address below
CORE_BASE is outside the aperture and so has no target (log entry 15); addresses are naturals that do not
wrap (log entry 17). -/
def busTarget (c : Config) (width addr : Nat) : BusTarget :=
  let offset := addr - c.coreBase.toNat
  if width = 64 ∧ c.coreBase.toNat ≤ addr ∧ offset % 8 = 0 then
    if offset < 0x200 then .register (offset / 8)
    else if 0x10000 ≤ offset ∧ offset < 0x10000 + 8 * c.dmemWords.toNat then
      .dmem ((offset - 0x10000) / 8)
    else .nothing
  else .nothing

/-- A host write (R81, R82, R89). -/
def hostWrite (width addr : Nat) (v : Word) (s : State) : State :=
  match busTarget s.cfg width addr with
  | .register i => writeRegIndex i v s
  | .dmem j => writeDmem j v s
  | .nothing => s

/-- The value a host read returns (R81, R82, R89). -/
def hostReadValue (width addr : Nat) (s : State) : Word :=
  match busTarget s.cfg width addr with
  | .register i => readRegIndex i s
  | .dmem j => readDmem j s
  | .nothing => 0

/-- A host read: its value joins the observation and nothing else changes (R88, R393). -/
def hostRead (width addr : Nat) (s : State) : State :=
  { s with observed := s.observed ++ [hostReadValue width addr s] }

end Sys2Proof.Machine
end

