-- ==== Sys2Proof/Machine/Sha512.lean ====
section
/-! DEFINITION. The SHA-512 core (spec 40_sha512.md R160-R177), with the document's literal one-word
length padding (R169, 90_conflicts.md C1). The rotation amounts, Ch, Maj, the round function, the
constants and the initial value are those the spec supplies (R161-R168, R173; log entry 13). -/

namespace Sys2Proof.Machine

/-- `ROTR^n(x)`, 0 < n < 64 (00_scope.md R8). -/
def rotr (n : Nat) (x : Word) : Word := (x >>> n) ||| (x <<< (64 - n))

/-- `SHR^n(x)` (R8). -/
def shr (n : Nat) (x : Word) : Word := x >>> n

/-- Σ0 (R161). -/
def bigSigma0 (x : Word) : Word := rotr 28 x ^^^ rotr 34 x ^^^ rotr 39 x

/-- Σ1 (R162). -/
def bigSigma1 (x : Word) : Word := rotr 14 x ^^^ rotr 18 x ^^^ rotr 41 x

/-- σ0 (R163). -/
def smallSigma0 (x : Word) : Word := rotr 1 x ^^^ rotr 8 x ^^^ shr 7 x

/-- σ1 (R164). -/
def smallSigma1 (x : Word) : Word := rotr 19 x ^^^ rotr 61 x ^^^ shr 6 x

/-- Ch (R165). -/
def ch (x y z : Word) : Word := (x &&& y) ^^^ (~~~x &&& z)

/-- Maj (R166). -/
def maj (x y z : Word) : Word := (x &&& y) ^^^ (x &&& z) ^^^ (y &&& z)

/-- Row r of R167's table: `K[4r]` to `K[4r+3]`. -/
def roundConstantRow (r : Nat) : WordArray :=
  match r with
  | 0 => [0x428a2f98d728ae22, 0x7137449123ef65cd, 0xb5c0fbcfec4d3b2f, 0xe9b5dba58189dbbc]
  | 1 => [0x3956c25bf348b538, 0x59f111f1b605d019, 0x923f82a4af194f9b, 0xab1c5ed5da6d8118]
  | 2 => [0xd807aa98a3030242, 0x12835b0145706fbe, 0x243185be4ee4b28c, 0x550c7dc3d5ffb4e2]
  | 3 => [0x72be5d74f27b896f, 0x80deb1fe3b1696b1, 0x9bdc06a725c71235, 0xc19bf174cf692694]
  | 4 => [0xe49b69c19ef14ad2, 0xefbe4786384f25e3, 0x0fc19dc68b8cd5b5, 0x240ca1cc77ac9c65]
  | 5 => [0x2de92c6f592b0275, 0x4a7484aa6ea6e483, 0x5cb0a9dcbd41fbd4, 0x76f988da831153b5]
  | 6 => [0x983e5152ee66dfab, 0xa831c66d2db43210, 0xb00327c898fb213f, 0xbf597fc7beef0ee4]
  | 7 => [0xc6e00bf33da88fc2, 0xd5a79147930aa725, 0x06ca6351e003826f, 0x142929670a0e6e70]
  | 8 => [0x27b70a8546d22ffc, 0x2e1b21385c26c926, 0x4d2c6dfc5ac42aed, 0x53380d139d95b3df]
  | 9 => [0x650a73548baf63de, 0x766a0abb3c77b2a8, 0x81c2c92e47edaee6, 0x92722c851482353b]
  | 10 => [0xa2bfe8a14cf10364, 0xa81a664bbc423001, 0xc24b8b70d0f89791, 0xc76c51a30654be30]
  | 11 => [0xd192e819d6ef5218, 0xd69906245565a910, 0xf40e35855771202a, 0x106aa07032bbd1b8]
  | 12 => [0x19a4c116b8d2d0c8, 0x1e376c085141ab53, 0x2748774cdf8eeb99, 0x34b0bcb5e19b48a8]
  | 13 => [0x391c0cb3c5c95a63, 0x4ed8aa4ae3418acb, 0x5b9cca4f7763e373, 0x682e6ff3d6b2b8a3]
  | 14 => [0x748f82ee5defb2fc, 0x78a5636f43172f60, 0x84c87814a1f0ab72, 0x8cc702081a6439ec]
  | 15 => [0x90befffa23631e28, 0xa4506cebde82bde9, 0xbef9a3f7b2c67915, 0xc67178f2e372532b]
  | 16 => [0xca273eceea26619c, 0xd186b8c721c0c207, 0xeada7dd6cde0eb1e, 0xf57d4f7fee6ed178]
  | 17 => [0x06f067aa72176fba, 0x0a637dc5a2c898a6, 0x113f9804bef90dae, 0x1b710b35131c471b]
  | 18 => [0x28db77f523047d84, 0x32caab7b40c72493, 0x3c9ebe0a15c9bebc, 0x431d67c49c100d4c]
  | 19 => [0x4cc5d4becb3e42b6, 0x597f299cfc657e2a, 0x5fcb6fab3ad6faec, 0x6c44198c4a475817]
  | _ => []

/-- The 80 round constants, the table's rows in order: `K[4r+c]` stands at row r, column c (R167). -/
def roundConstants : WordArray := (List.range 20).flatMap roundConstantRow

/-- The initial hash value `IV[0..7]` (R168). -/
def initialHash : WordArray :=
  [0x6a09e667f3bcc908, 0xbb67ae8584caa73b, 0x3c6ef372fe94f82b, 0xa54ff53a5f1d36f1,
   0x510e527fade682d1, 0x9b05688c2b3e6c1f, 0x1f83d9abfb41bd6b, 0x5be0cd19137e2179]

/-- How many zero words R169's loop appends to a message of n words: until the total, with the word
`1<<63`, is a multiple of 16 less one. -/
def padZeros (n : Nat) : Nat := (30 - n % 16) % 16

/-- `PAD(m)` (R169). -/
def pad (m : WordArray) : WordArray :=
  m ++ [0x8000000000000000] ++ List.replicate (padZeros m.length) 0 ++ [BitVec.ofNat 64 (64 * m.length)]

/-- `padlen(n)`, in words (R170). -/
def padLen (n : Nat) : Nat := 16 * ceilDiv (n + 2) 16

/-- `PadFits(n)` (R171). -/
def padFits (c : Config) (n : Nat) : Bool := decide (padLen n ≤ c.padCapWords.toNat)

/-- `W[t]` from the window `W[t-16..t-1]` (R172). -/
def nextScheduleWord (window : WordArray) : Word :=
  smallSigma1 (window.getD 14 0) + window.getD 9 0 + smallSigma0 (window.getD 1 0) + window.getD 0 0

/-- n further schedule words after a window of 16 (R172). -/
def extendSchedule : Nat → WordArray → WordArray
  | 0, _ => []
  | n + 1, window =>
    nextScheduleWord window :: extendSchedule n (window.tail ++ [nextScheduleWord window])

/-- The message schedule `W[0..79]` of one 16-word block (R172). -/
def schedule (block : WordArray) : WordArray := block ++ extendSchedule 64 block

/-- The working variables a..h of the compression (R173). -/
structure Working where
  a : Word
  b : Word
  c : Word
  d : Word
  e : Word
  f : Word
  g : Word
  h : Word
  deriving DecidableEq, Repr

/-- One round with `K[t]` and `W[t]` (R173). -/
def shaRound (kt wt : Word) (v : Working) : Working :=
  let t1 := v.h + bigSigma1 v.e + ch v.e v.f v.g + kt + wt
  let t2 := bigSigma0 v.a + maj v.a v.b v.c
  { a := t1 + t2, b := v.a, c := v.b, d := v.c, e := v.d + t1, f := v.e, g := v.f, h := v.g }

/-- The rounds over the constants and the schedule, in step (R173). -/
def rounds : WordArray → WordArray → Working → Working
  | kt :: ks, wt :: ws, v => rounds ks ws (shaRound kt wt v)
  | _, _, v => v

/-- The working variables from a digest (R173). -/
def workingOf (hs : WordArray) : Working :=
  { a := hs.getD 0 0, b := hs.getD 1 0, c := hs.getD 2 0, d := hs.getD 3 0
    e := hs.getD 4 0, f := hs.getD 5 0, g := hs.getD 6 0, h := hs.getD 7 0 }

/-- `COMPRESS(H, B)` (R173): 80 rounds and the feed-forward addition, each sum modulo 2^64. -/
def compress (hs block : WordArray) : WordArray :=
  let v := workingOf hs
  let u := rounds roundConstants (schedule block) v
  [v.a + u.a, v.b + u.b, v.c + u.c, v.d + u.d, v.e + u.e, v.f + u.f, v.g + u.g, v.h + u.h]

/-- n blocks of 16 words compressed in order (R174). -/
def compressBlocks : Nat → WordArray → WordArray → WordArray
  | 0, hs, _ => hs
  | n + 1, hs, p => compressBlocks n (compress hs (p.take 16)) (p.drop 16)

/-- `SHA512(m)`: the 8-word digest of a word array of any length (R174, R175). -/
def sha512 (m : WordArray) : WordArray := compressBlocks ((pad m).length / 16) initialHash (pad m)

end Sys2Proof.Machine
end

