-- ==== Sys2Proof/Machine/Ofb.lean ====
section
/-! DEFINITION. The OFB stream cipher (spec 42_stream_cipher.md R220-R225): a keystream chained through
SHA-512 and XORed with the static key, then XORed with the message. -/

namespace Sys2Proof.Machine

/-- `xor(a, b)`: element-wise over the shorter length (00_scope.md R9). -/
def xorWords (a b : WordArray) : WordArray := List.zipWith (· ^^^ ·) a b

/-- `keystream_(i+1) = hash(keystream_i XOR hashed_key)` (R221). -/
def nextKeystream (hk ks : WordArray) : WordArray := sha512 (xorWords ks hk)

/-- The first n blocks of 8 words of the message enciphered, the last one possibly shorter, from
keystream block ks on (R221). -/
def ofbBlocks (hk : WordArray) : Nat → WordArray → WordArray → WordArray
  | 0, _, _ => []
  | n + 1, ks, m => xorWords (m.take 8) ks ++ ofbBlocks hk n (nextKeystream hk ks) (m.drop 8)

/-- `OFB(hk, m)`: `keystream_0 = hash(hashed_key)` and `ceil(n/8)` blocks (R221). -/
def ofb (hk m : WordArray) : WordArray := ofbBlocks hk (ceilDiv m.length 8) (sha512 hk) m

end Sys2Proof.Machine
end

