-- ==== Sys2Proof/Machine/CipherCommands.lean ====
section
/-! DEFINITION. The commands OFB_ENC and OFB_DEC (spec 42_stream_cipher.md R226, R227). -/

namespace Sys2Proof.Machine

/-- The checks of OFB_CMD (R226). -/
def ofbChecks (c : Config) (r : Regs) : List (Bool × StatusCode) :=
  [(srcaInRange c r, .malformed), (decide (r.srcaLen.toNat = 8), .malformed),
   (srcbInRange c r, .malformed), (dstInRange c r r.srcbLen.toNat, .malformed),
   (dstHolds r r.srcbLen.toNat, .alloc)]

/-- OFB_CMD (R226): hashed key in SRCA, message in SRCB. -/
def ofbCommand (sel : Selectors) (s : State) : State :=
  let sn := s.inputs
  match firstFailure ((sel.registered, .unsupported) :: ofbChecks s.cfg sn.regs) with
  | some k => raiseStatus k s
  | none => complete sn.regs.srcbLen 0 0 (s.storeWords sn.regs.dstBase (ofb sn.srca sn.srcb))

/-- OFB_ENC (R226). -/
def execOfbEnc (sel : Selectors) (s : State) : Host.Outcome State Fault Refusal := .next (ofbCommand sel s)

/-- OFB_DEC: "`decrypt` is defined identically to `encrypt`" (R227). -/
def execOfbDec (sel : Selectors) (s : State) : Host.Outcome State Fault Refusal := .next (ofbCommand sel s)

end Sys2Proof.Machine
end

