-- ==== Sys2Proof/Machine/DescriptorCommands.lean ====
section
/-! DEFINITION. The descriptor commands SET_MODE and BUMP_NONCE and their part of the nonce rule (spec
45_descriptor.md R320-R323). -/

namespace Sys2Proof.Machine

/-- The check of SET_MODE: ENCRYPTED needs a ciphertext, so it is entered only by ENCRYPT_PW (R322). -/
def setModeChecks (target : Mode) (r : Regs) : List (Bool × StatusCode) :=
  [(!(target == .encrypted && r.mode == .generated), .malformed)]

/-- The nonce after leaving ENCRYPTED: one more, unless NB says it has already changed (R320, R322). -/
def leaveNonce (r : Regs) : Word := if r.nb then r.nonce else r.nonce + 1

/-- The descriptor after leaving ENCRYPTED, its nonce given (R322). -/
def leaveEncryptedRegs (r : Regs) (nonce : Word) : Regs :=
  { r with nonce := nonce, mode := .generated, ctBase := 0, ctLen := 0, nb := false }

/-- SET_MODE (R322). -/
def execSetMode (sel : Selectors) (target : Mode) (s : State) : Host.Outcome State Fault Refusal :=
  let sn := s.inputs
  match firstFailure ((sel.registered, .unsupported) :: setModeChecks target sn.regs) with
  | some k => .next (raiseStatus k s)
  | none =>
    match target, sn.regs.mode with
    | .generated, .encrypted =>
      .next (complete 0 0 0 { s with regs := leaveEncryptedRegs s.regs (leaveNonce sn.regs) })
    | _, _ => .next (complete 0 0 0 s)

/-- BUMP_NONCE (R323): the nonce one more, and NB set in ENCRYPTED mode. -/
def execBumpNonce (sel : Selectors) (s : State) : Host.Outcome State Fault Refusal :=
  let sn := s.inputs
  match firstFailure [(sel.registered, .unsupported)] with
  | some k => .next (raiseStatus k s)
  | none =>
    .next (complete 0 0 0 { s with regs := { s.regs with
      nonce := sn.regs.nonce + 1
      nb := match sn.regs.mode with
        | .generated => s.regs.nb
        | .encrypted => true } })

end Sys2Proof.Machine
end

