-- ==== Sys2Proof/Machine/Hmac.lean ====
section
/-! DEFINITION. The HMAC-SHA512 engine (spec 41_hmac.md R200-R205), over word arrays. -/

namespace Sys2Proof.Machine

/-- A word array zero-padded to n words (R200). -/
def zeroPadTo (n : Nat) (k : WordArray) : WordArray := k ++ List.replicate (n - k.length) 0

/-- `KEYBLOCK(k)`: the key, or its hash if it is longer than a block, zero-padded to 16 words (R200). -/
def keyBlock (k : WordArray) : WordArray :=
  if 16 < k.length then zeroPadTo 16 (sha512 k) else zeroPadTo 16 k

/-- IPAD_WORD (R201). -/
def ipadWord : Word := 0x3636363636363636

/-- OPAD_WORD (R201). -/
def opadWord : Word := 0x5c5c5c5c5c5c5c5c

/-- `inner_pad` (R201, R202). -/
def innerPad (k : WordArray) : WordArray := (keyBlock k).map (· ^^^ ipadWord)

/-- `outer_pad` (R201, R202). -/
def outerPad (k : WordArray) : WordArray := (keyBlock k).map (· ^^^ opadWord)

/-- `HMAC(k, m)` (R202): 8 words. -/
def hmac (k m : WordArray) : WordArray := sha512 (outerPad k ++ sha512 (innerPad k ++ m))

/-- `HmacFits(kl, ml)` (R203): every SHA-512 evaluation of the MAC fits the padded buffer. -/
def hmacFits (c : Config) (kl ml : Nat) : Bool :=
  (decide (kl ≤ 16) || padFits c kl) && padFits c (16 + ml)

end Sys2Proof.Machine
end

