-- ==== Sys2Proof/Machine/Generator.lean ====
section
/-! DEFINITION. The constrained password generator (spec 43_generator.md R240-R253). -/

namespace Sys2Proof.Machine

/-- The constraint record (R240). -/
structure Constraints where
  /-- `case_sensitivity`. -/
  caseSens : Bool
  /-- `number_of_caps`, 0 = unconstrained. -/
  caps : Nat
  /-- `number_of_digits`, 0 = unconstrained. -/
  digits : Nat
  /-- `maximal_length`, 0 = unlimited. -/
  maxlen : Nat
  /-- `extra_symbols`. -/
  extra : Text
  deriving DecidableEq, Repr

/-- The constraints a generator command reads from the descriptor block (R240). -/
def Snapshot.constraints (sn : Snapshot) : Constraints :=
  { caseSens := sn.regs.caseSens, caps := sn.regs.caps.toNat, digits := sn.regs.digits.toNat
    maxlen := sn.regs.maxlen.toNat, extra := sn.extraSymbols }

/-- `Matchable(c)` on the register fields it reads (R241): the sum is exact. -/
def matchable (r : Regs) : Bool :=
  !(decide (0 < r.caps.toNat) && !r.caseSens) &&
    !(decide (r.maxlen.toNat ≠ 0) && decide (r.maxlen.toNat < r.caps.toNat + r.digits.toNat))

/-- n consecutive code units from u up. -/
def unitRange (u n : Nat) : Text := (List.range n).map fun i => BitVec.ofNat 16 (u + i)

/-- `ALPHA(c)`: a-z, then 0-9, then A-Z if case-sensitive, then the extra symbols (R242). -/
def alphabet (c : Constraints) : Text :=
  unitRange 0x0061 26 ++ unitRange 0x0030 10 ++ (if c.caseSens then unitRange 0x0041 26 else []) ++ c.extra

/-- `N(c)` on the register fields it reads (R242). -/
def alphabetSize (r : Regs) : Nat := 36 + 26 * r.caseSens.toNat + r.xUnits.toNat

/-- `isDigit(u)` (R243). -/
def isDigit (u : CodeUnit) : Bool := decide (0x0030 ≤ u.toNat ∧ u.toNat ≤ 0x0039)

/-- `isCap(u)` (R243). -/
def isCap (u : CodeUnit) : Bool := decide (0x0041 ≤ u.toNat ∧ u.toNat ≤ 0x005A)

/-- The loop test of the expansion under DIGIT_RULE (R245). -/
def expandsOn (rule : DigitRule) (mask n : Nat) : Bool :=
  match rule with
  | .maskNonzero => decide (mask ≠ 0)
  | .maskGeN => decide (n ≤ mask)

/-- The mask the expansion starts from, `2^64 − 1` (R245). -/
def fullMask : Nat := 2 ^ 64 - 1

/-- The loop of `EXPAND` (R245), least significant digit first. The first argument bounds the passes; the
mask falls to 0 within 64 passes for every N ≥ 2, so 64 cuts nothing off (log entry 10). -/
def expandLoop (rule : DigitRule) (a : Text) : Nat → Nat → Nat → Text
  | 0, _, _ => []
  | passes + 1, x, mask =>
    if expandsOn rule mask a.length then
      a.getD (x % a.length) 0 :: expandLoop rule a passes (x / a.length) (mask / a.length)
    else []

/-- `EXPAND(v, A)` (R245). -/
def expand (rule : DigitRule) (a : Text) (v : Word) : Text := expandLoop rule a 64 v.toNat fullMask

/-- The number of passes of the loop of R245, which depends on N and DIGIT_RULE only (R244). -/
def digitsLoop (rule : DigitRule) (n : Nat) : Nat → Nat → Nat
  | 0, _ => 0
  | passes + 1, mask => if expandsOn rule mask n then digitsLoop rule n passes (mask / n) + 1 else 0

/-- `Digits(N)` (R244). -/
def digitsPerWord (rule : DigitRule) (n : Nat) : Nat := digitsLoop rule n 64 fullMask

/-- `L(N) = 8 * Digits(N)` (R244). -/
def candidateLen (rule : DigitRule) (n : Nat) : Nat := 8 * digitsPerWord rule n

/-- `Lout(c)` on the register fields it reads (R251). -/
def outputLen (rule : DigitRule) (r : Regs) : Nat :=
  if r.maxlen.toNat ≠ 0 ∧ r.maxlen.toNat < candidateLen rule (alphabetSize r) then r.maxlen.toNat
  else candidateLen rule (alphabetSize r)

/-- The output length in words, `ceil(Lout/4)` (R254). -/
def outputWords (rule : DigitRule) (r : Regs) : Nat := ceilDiv (outputLen rule r) 4

/-- `CANDIDATE(hk, ctr, A)`: the MAC of the counter, its words expanded in index order (R246). -/
def candidate (rule : DigitRule) (hk : WordArray) (ctr : Word) (a : Text) : Text :=
  (hmac hk [ctr]).flatMap (expand rule a)

/-- The marks of the rest of a candidate and the final counts, after nd digits and nc caps have been
counted (R247). -/
def scanFrom (c : Constraints) : Nat → Nat → Text → List Bool × Nat × Nat
  | nd, nc, [] => ([], nd, nc)
  | nd, nc, u :: us =>
    if isDigit u ∧ nd < c.digits then
      (true :: (scanFrom c (nd + 1) nc us).1, (scanFrom c (nd + 1) nc us).2)
    else if isCap u ∧ nc < c.caps then
      (true :: (scanFrom c nd (nc + 1) us).1, (scanFrom c nd (nc + 1) us).2)
    else (false :: (scanFrom c nd nc us).1, (scanFrom c nd nc us).2)

/-- `SCAN(s, c)`: the protection marks, if both minimums are met (R247). -/
def scan (s : Text) (c : Constraints) : Option (List Bool) :=
  let r := scanFrom c 0 0 s
  if r.2.1 = c.digits ∧ r.2.2 = c.caps then some r.1 else none

/-- The first k unprotected units deleted, left to right (R248). -/
def deleteUnprotected : Nat → Text → List Bool → Text
  | 0, s, _ => s
  | k + 1, u :: us, p :: ps => if p then u :: deleteUnprotected (k + 1) us ps else deleteUnprotected k us ps
  | _ + 1, s, _ => s

/-- `TRUNCATE(s, prot, c)`; none if too few positions are unprotected (R248). -/
def truncateTo (s : Text) (marks : List Bool) (maxlen : Nat) : Option Text :=
  if maxlen = 0 ∨ s.length ≤ maxlen then some s
  else if marks.count false < s.length - maxlen then none
  else some (deleteUnprotected (s.length - maxlen) s marks)

/-- One pass of the search: the password, if the counter's candidate passes the scan and the truncation
(R249). -/
def tryCounter (rule : DigitRule) (hk : WordArray) (c : Constraints) (ctr : Word) : Option Text :=
  let s := candidate rule hk ctr (alphabet c)
  match scan s c with
  | none => none
  | some marks => truncateTo s marks c.maxlen

/-- The first counter, from ctr on and wrapping modulo 2^64, that an attempt accepts, of so many (R249). -/
def firstPassing (attempt : Word → Option Text) : Nat → Word → Option (Text × Word)
  | 0, _ => none
  | n + 1, ctr =>
    match attempt ctr with
    | some t => some (t, ctr)
    | none => firstPassing attempt n (ctr + 1)

/-- The number of counter values. The counter wraps modulo 2^64 (R249), so a search that has tried so many
has tried them all. -/
def counterValues : Nat := 2 ^ 64

/-- `GEN(hk, c, ctr0)` (R249): the password and the final counter, or none where NO counter value passes
and GEN does not return (R250). Trying every counter value once is no bound on the search: it is the whole
of it (log entry 5). -/
def gen (rule : DigitRule) (hk : WordArray) (c : Constraints) (ctr0 : Word) : Option (Text × Word) :=
  firstPassing (tryCounter rule hk c) counterValues ctr0

end Sys2Proof.Machine
end

