-- ==== Sys2Proof/Machine/GeneratorCommands.lean ====
section
/-! DEFINITION. The command GENERATE (spec 43_generator.md R254), and the end of a generator command,
which COMPUTE_PW in GENERATED mode shares (44_key_derivation.md R286). -/

namespace Sys2Proof.Machine

/-- The end of a generator command with hashed key hk (R252, R254, R255): the password raw-encoded at
DST_BASE and the final counter in DESC_COUNTER. Where no counter value passes, the command does not
complete and the core stays as it is, BUSY, until reset (R250, R390 (a), log entry 5). -/
def finishGenerate (hk : WordArray) (s : State) : State :=
  let sn := s.inputs
  match gen s.cfg.digitRule hk sn.constraints sn.regs.counter with
  | none => s
  | some (t, ctr) =>
    let stored := s.storeWords sn.regs.dstBase (rawEncode t)
    complete (BitVec.ofNat 64 (outputWords s.cfg.digitRule sn.regs))
      (BitVec.ofNat 64 (outputLen s.cfg.digitRule sn.regs)) 0
      { stored with regs := { stored.regs with counter := ctr } }

/-- The checks of GENERATE (R254). -/
def generateChecks (c : Config) (r : Regs) : List (Bool × StatusCode) :=
  [(srcaInRange c r, .malformed), (decide (r.srcaLen.toNat = 8), .malformed),
   (extraInRange c r, .malformed), (dstInRange c r (outputWords c.digitRule r), .malformed),
   (matchable r, .unmatchable), (decide (alphabetSize r ≤ c.alphaCap.toNat), .alloc),
   (dstHolds r (outputWords c.digitRule r), .alloc)]

/-- GENERATE (R254): hashed key in SRCA. -/
def execGenerate (sel : Selectors) (s : State) : Host.Outcome State Fault Refusal :=
  let sn := s.inputs
  match firstFailure ((sel.registered, .unsupported) :: generateChecks s.cfg sn.regs) with
  | some k => .next (raiseStatus k s)
  | none => .next (finishGenerate sn.srca s)

end Sys2Proof.Machine
end

