-- ==== Sys2Proof/Machine/HashCommands.lean ====
section
/-! DEFINITION. The commands HASH (spec 40_sha512.md R178) and HMAC (41_hmac.md R206). The checks of a
command stand in the order of 60_exceptions.md R348: the selectors first, then the `raise` lines of the
command's own rule. -/

namespace Sys2Proof.Machine

/-- The checks of HASH (R178). -/
def hashChecks (c : Config) (r : Regs) : List (Bool × StatusCode) :=
  [(srcaInRange c r, .malformed), (dstInRange c r 8, .malformed),
   (padFits c r.srcaLen.toNat, .alloc), (dstHolds r 8, .alloc)]

/-- HASH (R178). -/
def execHash (sel : Selectors) (s : State) : Host.Outcome State Fault Refusal :=
  let sn := s.inputs
  match firstFailure ((sel.registered, .unsupported) :: hashChecks s.cfg sn.regs) with
  | some k => .next (raiseStatus k s)
  | none => .next (complete 8 0 0 (s.storeWords sn.regs.dstBase (sha512 sn.srca)))

/-- The checks of HMAC (R206). -/
def hmacChecks (c : Config) (r : Regs) : List (Bool × StatusCode) :=
  [(srcaInRange c r, .malformed), (srcbInRange c r, .malformed), (dstInRange c r 8, .malformed),
   (hmacFits c r.srcaLen.toNat r.srcbLen.toNat, .alloc), (dstHolds r 8, .alloc)]

/-- HMAC (R206): key in SRCA, message in SRCB. -/
def execHmac (sel : Selectors) (s : State) : Host.Outcome State Fault Refusal :=
  let sn := s.inputs
  match firstFailure ((sel.registered, .unsupported) :: hmacChecks s.cfg sn.regs) with
  | some k => .next (raiseStatus k s)
  | none => .next (complete 8 0 0 (s.storeWords sn.regs.dstBase (hmac sn.srca sn.srcb)))

end Sys2Proof.Machine
end

