-- ==== Sys2Proof/Machine/Derivation.lean ====
section
/-! DEFINITION. The functions of the key-derivation pipeline (spec 44_key_derivation.md R280-R284). -/

namespace Sys2Proof.Machine

/-- `SERVICE_NONCE(svc, nonce) := svc ‖ [0] ‖ [nonce]` (R280). -/
def serviceNonce (svc : WordArray) (nonce : Word) : WordArray := svc ++ [0] ++ [nonce]

/-- `INITIAL_KEY(mp, svc, nonce)` (R281). -/
def initialKey (mp svc : WordArray) (nonce : Word) : WordArray := hmac mp (serviceNonce svc nonce)

/-- `STRETCH(ik, iters)`: so many hashes (R282). -/
def stretch : Nat → WordArray → WordArray
  | 0, hk => hk
  | n + 1, hk => stretch n (sha512 hk)

/-- `DERIVE(mp, svc, nonce, iters)` (R283). -/
def derive (mp svc : WordArray) (nonce iters : Word) : WordArray :=
  stretch iters.toNat (initialKey mp svc nonce)

/-- `DeriveFits(ml, sl)` on the length registers (R284). -/
def deriveFits (c : Config) (r : Regs) : Bool := hmacFits c r.srcaLen.toNat (r.srcbLen.toNat + 2)

/-- The hashed key of a pipeline command: master password in SRCA, service name in SRCB, DESC_ITER, and
the given nonce (R283, D44). -/
def Snapshot.derivedKey (sn : Snapshot) (nonce : Word) : WordArray := derive sn.srca sn.srcb nonce sn.regs.iter

end Sys2Proof.Machine
end

