-- ==== Sys2Proof/Machine/PipelineCommands.lean ====
section
/-! DEFINITION. The pipeline commands DERIVE_KEY, COMPUTE_PW, ENCRYPT_PW and BENCHMARK (spec
44_key_derivation.md R285-R290). -/

namespace Sys2Proof.Machine

/-- The checks of DERIVE_KEY (R285). -/
def deriveKeyChecks (c : Config) (r : Regs) : List (Bool × StatusCode) :=
  [(srcaInRange c r, .malformed), (srcbInRange c r, .malformed), (dstInRange c r 8, .malformed),
   (deriveFits c r, .alloc), (dstHolds r 8, .alloc)]

/-- DERIVE_KEY (R285). -/
def execDeriveKey (sel : Selectors) (s : State) : Host.Outcome State Fault Refusal :=
  let sn := s.inputs
  match firstFailure ((sel.registered, .unsupported) :: deriveKeyChecks s.cfg sn.regs) with
  | some k => .next (raiseStatus k s)
  | none => .next (complete 8 0 0 (s.storeWords sn.regs.dstBase (sn.derivedKey sn.regs.nonce)))

/-- The checks of COMPUTE_PW in GENERATED mode (R286). -/
def computeGeneratedChecks (c : Config) (r : Regs) : List (Bool × StatusCode) :=
  [(srcaInRange c r, .malformed), (srcbInRange c r, .malformed), (extraInRange c r, .malformed),
   (dstInRange c r (outputWords c.digitRule r), .malformed), (matchable r, .unmatchable),
   (deriveFits c r, .alloc), (decide (alphabetSize r ≤ c.alphaCap.toNat), .alloc),
   (dstHolds r (outputWords c.digitRule r), .alloc)]

/-- The checks of COMPUTE_PW in ENCRYPTED mode (R286). -/
def computeEncryptedChecks (c : Config) (r : Regs) : List (Bool × StatusCode) :=
  [(srcaInRange c r, .malformed), (srcbInRange c r, .malformed), (ciphertextInRange c r, .malformed),
   (dstInRange c r r.ctLen.toNat, .malformed), (deriveFits c r, .alloc),
   (dstHolds r r.ctLen.toNat, .alloc)]

/-- The checks of COMPUTE_PW, by the mode (R286). -/
def computePwChecks (c : Config) (r : Regs) : List (Bool × StatusCode) :=
  match r.mode with
  | .generated => computeGeneratedChecks c r
  | .encrypted => computeEncryptedChecks c r

/-- The end of COMPUTE_PW in ENCRYPTED mode: the stored ciphertext deciphered, and its raw-decoded length
(R286, R287). -/
def finishDecrypt (s : State) : State :=
  let sn := s.inputs
  let p := ofb (sn.derivedKey sn.regs.nonce) sn.ciphertext
  complete sn.regs.ctLen (BitVec.ofNat 64 (rawLen p)) 0 (s.storeWords sn.regs.dstBase p)

/-- COMPUTE_PW (R286). -/
def execComputePw (sel : Selectors) (s : State) : Host.Outcome State Fault Refusal :=
  let sn := s.inputs
  match firstFailure ((sel.registered, .unsupported) :: computePwChecks s.cfg sn.regs) with
  | some k => .next (raiseStatus k s)
  | none =>
    match sn.regs.mode with
    | .generated => .next (finishGenerate (sn.derivedKey sn.regs.nonce) s)
    | .encrypted => .next (finishDecrypt s)

/-- The checks of ENCRYPT_PW (R288). -/
def encryptPwChecks (c : Config) (r : Regs) : List (Bool × StatusCode) :=
  [(srcaInRange c r, .malformed), (srcbInRange c r, .malformed), (srccInRange c r, .malformed),
   (dstInRange c r r.srccLen.toNat, .malformed), (deriveFits c r, .alloc),
   (dstHolds r r.srccLen.toNat, .alloc)]

/-- The nonce ENCRYPT_PW derives with: one more where a stored ciphertext is being replaced (R288,
R320). -/
def encryptNonce (r : Regs) : Word :=
  match r.mode with
  | .generated => r.nonce
  | .encrypted => r.nonce + 1

/-- The descriptor after a ciphertext of n words at base has been stored under a nonce (R288). -/
def storeCiphertextRegs (r : Regs) (nonce base n : Word) : Regs :=
  { r with nonce := nonce, ctBase := base, ctLen := n, mode := .encrypted, nb := false }

/-- ENCRYPT_PW (R288): plaintext in SRCC. -/
def execEncryptPw (sel : Selectors) (s : State) : Host.Outcome State Fault Refusal :=
  let sn := s.inputs
  match firstFailure ((sel.registered, .unsupported) :: encryptPwChecks s.cfg sn.regs) with
  | some k => .next (raiseStatus k s)
  | none =>
    let nonce := encryptNonce sn.regs
    let stored := s.storeWords sn.regs.dstBase (ofb (sn.derivedKey nonce) sn.srcc)
    .next (complete sn.regs.srccLen 0 0
      { stored with regs := storeCiphertextRegs stored.regs nonce sn.regs.dstBase sn.regs.srccLen })

/-- The checks of BENCHMARK (R290). -/
def benchmarkChecks (c : Config) (r : Regs) : List (Bool × StatusCode) :=
  [(srcaInRange c r, .malformed), (srcbInRange c r, .malformed), (deriveFits c r, .alloc)]

/-- BENCHMARK enters its loop: the initial key, t0 and n = 0 (R289). -/
def benchStart (sn : Snapshot) (s : State) : State :=
  { s with scratch := { s.scratch with
      initialKey := initialKey sn.srca sn.srcb sn.regs.nonce
      benchRunning := true, benchStart := s.regs.time, benchCount := 0 } }

/-- The loop test `(reg[TIME] − t0) mod 2^64 < budget` (R289). TIME is the live counter; the budget is the
snapshot's. -/
def benchWithinBudget (budget : Word) (s : State) : Bool :=
  decide ((s.regs.time - s.scratch.benchStart).toNat < budget.toNat)

/-- One pass of the loop: the key re-hashed in place, the count one more (R289). -/
def benchPass (s : State) : State :=
  { s with scratch := { s.scratch with
      initialKey := sha512 s.scratch.initialKey, benchCount := s.scratch.benchCount + 1 } }

/-- The end of BENCHMARK: the count in RES_COUNT (R290). -/
def benchFinish (s : State) : State := complete 0 0 s.scratch.benchCount s

/-- BENCHMARK (R289, R290). TIME runs beside the loop, so the loop is seen in several core steps: the
first enters it, each later one makes one test and, within the budget, one pass. A budget of 0 needs no
test of TIME and "returns 0 at once" (log entry 6). -/
def execBenchmark (sel : Selectors) (s : State) : Host.Outcome State Fault Refusal :=
  let sn := s.inputs
  match firstFailure ((sel.registered, .unsupported) :: benchmarkChecks s.cfg sn.regs) with
  | some k => .next (raiseStatus k s)
  | none =>
    if s.scratch.benchRunning then
      if benchWithinBudget sn.regs.benchBudget s then .next (benchPass s) else .next (benchFinish s)
    else if sn.regs.benchBudget = 0 then .next (benchFinish (benchStart sn s))
    else .next (benchStart sn s)

end Sys2Proof.Machine
end

