-- ==== Sys2Proof/Machine/Dispatch.lean ====
section
/-! DEFINITION. `exec`: one arm per constructor of Instr, each one call of that command's meaning. -/

namespace Sys2Proof.Machine

def exec (i : Instr) (s : State) : Host.Outcome State Fault Refusal :=
  match i with
  | .hash sel => Sys2Proof.Machine.execHash sel s
  | .hmac sel => Sys2Proof.Machine.execHmac sel s
  | .ofbEnc sel => Sys2Proof.Machine.execOfbEnc sel s
  | .ofbDec sel => Sys2Proof.Machine.execOfbDec sel s
  | .generate sel => Sys2Proof.Machine.execGenerate sel s
  | .deriveKey sel => Sys2Proof.Machine.execDeriveKey sel s
  | .computePw sel => Sys2Proof.Machine.execComputePw sel s
  | .encryptPw sel => Sys2Proof.Machine.execEncryptPw sel s
  | .benchmark sel => Sys2Proof.Machine.execBenchmark sel s
  | .setMode sel target => Sys2Proof.Machine.execSetMode sel target s
  | .bumpNonce sel => Sys2Proof.Machine.execBumpNonce sel s

end Sys2Proof.Machine
end

