-- ==== Sys2Proof/Machine/Step.lean ====
section
/-! DEFINITION. One step of the machine: the next event of the environment, or a step of the core (spec
00_scope.md R4, 20_memory.md R87, R90, 60_exceptions.md R356). -/

namespace Sys2Proof.Machine

/-- A step of the core: while IDLE it waits (70_reset_and_hazards.md R382, 60_exceptions.md R363); while
BUSY it runs the latched command, an undecodable word completing with ILLEGAL (R345, R349). -/
def coreStep (s : State) : Host.Outcome State Fault Refusal :=
  match s.phase with
  | .idle => .next s
  | .busy _ =>
    match decode s.regs.cmd with
    | .illegal _ => .next (raiseStatus .illegal s)
    | .command i => exec i s

/-- One step: the first event of the inbox happens; with none left the core moves, which is the weak
fairness of R391 (log entry 4). -/
def step (s : State) : Host.Outcome State Fault Refusal :=
  match s.inbox with
  | [] => coreStep s
  | .core :: es => coreStep { s with inbox := es }
  | .write width addr v :: es => .next (hostWrite width addr v { s with inbox := es })
  | .read width addr :: es => .next (hostRead width addr { s with inbox := es })
  | .tick n :: es => .next (tick n { s with inbox := es })
  | .reset :: es => .next (platformReset { s with inbox := es })

/-- s with the instruction whose low `nbits` bits are `w` accepted as its command (R349), and no event
before it: the next step is the core's and runs it. Zero scratch is part of a command's start (R67; log
entry 3). -/
def State.withFetchWord (s : State) (nbits w : Nat) : State :=
  accept (BitVec.ofNat 64 (w % 2 ^ nbits)) { s with inbox := [], scratch := Scratch.zero }

end Sys2Proof.Machine
end

