-- ==== Sys2Proof/Machine/HostFormats.lean ====
section
/-! DEFINITION. The two text forms of a word array, which the host applies (spec 30_encoding.md R120-R127,
00_scope.md R5): the raw decoding and the hex encoding. The raw encoding stands in Operands.lean, because
the core writes its results in it. No command calls what stands here (60_exceptions.md R342). -/

namespace Sys2Proof.Machine

/-- Raw decoding: the units in order, the trailing zero units of the last word stripped (R121). It loses
real NULs at the end of the last word, which the spec keeps so (R122). -/
def rawDecode (p : WordArray) : Text := (p.flatMap unitsOfWord).take (rawLen p)

/-- A lowercase hex digit (R124). -/
def hexDigit (n : Nat) : Char := if n < 10 then Char.ofNat (0x30 + n) else Char.ofNat (0x57 + n)

/-- The value of a lowercase hex digit; none for any other character (R126). -/
def hexValue (ch : Char) : Option Nat :=
  if 0x30 ≤ ch.toNat ∧ ch.toNat ≤ 0x39 then some (ch.toNat - 0x30)
  else if 0x61 ≤ ch.toNat ∧ ch.toNat ≤ 0x66 then some (ch.toNat - 0x57)
  else none

/-- n hex digits of a number, most significant first (R124). -/
def hexDigits : Nat → Nat → List Char
  | 0, _ => []
  | n + 1, v => hexDigits n (v / 16) ++ [hexDigit (v % 16)]

/-- One block: the 16 digits of a word (R124). -/
def hexBlock (w : Word) : List Char := hexDigits 16 w.toNat

/-- The blocks, exactly one space between consecutive ones (R124). -/
def hexBlocks : WordArray → List Char
  | [] => []
  | [w] => hexBlock w
  | w :: w' :: ws => hexBlock w ++ ' ' :: hexBlocks (w' :: ws)

/-- Hex encoding; none for the empty array, which has no valid encoding (R124, R127). -/
def hexEncode (ws : WordArray) : Option (List Char) :=
  match ws with
  | [] => none
  | _ :: _ => some ('0' :: 'x' :: hexBlocks ws)

/-- `hexlen(c)`, 0 for an invalid length (R125). -/
def hexLen (c : Nat) : Nat := if 18 ≤ c ∧ c % 17 = 1 then (c - 1) / 17 else 0

/-- The number a digit string reads as, after `acc`; none if a character is no lowercase digit (R126). -/
def hexNumber : Nat → List Char → Option Nat
  | acc, [] => some acc
  | acc, ch :: cs =>
    match hexValue ch with
    | none => none
    | some d => hexNumber (16 * acc + d) cs

/-- k blocks of 16 digits with one space between consecutive ones and nothing after the last (R126). -/
def hexReadBlocks : Nat → List Char → Option WordArray
  | 0, _ => none
  | 1, cs =>
    if cs.length = 16 then (hexNumber 0 cs).map fun v => [BitVec.ofNat 64 v] else none
  | k + 2, cs =>
    match hexNumber 0 (cs.take 16), cs.drop 16 with
    | some v, ' ' :: rest => (hexReadBlocks (k + 1) rest).map fun ws => BitVec.ofNat 64 v :: ws
    | _, _ => none

/-- Hex decoding: the word array, or none for any text R126 does not admit. -/
def hexDecode (cs : List Char) : Option WordArray :=
  match cs with
  | '0' :: 'x' :: rest => hexReadBlocks (hexLen cs.length) rest
  | _ => none

end Sys2Proof.Machine
end

