-- ==== Sys2Proof/Safety.lean ====
section
/-! DEFINITION. The terms claims are stated in: what a completion leaves, when a command fails and with
which code (spec 60_exceptions.md R341-R345), the machine's invariant (10_state.md R67, 20_memory.md R86),
the host-writable bits of a register (10_state.md R62), and the life of a descriptor under the nonce rule
(45_descriptor.md R325). -/

namespace Sys2Proof.Machine

/-! ### What a completion leaves -/

/-- Every byte of DMEM reads the same. -/
def SameBytes (before after : Memory) : Prop := ∀ a, after.readByte a = before.readByte a

/-- The words `ws` stand from DMEM word `base` up, and every byte outside them reads as before (R85). -/
def StoresExactly (before after : Memory) (base : Nat) (ws : WordArray) : Prop :=
  memRead after base ws.length = ws ∧
    ∀ a, ¬ (dmemAddr base ≤ a ∧ a < dmemAddr base + 8 * ws.length) → after.readByte a = before.readByte a

/-- t is s after a completion with this code and these RES_* values, whose registers were `r` before it:
IDLE, zero scratch, and all but DMEM given (R350, R351, R67). -/
def CompletedWith (s t : State) (r : Regs) (code : StatusCode) (len units count : Word) : Prop :=
  t.phase = .idle ∧ t.scratch = Scratch.zero ∧ t.cfg = s.cfg ∧ t.inbox = s.inbox ∧
    t.observed = s.observed ∧
    t.regs = { r with
      done := true, code := code, resLen := len, resUnits := units, resCount := count }

/-! ### When a command fails -/

/-- A region of n words from b is not inside DMEM (R84, R342). -/
def Outside (c : Config) (b : Word) (n : Nat) : Prop := c.dmemWords.toNat < b.toNat + n

/-- A SHA-512 evaluation on n words does not fit the padded buffer (R171). -/
def PadTooLong (c : Config) (n : Nat) : Prop := c.padCapWords.toNat < padLen n

/-- A MAC with these lengths does not fit (R203). -/
def MacTooLong (c : Config) (kl ml : Nat) : Prop := (16 < kl ∧ PadTooLong c kl) ∨ PadTooLong c (16 + ml)

/-- The derivation of a pipeline command does not fit (R284). -/
def DeriveTooLong (c : Config) (r : Regs) : Prop := MacTooLong c r.srcaLen.toNat (r.srcbLen.toNat + 2)

/-- The MALFORMED causes of a command (R342), by its own rule. -/
def MalformedCause (c : Config) (r : Regs) : Instr → Prop
  | .hash _ => Outside c r.srcaBase r.srcaLen.toNat ∨ Outside c r.dstBase 8
  | .hmac _ | .deriveKey _ =>
    Outside c r.srcaBase r.srcaLen.toNat ∨ Outside c r.srcbBase r.srcbLen.toNat ∨ Outside c r.dstBase 8
  | .ofbEnc _ | .ofbDec _ =>
    Outside c r.srcaBase r.srcaLen.toNat ∨ r.srcaLen ≠ 8 ∨ Outside c r.srcbBase r.srcbLen.toNat ∨
      Outside c r.dstBase r.srcbLen.toNat
  | .generate _ =>
    Outside c r.srcaBase r.srcaLen.toNat ∨ r.srcaLen ≠ 8 ∨ Outside c r.xBase (ceilDiv r.xUnits.toNat 4) ∨
      Outside c r.dstBase (outputWords c.digitRule r)
  | .computePw _ =>
    Outside c r.srcaBase r.srcaLen.toNat ∨ Outside c r.srcbBase r.srcbLen.toNat ∨
      (r.mode = .generated ∧ (Outside c r.xBase (ceilDiv r.xUnits.toNat 4) ∨
        Outside c r.dstBase (outputWords c.digitRule r))) ∨
      (r.mode = .encrypted ∧ (Outside c r.ctBase r.ctLen.toNat ∨ Outside c r.dstBase r.ctLen.toNat))
  | .encryptPw _ =>
    Outside c r.srcaBase r.srcaLen.toNat ∨ Outside c r.srcbBase r.srcbLen.toNat ∨
      Outside c r.srccBase r.srccLen.toNat ∨ Outside c r.dstBase r.srccLen.toNat
  | .benchmark _ => Outside c r.srcaBase r.srcaLen.toNat ∨ Outside c r.srcbBase r.srcbLen.toNat
  | .setMode _ target => target = .encrypted ∧ r.mode = .generated
  | .bumpNonce _ => False

/-- `¬Matchable(c)` (R241, R343). -/
def Unmatchable (r : Regs) : Prop :=
  (0 < r.caps.toNat ∧ r.caseSens = false) ∨
    (r.maxlen.toNat ≠ 0 ∧ r.maxlen.toNat < r.caps.toNat + r.digits.toNat)

/-- The UNMATCHABLE cause of a command: GENERATE, and COMPUTE_PW in GENERATED mode (R343). -/
def UnmatchableCause (r : Regs) : Instr → Prop
  | .generate _ => Unmatchable r
  | .computePw _ => r.mode = .generated ∧ Unmatchable r
  | .hash _ | .hmac _ | .ofbEnc _ | .ofbDec _ | .deriveKey _ | .encryptPw _ | .benchmark _
  | .setMode _ _ | .bumpNonce _ => False

/-- The ALLOC causes of a command (R341). -/
def AllocCause (c : Config) (r : Regs) : Instr → Prop
  | .hash _ => PadTooLong c r.srcaLen.toNat ∨ r.dstCap.toNat < 8
  | .hmac _ => MacTooLong c r.srcaLen.toNat r.srcbLen.toNat ∨ r.dstCap.toNat < 8
  | .ofbEnc _ | .ofbDec _ => r.dstCap.toNat < r.srcbLen.toNat
  | .generate _ =>
    c.alphaCap.toNat < alphabetSize r ∨ r.dstCap.toNat < outputWords c.digitRule r
  | .deriveKey _ => DeriveTooLong c r ∨ r.dstCap.toNat < 8
  | .computePw _ =>
    DeriveTooLong c r ∨
      (r.mode = .generated ∧ (c.alphaCap.toNat < alphabetSize r ∨
        r.dstCap.toNat < outputWords c.digitRule r)) ∨
      (r.mode = .encrypted ∧ r.dstCap.toNat < r.ctLen.toNat)
  | .encryptPw _ => DeriveTooLong c r ∨ r.dstCap.toNat < r.srccLen.toNat
  | .benchmark _ => DeriveTooLong c r
  | .setMode _ _ | .bumpNonce _ => False

/-- No check of the command fails (R341-R344). -/
def Runs (c : Config) (r : Regs) (i : Instr) : Prop :=
  i.wellFormed = true ∧ ¬ MalformedCause c r i ∧ ¬ UnmatchableCause r i ∧ ¬ AllocCause c r i

/-- The codes a command may complete with (R348's table). ILLEGAL is no decoded command's. -/
def MayComplete (r : Regs) (i : Instr) (code : StatusCode) : Prop :=
  match code with
  | .ok | .unsupported => True
  | .illegal => False
  | .malformed =>
    match i with
    | .bumpNonce _ => False
    | _ => True
  | .unmatchable =>
    match i with
    | .generate _ => True
    | .computePw _ => r.mode = .generated
    | _ => False
  | .alloc =>
    match i with
    | .setMode _ _ | .bumpNonce _ => False
    | _ => True

/-! ### The invariant -/

/-- Every listed byte lies in the DMEM window (R64, R80). -/
def InWindow (c : Config) (m : Memory) : Prop :=
  ∀ cell ∈ m, 0x10000 ≤ cell.1 ∧ cell.1 < 0x10000 + 8 * c.dmemWords.toNat

/-- The snapshot is the register page and DMEM as they stand, but for the fields that change while BUSY:
IE, WIGN and TIME (R86: "the snapshot equals the contents at completion"). -/
def Coherent (s : State) (sn : Snapshot) : Prop :=
  sn.dmem = s.dmem ∧
    { sn.regs with ie := s.regs.ie, wign := s.regs.wign, time := s.regs.time } = s.regs

/-- The scratch while BUSY: zero, or BENCHMARK in its loop with its three pieces and the rest zero (R67,
R289). -/
def ScratchWhileBusy (s : State) : Prop :=
  s.scratch = Scratch.zero ∨
    (s.scratch.benchRunning = true ∧ (∃ sel, decode s.regs.cmd = .command (.benchmark sel)) ∧
      s.scratch = { Scratch.zero with
        initialKey := s.scratch.initialKey, benchRunning := true
        benchStart := s.scratch.benchStart, benchCount := s.scratch.benchCount })

/-- What the phase says of the rest: IDLE means zero scratch (R67); BUSY means a coherent snapshot (R86),
DONE and CODE clear (R349), and no scratch but BENCHMARK's. -/
def PhaseOk (s : State) : Prop :=
  match s.phase with
  | .idle => s.scratch = Scratch.zero
  | .busy sn => Coherent s sn ∧ s.regs.done = false ∧ s.regs.code = .ok ∧ ScratchWhileBusy s

/-- The invariant of the machine: canonical memory inside the DMEM window, and a consistent phase. -/
structure Inv (s : State) : Prop where
  memory_canonical : s.dmem.wf
  memory_in_window : InWindow s.cfg s.dmem
  phase_ok : PhaseOk s

/-! ### The register page -/

/-- The bits of a register that a host write stores while IDLE (R62): none of a read-only register, all
but the reserved ones of an RW register. CMD and CTRL have their own rules (R38, R39). -/
def writableBits : Reg → Word
  | .id | .cfgDmem | .cfgPad | .cfgAlpha | .cfgTick | .status | .time | .resLen | .resUnits
  | .resCount => 0
  | .cmd | .ctrl => 0
  | .descMode | .descCase | .descFlags => 1
  | .descCaps | .descDigits | .descMaxlen => 0xFFFFFFFF
  | .srcaBase | .srcaLen | .srcbBase | .srcbLen | .srccBase | .srccLen | .dstBase | .dstCap
  | .benchBudget | .descNonce | .descIter | .descXbase | .descXunits | .descCounter | .descCtbase
  | .descCtlen => 0xFFFFFFFFFFFFFFFF

/-- The reset value of a register (10_state.md section 4, R70). -/
def resetValue (c : Config) : Reg → Word
  | .id => 0x4841534849534801
  | .cfgDmem => c.dmemWords
  | .cfgPad => c.padCapWords
  | .cfgAlpha => c.alphaCap
  | .cfgTick => c.timebaseHz
  | .descMaxlen => 15
  | .cmd | .ctrl | .status | .time | .srcaBase | .srcaLen | .srcbBase | .srcbLen | .srccBase
  | .srccLen | .dstBase | .dstCap | .resLen | .resUnits | .resCount | .benchBudget | .descMode
  | .descNonce | .descIter | .descCase | .descCaps | .descDigits | .descXbase | .descXunits
  | .descCounter | .descCtbase | .descCtlen | .descFlags => 0

/-- A host write of `v` to register `r` as the next event, in an instance with CORE_BASE anywhere. -/
def writeOf (s : State) (r : Reg) (v : Word) : Event := .write 64 (s.cfg.coreBase.toNat + 8 * r.index) v

/-! ### Runs -/

/-- k steps lead from one state to another. -/
def Steps : Nat → State → State → Prop
  | 0, s, t => t = s
  | k + 1, s, t => ∃ u, step s = .next u ∧ Steps k u t

/-! ### The nonce rule -/

/-- The part of the descriptor that the nonce rule speaks of: mode, nonce and NB (R320, R321). -/
structure Descriptor where
  /-- DESC_MODE.MODE. -/
  mode : Mode
  /-- DESC_NONCE. -/
  nonce : Word
  /-- DESC_FLAGS.NB. -/
  nb : Bool
  deriving DecidableEq, Repr

/-- That part of a register page. -/
def Regs.descriptor (r : Regs) : Descriptor := { mode := r.mode, nonce := r.nonce, nb := r.nb }

/-- The nonce wraps from one state to the next: from 2^64−1 to 0 (R323). -/
def NonceWraps (s t : State) : Prop := s.regs.nonce = 0xFFFFFFFFFFFFFFFF ∧ t.regs.nonce = 0

/-- The life of one descriptor whose registers change only through commands and whose nonce never wraps
(R325): the nonces under which ENCRYPT_PW has stored a ciphertext, latest first, and the descriptor as it
stands. Between two commands the host may load any operands, and save and restore the descriptor, so each
command starts from any BUSY state whose snapshot and register page both hold the descriptor. A command at
nonce 2^64−1 belongs to the life unless it wraps the nonce. -/
inductive DescriptorLife : List Nat → Descriptor → Prop where
  /-- A descriptor with no ciphertext yet (R325: "from its creation"). -/
  | created (d : Descriptor) (h : d.mode = .generated) : DescriptorLife [] d
  /-- A command that stored no ciphertext. -/
  | other (used : List Nat) (s t : State) (sn : Snapshot) (i : Instr)
      (life : DescriptorLife used s.regs.descriptor) (busy : s.phase = .busy sn)
      (same : sn.regs.descriptor = s.regs.descriptor) (runs : exec i s = .next t)
      (none : (∀ sel, i ≠ .encryptPw sel) ∨ t.regs.code ≠ .ok)
      (noWrap : ¬ NonceWraps s t) : DescriptorLife used t.regs.descriptor
  /-- An ENCRYPT_PW that completed with OK: its nonce joins the list. -/
  | encrypted (used : List Nat) (s t : State) (sn : Snapshot) (sel : Selectors)
      (life : DescriptorLife used s.regs.descriptor) (busy : s.phase = .busy sn)
      (same : sn.regs.descriptor = s.regs.descriptor) (runs : exec (.encryptPw sel) s = .next t)
      (ok : t.regs.code = .ok) (noWrap : ¬ NonceWraps s t) :
      DescriptorLife (t.regs.nonce.toNat :: used) t.regs.descriptor

end Sys2Proof.Machine
end

