-- ==== Sys2Proof/Certificates/Slice0/Obligations.lean ====
section
/-! DEFINITION. The statements for the provers, in the order of the spec's files. Registers of a command's
operands are read from its snapshot `sn` (20_memory.md R86); `s` is the core as it stands, and `t` the
state the statement is about. A statement that `exec` writes memory says the whole frame: `StoresExactly`
for DMEM, `CompletedWith` for everything else. -/

open Sys2Proof Sys2Proof.Machine

/-! ### 30_encoding.md: the command word -/

/-- Decoding the word of a command gives that command back, for every command and every value of its
fields. Where a selector is nonzero, R116 answers UNSUPPORTED and not the command: that `decode` gives the
command there, which then completes with UNSUPPORTED, is the model's choice (log entry 9). -/
def Obligations.DecodeOfEncode : Prop := ∀ i : Instr, decode (encode i) = .command i

/-- A word that decodes to a command is that command's word: decoding drops no bit. -/
def Obligations.EncodeOfDecode : Prop := ∀ (w : Word) (i : Instr), decode w = .command i → encode i = w

/-- R116's decode function, its fields read as numbers: w[63:25], w[7:0], w[24] and w[23:8]. -/
def Obligations.ClassifyFollowsRule116 : Prop :=
  ∀ w : Word,
    if w.toNat / 2 ^ 25 ≠ 0 then classify w = .illegal
    else if ¬ (1 ≤ w.toNat % 256 ∧ w.toNat % 256 ≤ 0x0B) then classify w = .illegal
    else if w.toNat / 2 ^ 24 % 2 = 1 ∧ w.toNat % 256 ≠ 0x0A then classify w = .illegal
    else if w.toNat / 2 ^ 8 % 2 ^ 16 ≠ 0 then classify w = .unsupported
    else ∃ i, classify w = .command i ∧ i.op.toNat = w.toNat % 256 ∧
      i.modeBit.toNat = w.toNat / 2 ^ 24 % 2

/-- R119's worked encodings, decoded. -/
def Obligations.WorkedEncodingsDecode : Prop :=
  classify 0x0000000000000001 = .command (.hash ⟨0, 0, 0, 0⟩) ∧
    classify 0x0000000000000002 = .command (.hmac ⟨0, 0, 0, 0⟩) ∧
    classify 0x000000000100000A = .command (.setMode ⟨0, 0, 0, 0⟩ .encrypted) ∧
    classify 0x000000000000000B = .command (.bumpNonce ⟨0, 0, 0, 0⟩) ∧
    classify 0x0000000000000101 = .unsupported ∧
    classify 0x0000000002000001 = .illegal ∧ classify 0x0000000001000001 = .illegal

/-- R129: the value of a command word is `OP | h<<8 | m<<12 | c<<16 | g<<20 | M<<24`. -/
def Obligations.WordIsTheOrOfItsFields : Prop :=
  ∀ i : Instr, encode i =
    i.op.zeroExtend 64 ||| (i.selectors.hsel.zeroExtend 64 <<< 8) |||
      (i.selectors.msel.zeroExtend 64 <<< 12) ||| (i.selectors.csel.zeroExtend 64 <<< 16) |||
      (i.selectors.gsel.zeroExtend 64 <<< 20) ||| (i.modeBit.zeroExtend 64 <<< 24)

/-- R120: unit 4i+k of a text stands at bits [63−16k : 48−16k] of word i of its raw encoding, which has
ceil(n/4) words, and the unused positions of the last word are 0. -/
def Obligations.RawEncodingPlacesUnits : Prop :=
  ∀ t : Text, (rawEncode t).length = ceilDiv t.length 4 ∧
    ∀ i k, k < 4 → i < ceilDiv t.length 4 →
      ((rawEncode t).getD i 0).extractLsb' (48 - 16 * k) 16 = t.getD (4 * i + k) 0

/-- R121, R287: the decoded length of a word array is 0 for the empty one; else, where the last of n words
ends in exactly z zero units, it is 4(n−1) + (4−z), whatever the earlier words hold. Raw decoding gives so
many units, unit 4i+k from bits [63−16k : 48−16k] of word i; so it gives back every text whose last unit is
not NUL. -/
def Obligations.RawDecodeOfEncode : Prop :=
  rawLen [] = 0 ∧
  (∀ (p : WordArray) (w : Word) (z : Nat), z ≤ 4 → w.toNat % 2 ^ (16 * z) = 0 →
    (z < 4 → w.toNat / 2 ^ (16 * z) % 2 ^ 16 ≠ 0) → rawLen (p ++ [w]) = 4 * p.length + (4 - z)) ∧
  (∀ p : WordArray, (rawDecode p).length = rawLen p ∧
    ∀ i k, k < 4 → 4 * i + k < rawLen p →
      (rawDecode p).getD (4 * i + k) 0 = (p.getD i 0).extractLsb' (48 - 16 * k) 16) ∧
  ∀ t : Text, t.getLast? ≠ some 0 → rawDecode (rawEncode t) = t

/-- R124 and R126: the hex encoding of a non-empty array has 17k+1 characters and decodes to the array;
the empty array has none (R127); and no text but an encoding decodes. -/
def Obligations.HexDecodeOfEncode : Prop :=
  hexEncode [] = none ∧
    (∀ ws : WordArray, ws ≠ [] → ∃ cs, hexEncode ws = some cs ∧ cs.length = 17 * ws.length + 1 ∧
      hexLen cs.length = ws.length ∧ hexDecode cs = some ws) ∧
    ∀ (cs : List Char) (ws : WordArray), hexDecode cs = some ws → hexEncode ws = some cs

/-! ### 20_memory.md and 10_state.md: host accesses and the register page -/

/-- R82: an access of another width, at an offset that is no multiple of 8, or at an unimplemented offset
has no effect, not even on WIGN, and a read of it returns 0. -/
def Obligations.UndefinedAccessHasNoEffect : Prop :=
  ∀ (s : State) (width off : Nat) (v : Word) (es : List Event),
    (width ≠ 64 ∨ off % 8 ≠ 0 ∨ (0x200 ≤ off ∧ off < 0x10000) ∨
      0x10000 + 8 * s.cfg.dmemWords.toNat ≤ off) →
    (s.inbox = .write width (s.cfg.coreBase.toNat + off) v :: es → step s = .next { s with inbox := es }) ∧
      (s.inbox = .read width (s.cfg.coreBase.toNat + off) :: es →
        step s = .next { s with inbox := es, observed := s.observed ++ [0] })

/-- R81, R64: while IDLE a write to DMEM word j sets that word and no other byte, and a read of word j
returns it; neither changes anything else. -/
def Obligations.IdleDmemAccess : Prop :=
  ∀ (s : State) (j : Nat) (v : Word) (es : List Event),
    s.dmem.wf → s.phase = .idle → j < s.cfg.dmemWords.toNat →
    (s.inbox = .write 64 (s.cfg.coreBase.toNat + 0x10000 + 8 * j) v :: es →
      ∃ t, step s = .next t ∧ StoresExactly s.dmem t.dmem j [v] ∧
        t = { s with inbox := es, dmem := t.dmem }) ∧
      (s.inbox = .read 64 (s.cfg.coreBase.toNat + 0x10000 + 8 * j) :: es →
        step s = .next { s with inbox := es, observed := s.observed ++ [s.dmem.readWord j] })

/-- R89: while BUSY a defined write to DMEM or to any register index but CTRL's only sets WIGN, a DMEM
read returns 0 and a register read returns the current value. (CTRL is CtrlWriteInBothPhases, undefined
accesses are UndefinedAccessHasNoEffect.) -/
def Obligations.BusyAccess : Prop :=
  ∀ (s : State) (sn : Snapshot) (v : Word) (es : List Event), s.phase = .busy sn →
    (∀ i, i < 64 → i ≠ Reg.ctrl.index →
      s.inbox = .write 64 (s.cfg.coreBase.toNat + 8 * i) v :: es →
      step s = .next { s with inbox := es, regs := { s.regs with wign := true } }) ∧
    (∀ j, j < s.cfg.dmemWords.toNat →
      s.inbox = .write 64 (s.cfg.coreBase.toNat + 0x10000 + 8 * j) v :: es →
      step s = .next { s with inbox := es, regs := { s.regs with wign := true } }) ∧
    (∀ j, j < s.cfg.dmemWords.toNat →
      s.inbox = .read 64 (s.cfg.coreBase.toNat + 0x10000 + 8 * j) :: es →
      step s = .next { s with inbox := es, observed := s.observed ++ [0] }) ∧
    (∀ r : Reg, s.inbox = .read 64 (s.cfg.coreBase.toNat + 8 * r.index) :: es →
      step s = .next { s with inbox := es, observed := s.observed ++ [readReg s r] })

/-- R81, R89, R39, R62: a read of a register observes its current value, in both phases, and changes
nothing else; CTRL reads IE in bit 0 and 0 elsewhere. While IDLE a write of v to a register other than CMD
and CTRL changes no memory, no other register and no flag; the register then reads v on its writable bits
and its old value on the others. (Writes to CMD and CTRL are AcceptanceLatchesTheCommand and
CtrlWriteInBothPhases.) -/
def Obligations.IdleRegisterWrite : Prop :=
  (∀ (s : State) (r : Reg) (es : List Event),
    s.inbox = .read 64 (s.cfg.coreBase.toNat + 8 * r.index) :: es →
    step s = .next { s with inbox := es, observed := s.observed ++ [readReg s r] }) ∧
  (∀ s : State, readReg s .ctrl = if s.regs.ie then 1 else 0) ∧
  ∀ (s : State) (r : Reg) (v : Word) (es : List Event),
    s.phase = .idle → r ≠ .cmd → r ≠ .ctrl → s.inbox = writeOf s r v :: es →
    ∃ t, step s = .next t ∧ t = { s with inbox := es, regs := t.regs } ∧
      readReg t r = (v &&& writableBits r) ||| (readReg s r &&& ~~~ writableBits r) ∧
      ∀ r', r' ≠ r → readReg t r' = readReg s r'

/-- R61: a reserved index reads 0 and ignores writes in both phases; while BUSY a write to it sets
WIGN. -/
def Obligations.ReservedIndices : Prop :=
  ∀ (s : State) (i : Nat) (v : Word) (es : List Event),
    ((0x05 ≤ i ∧ i ≤ 0x07) ∨ (0x0C ≤ i ∧ i ≤ 0x0F) ∨ (0x1C ≤ i ∧ i ≤ 0x1F) ∨ (0x2D ≤ i ∧ i ≤ 0x3F)) →
    (s.inbox = .read 64 (s.cfg.coreBase.toNat + 8 * i) :: es →
      step s = .next { s with inbox := es, observed := s.observed ++ [0] }) ∧
    (s.inbox = .write 64 (s.cfg.coreBase.toNat + 8 * i) v :: es →
      step s = .next { s with
        inbox := es, regs := { s.regs with wign := s.regs.wign || s.busy } })

/-- R40, R340, R353: the bits of STATUS as a host reads it: BUSY, DONE, IRQ = DONE and IE, CODE with its
six numbers, WIGN, every other bit 0. -/
def Obligations.StatusLayout : Prop :=
  ∀ s : State,
    ((readReg s .status).getLsbD 0 = true ↔ s.phase ≠ .idle) ∧
    (readReg s .status).getLsbD 1 = s.regs.done ∧
    (readReg s .status).getLsbD 2 = (s.regs.done && s.regs.ie) ∧
    (readReg s .status >>> 8) &&& 0xF =
      (match s.regs.code with
      | .ok => 0
      | .alloc => 1
      | .malformed => 2
      | .unmatchable => 3
      | .unsupported => 4
      | .illegal => 5) ∧
    (readReg s .status).getLsbD 16 = s.regs.wign ∧ readReg s .status &&& 0xFFFFFFFFFFFEF0F8 = 0

/-- R41, R359: n ticks add n to TIME modulo 2^64, in both phases, and change nothing else; no other step
but a reset changes TIME. -/
def Obligations.TimeMovesByTicksAlone : Prop :=
  (∀ (s : State) (n : Nat) (es : List Event), s.inbox = .tick n :: es →
    ∃ t, step s = .next t ∧ t.regs.time.toNat = (s.regs.time.toNat + n) % 2 ^ 64 ∧
      t = { s with inbox := es, regs := { s.regs with time := t.regs.time } }) ∧
  ∀ s t : State, step s = .next t → (∀ n, s.inbox.head? ≠ some (.tick n)) →
    s.inbox.head? ≠ some .reset → t.regs.time = s.regs.time

/-! ### 60_exceptions.md: acceptance, completion, failure -/

/-- A step of the core, with no event before it, runs the command that CMD decodes to. That an empty inbox
lets the core move is the model's choice (log entry 4). -/
def Obligations.StepRunsTheDecodedCommand : Prop :=
  ∀ (s : State) (sn : Snapshot) (i : Instr), s.phase = .busy sn → decode s.regs.cmd = .command i →
    (s.inbox = [] → step s = exec i s) ∧
      ∀ es, s.inbox = .core :: es → step s = exec i { s with inbox := es }

/-- R349: a CMD write while IDLE latches the word, whatever it is, clears DONE and CODE, takes the
snapshot and goes BUSY; WIGN, IE and all else stay, and IRQ falls. -/
def Obligations.AcceptanceLatchesTheCommand : Prop :=
  ∀ (s : State) (w : Word) (es : List Event), s.phase = .idle → s.inbox = writeOf s .cmd w :: es →
    ∃ t, step s = .next t ∧ t.regs = { s.regs with cmd := w, done := false, code := .ok } ∧
      t.phase = .busy { regs := t.regs, dmem := s.dmem } ∧ t.irq = false ∧
      t = { s with inbox := es, regs := t.regs, phase := t.phase }

/-- R354, R39: a CTRL write takes effect in both phases: IE from bit 0, and with bit 1 set DONE and WIGN
cleared; nothing else changes; CTRL then reads bit 0 of the value written. -/
def Obligations.CtrlWriteInBothPhases : Prop :=
  ∀ (s : State) (v : Word) (es : List Event), s.inbox = writeOf s .ctrl v :: es →
    ∃ t, step s = .next t ∧ t.regs.ie = v.getLsbD 0 ∧ readReg t .ctrl = v &&& 1 ∧
      (v.getLsbD 1 = true → t.regs.done = false ∧ t.regs.wign = false) ∧
      (v.getLsbD 1 = false → t.regs.done = s.regs.done ∧ t.regs.wign = s.regs.wign) ∧
      t = { s with inbox := es, regs := { s.regs with
        ie := t.regs.ie, done := t.regs.done, wign := t.regs.wign } }

/-- R114, R115, R345: a word with an unassigned OP, a reserved bit, or M without SET_MODE completes with
ILLEGAL and has no other effect (R347). The two inboxes are the model's choice of when the core moves
(log entry 4). -/
def Obligations.IllegalWordsCompleteIllegal : Prop :=
  ∀ (s : State) (sn : Snapshot), s.phase = .busy sn →
    (¬ (1 ≤ s.regs.cmd.toNat % 256 ∧ s.regs.cmd.toNat % 256 ≤ 0x0B) ∨ s.regs.cmd.toNat / 2 ^ 25 ≠ 0 ∨
      (s.regs.cmd.toNat / 2 ^ 24 % 2 = 1 ∧ s.regs.cmd.toNat % 256 ≠ 0x0A)) →
    (s.inbox = [] →
      ∃ t, step s = .next t ∧ CompletedWith s t s.regs .illegal 0 0 0 ∧ t.dmem = s.dmem) ∧
    ∀ es, s.inbox = .core :: es →
      ∃ t, step s = .next t ∧ CompletedWith { s with inbox := es } t s.regs .illegal 0 0 0 ∧
        t.dmem = s.dmem

/-- R112, R344: a command with a nonzero selector completes with UNSUPPORTED, on any command, and has no
other effect. -/
def Obligations.UnregisteredSelectorIsUnsupported : Prop :=
  ∀ (i : Instr) (s : State) (sn : Snapshot), s.phase = .busy sn →
    (i.selectors.hsel ≠ 0 ∨ i.selectors.msel ≠ 0 ∨ i.selectors.csel ≠ 0 ∨ i.selectors.gsel ≠ 0) →
    ∃ t, exec i s = .next t ∧ CompletedWith s t s.regs .unsupported 0 0 0 ∧ t.dmem = s.dmem

/-- R348: with registered selectors, a MALFORMED cause gives MALFORMED; with none, an UNMATCHABLE cause
gives UNMATCHABLE; with neither, an ALLOC cause gives ALLOC; each with no other effect. -/
def Obligations.FailuresFollowThePrecedence : Prop :=
  ∀ (i : Instr) (s : State) (sn : Snapshot), s.phase = .busy sn → i.wellFormed = true →
    (MalformedCause s.cfg sn.regs i →
      ∃ t, exec i s = .next t ∧ CompletedWith s t s.regs .malformed 0 0 0 ∧ t.dmem = s.dmem) ∧
    (¬ MalformedCause s.cfg sn.regs i → UnmatchableCause sn.regs i →
      ∃ t, exec i s = .next t ∧ CompletedWith s t s.regs .unmatchable 0 0 0 ∧ t.dmem = s.dmem) ∧
    (¬ MalformedCause s.cfg sn.regs i → ¬ UnmatchableCause sn.regs i → AllocCause s.cfg sn.regs i →
      ∃ t, exec i s = .next t ∧ CompletedWith s t s.regs .alloc 0 0 0 ∧ t.dmem = s.dmem)

/-- R347: a command that completes with a code other than OK has changed nothing but STATUS and the RES_*
registers, which are 0. -/
def Obligations.FailureChangesNothingElse : Prop :=
  ∀ (i : Instr) (s t : State) (sn : Snapshot), s.phase = .busy sn → exec i s = .next t →
    t.phase = .idle → t.regs.code ≠ .ok →
    CompletedWith s t s.regs t.regs.code 0 0 0 ∧ t.dmem = s.dmem

/-- R348's table: the codes each command can return, by the mode for COMPUTE_PW. -/
def Obligations.CodesEachCommandReturns : Prop :=
  ∀ (i : Instr) (s t : State) (sn : Snapshot), s.phase = .busy sn → exec i s = .next t →
    t.phase = .idle → MayComplete sn.regs i t.regs.code

/-- R87: a command that has not completed shows nothing: the registers, DMEM, the snapshot and the host's
side are as they were. -/
def Obligations.UnfinishedCommandShowsNothing : Prop :=
  ∀ (i : Instr) (s t : State) (sn : Snapshot), s.phase = .busy sn → exec i s = .next t →
    t.phase ≠ .idle → t = { s with scratch := t.scratch }

/-- R85: no command writes DMEM outside `Region(DST_BASE, DST_CAP)`, and none changes an operand register,
CMD, IE, WIGN, TIME, DESC_ITER or the constraints. -/
def Obligations.CommandsWriteOnlyTheirDestination : Prop :=
  ∀ (i : Instr) (s t : State) (sn : Snapshot), s.dmem.wf → s.phase = .busy sn → exec i s = .next t →
    (∀ a, ¬ (dmemAddr sn.regs.dstBase.toNat ≤ a ∧
        a < dmemAddr sn.regs.dstBase.toNat + 8 * sn.regs.dstCap.toNat) →
      t.dmem.readByte a = s.dmem.readByte a) ∧
    t.regs = { s.regs with
      done := t.regs.done, code := t.regs.code, resLen := t.regs.resLen, resUnits := t.regs.resUnits
      resCount := t.regs.resCount, mode := t.regs.mode, nonce := t.regs.nonce
      counter := t.regs.counter, ctBase := t.regs.ctBase, ctLen := t.regs.ctLen, nb := t.regs.nb }

/-- No step of the machine stops: "a failure is therefore not a trap" (60_exceptions.md; log entry 14). -/
def Obligations.EveryStepAnswersNext : Prop := ∀ s : State, ∃ t, step s = .next t

/-! ### 40_sha512.md -/

/-- R169, R170: padding is the message, the word 1<<63, fewer than 16 zero words and the length word; its
length is padlen(n), the smallest multiple of 16 that holds n + 2 words. -/
def Obligations.PaddingShapeAndLength : Prop :=
  ∀ m : WordArray,
    (∃ z, z < 16 ∧ pad m = m ++ [0x8000000000000000] ++ List.replicate z 0 ++ [BitVec.ofNat 64 (64 * m.length)]) ∧
    (pad m).length = padLen m.length ∧ padLen m.length % 16 = 0 ∧ m.length + 2 ≤ padLen m.length ∧
    ∀ k, k % 16 = 0 → m.length + 2 ≤ k → padLen m.length ≤ k

/-- R172: the schedule of a 16-word block has 80 words, the first 16 the block's, each later one by the
recurrence. -/
def Obligations.ScheduleRecurrence : Prop :=
  ∀ b : WordArray, b.length = 16 →
    (schedule b).length = 80 ∧ (∀ t, t < 16 → (schedule b).getD t 0 = b.getD t 0) ∧
    ∀ t, 16 ≤ t → t < 80 → (schedule b).getD t 0 =
      smallSigma1 ((schedule b).getD (t - 2) 0) + (schedule b).getD (t - 7) 0 +
        smallSigma0 ((schedule b).getD (t - 15) 0) + (schedule b).getD (t - 16) 0

/-- R161-R166, R173: the word functions, and the compression: 80 rounds counted by t, each with T1, T2 and
the shift of the working variables, then the sum with the digest word by word. -/
def Obligations.CompressionRunsEightyRounds : Prop :=
  (∀ x : Word,
    bigSigma0 x = x.rotateRight 28 ^^^ x.rotateRight 34 ^^^ x.rotateRight 39 ∧
    bigSigma1 x = x.rotateRight 14 ^^^ x.rotateRight 18 ^^^ x.rotateRight 41 ∧
    smallSigma0 x = x.rotateRight 1 ^^^ x.rotateRight 8 ^^^ (x >>> 7) ∧
    smallSigma1 x = x.rotateRight 19 ^^^ x.rotateRight 61 ^^^ (x >>> 6)) ∧
  (∀ x y z : Word, ch x y z = (x &&& y) ^^^ (~~~x &&& z) ∧
    maj x y z = (x &&& y) ^^^ (x &&& z) ^^^ (y &&& z)) ∧
  ∀ h b : WordArray, h.length = 8 → b.length = 16 →
    ∃ u : Working,
      u = (List.range 80).foldl
        (fun v t =>
          let t1 := v.h + bigSigma1 v.e + ch v.e v.f v.g + roundConstants.getD t 0 + (schedule b).getD t 0
          let t2 := bigSigma0 v.a + maj v.a v.b v.c
          { a := t1 + t2, b := v.a, c := v.b, d := v.c, e := v.d + t1, f := v.e, g := v.f, h := v.g })
        { a := h.getD 0 0, b := h.getD 1 0, c := h.getD 2 0, d := h.getD 3 0
          e := h.getD 4 0, f := h.getD 5 0, g := h.getD 6 0, h := h.getD 7 0 } ∧
      compress h b = List.zipWith (· + ·) h [u.a, u.b, u.c, u.d, u.e, u.f, u.g, u.h]

/-- R174: the digest is the compression folded over the blocks `p[16i .. 16i+16)` of the padded message,
from IV on, and has 8 words. -/
def Obligations.DigestFoldsTheBlocks : Prop :=
  ∀ m : WordArray,
    sha512 m = (List.range ((pad m).length / 16)).foldl
      (fun h i => compress h (((pad m).drop (16 * i)).take 16)) initialHash ∧
    (sha512 m).length = 8

/-- R178: HASH writes the digest of its message at DST_BASE and RES_LEN = 8. -/
def Obligations.HashWritesTheDigest : Prop :=
  ∀ (s : State) (sn : Snapshot) (sel : Selectors), s.dmem.wf → s.phase = .busy sn →
    Runs s.cfg sn.regs (.hash sel) →
    ∃ t, exec (.hash sel) s = .next t ∧
      StoresExactly s.dmem t.dmem sn.regs.dstBase.toNat (sha512 sn.srca) ∧ (sha512 sn.srca).length = 8 ∧
      CompletedWith s t s.regs .ok 8 0 0

/-! ### 41_hmac.md -/

/-- R200, R201, R202, R204: a key of more than 16 words is hashed, and the key block is filled up to 16
words with zeros; the MAC is the hash of the outer pad and the hash of the inner pad and the message, 8
words; it depends on the key only through its key block, so zero words after a key that stays within a
block change nothing. -/
def Obligations.MacDependsOnlyOnTheKeyBlock : Prop :=
  (∀ k : WordArray, 16 < k.length → keyBlock k = sha512 k ++ List.replicate 8 0) ∧
  (∀ k : WordArray, k.length ≤ 16 → keyBlock k = k ++ List.replicate (16 - k.length) 0) ∧
  (∀ k m : WordArray, hmac k m =
    sha512 ((keyBlock k).map (· ^^^ 0x5c5c5c5c5c5c5c5c) ++
      sha512 ((keyBlock k).map (· ^^^ 0x3636363636363636) ++ m))) ∧
  (∀ k m : WordArray, (keyBlock k).length = 16 ∧ (hmac k m).length = 8) ∧
  (∀ k k' m : WordArray, keyBlock k = keyBlock k' → hmac k m = hmac k' m) ∧
    ∀ (k m : WordArray) (z : Nat), k.length + z ≤ 16 →
      keyBlock (k ++ List.replicate z 0) = keyBlock k ∧ hmac (k ++ List.replicate z 0) m = hmac k m

/-- R206: HMAC writes the MAC of its message under its key at DST_BASE and RES_LEN = 8. -/
def Obligations.HmacWritesTheMac : Prop :=
  ∀ (s : State) (sn : Snapshot) (sel : Selectors), s.dmem.wf → s.phase = .busy sn →
    Runs s.cfg sn.regs (.hmac sel) →
    ∃ t, exec (.hmac sel) s = .next t ∧
      StoresExactly s.dmem t.dmem sn.regs.dstBase.toNat (hmac sn.srca sn.srcb) ∧
      (hmac sn.srca sn.srcb).length = 8 ∧ CompletedWith s t s.regs .ok 8 0 0

/-! ### 42_stream_cipher.md -/

/-- R221, R223: word 8i+j of the output is word 8i+j of the message XOR word j of keystream i, where
keystream 0 is the hash of the key and each later one the hash of the last XOR the key; the cipher undoes
itself, keeps the length, and is a bijection on the arrays of each length. -/
def Obligations.CipherIsSelfInverse : Prop :=
  ∀ hk : WordArray, hk.length = 8 →
    (∀ ks : Nat → WordArray, ks 0 = sha512 hk →
      (∀ i, ks (i + 1) = sha512 (List.zipWith (· ^^^ ·) (ks i) hk)) →
      ∀ (m : WordArray) (i j : Nat), j < 8 → 8 * i + j < m.length →
        (ofb hk m).getD (8 * i + j) 0 = m.getD (8 * i + j) 0 ^^^ (ks i).getD j 0) ∧
    (∀ m, ofb hk (ofb hk m) = m ∧ (ofb hk m).length = m.length) ∧
      ∀ n, Set.BijOn (ofb hk) {m | m.length = n} {m | m.length = n}

/-- R226, R227: OFB_ENC and OFB_DEC write the cipher of their message at DST_BASE, as many words as the
message has, and RES_LEN says so. -/
def Obligations.OfbWritesTheCipher : Prop :=
  ∀ (s : State) (sn : Snapshot) (sel : Selectors) (i : Instr), (i = .ofbEnc sel ∨ i = .ofbDec sel) →
    s.dmem.wf → s.phase = .busy sn → Runs s.cfg sn.regs i →
    ∃ t, exec i s = .next t ∧
      StoresExactly s.dmem t.dmem sn.regs.dstBase.toNat (ofb sn.srca sn.srcb) ∧
      (ofb sn.srca sn.srcb).length = sn.regs.srcbLen.toNat ∧
      CompletedWith s t s.regs .ok sn.regs.srcbLen 0 0

/-! ### 43_generator.md -/

/-- R244: `Digits(N)` is the least d ≥ 1 with N^d ≥ 2^64 under MASK_NONZERO, one less under MASK_GE_N;
every word expands to so many units, whatever its value, and a candidate has eight times as many. R245: place
i of an expansion holds the alphabet's entry at digit i of the value, `(v / N^i) mod N`. R246: a candidate
is the expansions of the eight words of the MAC of its counter, in index order, and that MAC fits every
padded buffer. -/
def Obligations.DigitsPerWordIsLeastExponent : Prop :=
  (∀ c : Config, 32 ≤ c.padCapWords.toNat → hmacFits c 8 1 = true) ∧
  ∀ n, 2 ≤ n →
    1 ≤ digitsPerWord .maskNonzero n ∧ 2 ^ 64 ≤ n ^ digitsPerWord .maskNonzero n ∧
    (∀ e, 1 ≤ e → e < digitsPerWord .maskNonzero n → n ^ e < 2 ^ 64) ∧
    digitsPerWord .maskGeN n = digitsPerWord .maskNonzero n - 1 ∧
    ∀ (rule : DigitRule) (a : Text) (v : Word) (hk : WordArray), a.length = n →
      (expand rule a v).length = digitsPerWord rule n ∧
      (candidate rule hk v a).length = 8 * digitsPerWord rule n ∧
      (∀ i, i < digitsPerWord rule n → (expand rule a v).getD i 0 = a.getD (v.toNat / n ^ i % n) 0) ∧
      ∀ i j, i < 8 → j < digitsPerWord rule n →
        (candidate rule hk v a).getD (i * digitsPerWord rule n + j) 0 =
          (expand rule a ((hmac hk [v]).getD i 0)).getD j 0

/-- R247: the scan passes exactly where the candidate has at least DIGITS digits and CAPS capitals; mark i
is then set exactly where unit i is one of the first DIGITS digits or of the first CAPS capitals. R248: with
no maximal length, or with one the candidate does not exceed, it stays as it is; else the truncation fails
where fewer units than the excess are unmarked, and otherwise keeps, in order, the marked units and those
unmarked ones that have the whole excess of unmarked units before them. After a passing scan, with
matchable constraints, it does not fail. -/
def Obligations.TruncationNeverFails : Prop :=
  (∀ (c : Constraints) (s : Text),
    ((∃ marks, scan s c = some marks) ↔ c.digits ≤ s.countP isDigit ∧ c.caps ≤ s.countP isCap) ∧
    ∀ marks, scan s c = some marks → marks.length = s.length ∧
      ∀ i, i < s.length → (marks.getD i false = true ↔
        (isDigit (s.getD i 0) = true ∧ (s.take i).countP isDigit < c.digits) ∨
          (isCap (s.getD i 0) = true ∧ (s.take i).countP isCap < c.caps))) ∧
  (∀ (s : Text) (marks : List Bool) (maxlen : Nat), marks.length = s.length →
    truncateTo s marks maxlen =
      if maxlen = 0 ∨ s.length ≤ maxlen then some s
      else if marks.count false < s.length - maxlen then none
      else some (((List.range s.length).filter fun i =>
        marks.getD i false || decide (s.length - maxlen ≤ (marks.take i).count false)).map
          fun i => s.getD i 0)) ∧
  ∀ (c : Constraints) (s : Text) (marks : List Bool), scan s c = some marks →
    (c.maxlen ≠ 0 → c.caps + c.digits ≤ c.maxlen) → ∃ t, truncateTo s marks c.maxlen = some t

/-- R249: a counter passes where its candidate passes the scan and the truncation, which gives the password;
the search returns exactly the first counter, from ctr0 on and wrapping, that passes. -/
def Obligations.SearchReturnsTheFirstPassing : Prop :=
  (∀ (rule : DigitRule) (hk : WordArray) (c : Constraints) (ctr : Word) (t : Text),
    tryCounter rule hk c ctr = some t ↔
      ∃ marks, scan (candidate rule hk ctr (alphabet c)) c = some marks ∧
        truncateTo (candidate rule hk ctr (alphabet c)) marks c.maxlen = some t) ∧
  ∀ (rule : DigitRule) (hk : WordArray) (c : Constraints) (ctr0 ctr : Word) (t : Text),
    gen rule hk c ctr0 = some (t, ctr) ↔
      ∃ k, k < 2 ^ 64 ∧ ctr = ctr0 + BitVec.ofNat 64 k ∧ tryCounter rule hk c ctr = some t ∧
        ∀ j, j < k → tryCounter rule hk c (ctr0 + BitVec.ofNat 64 j) = none

/-- R250, R390: the search does not return exactly where no counter value passes, which is so where the
minimums exceed the candidate's length; GENERATE, and COMPUTE_PW in GENERATED mode, then stay BUSY through
every run without a reset. That a hopeless search is a core standing still is the model's form of it (log
entry 5). -/
def Obligations.HopelessSearchNeverCompletes : Prop :=
  (∀ (rule : DigitRule) (hk : WordArray) (c : Constraints) (ctr0 : Word),
    gen rule hk c ctr0 = none ↔ ∀ ctr, tryCounter rule hk c ctr = none) ∧
  (∀ (rule : DigitRule) (hk : WordArray) (c : Constraints) (ctr : Word),
    candidateLen rule (alphabet c).length < c.caps + c.digits → tryCounter rule hk c ctr = none) ∧
  ∀ (s t : State) (sn : Snapshot) (sel : Selectors) (i : Instr) (hk : WordArray) (k : Nat),
    s.phase = .busy sn → decode s.regs.cmd = .command i →
    ((i = .generate sel ∧ hk = sn.srca) ∨
      (i = .computePw sel ∧ sn.regs.mode = .generated ∧
        hk = derive sn.srca sn.srcb sn.regs.nonce sn.regs.iter)) →
    Runs s.cfg sn.regs i → (∀ ctr, tryCounter s.cfg.digitRule hk sn.constraints ctr = none) →
    Event.reset ∉ s.inbox → Steps k s t → t.phase = .busy sn

/-- R242: the alphabet is a-z, then 0-9, then A-Z with case, then the extra symbols in their order, and no
other entry; R123, R240: the extra symbols are the first DESC_XUNITS units from word DESC_XBASE of DMEM, and
the other constraints are their registers. R243: the digits and the capitals. R251, §8: a generated password
has Lout units, all from the alphabet, at least DIGITS of them digits and CAPS of them capitals. -/
def Obligations.PasswordMeetsTheConstraints : Prop :=
  (∀ (c : Constraints) (n : Nat),
    (n < 26 → (alphabet c).getD n 0 = BitVec.ofNat 16 (0x61 + n)) ∧
    (26 ≤ n → n < 36 → (alphabet c).getD n 0 = BitVec.ofNat 16 (0x30 + (n - 26))) ∧
    (c.caseSens = true → 36 ≤ n → n < 62 → (alphabet c).getD n 0 = BitVec.ofNat 16 (0x41 + (n - 36))) ∧
    (n < c.extra.length →
      (alphabet c).getD ((if c.caseSens then 62 else 36) + n) 0 = c.extra.getD n 0) ∧
    (alphabet c).length = (if c.caseSens then 62 else 36) + c.extra.length) ∧
  (∀ sn : Snapshot,
    sn.constraints.caseSens = sn.regs.caseSens ∧ sn.constraints.caps = sn.regs.caps.toNat ∧
    sn.constraints.digits = sn.regs.digits.toNat ∧ sn.constraints.maxlen = sn.regs.maxlen.toNat ∧
    sn.constraints.extra.length = sn.regs.xUnits.toNat ∧
    ∀ i k, k < 4 → 4 * i + k < sn.regs.xUnits.toNat →
      sn.constraints.extra.getD (4 * i + k) 0 =
        (sn.dmem.readWord (sn.regs.xBase.toNat + i)).extractLsb' (48 - 16 * k) 16) ∧
  (∀ u : CodeUnit, (isDigit u = true ↔ 0x30 ≤ u.toNat ∧ u.toNat ≤ 0x39) ∧
    (isCap u = true ↔ 0x41 ≤ u.toNat ∧ u.toNat ≤ 0x5A)) ∧
  (∀ (rule : DigitRule) (sn : Snapshot), outputLen rule sn.regs =
    if sn.regs.maxlen.toNat ≠ 0 ∧
        sn.regs.maxlen.toNat < 8 * digitsPerWord rule (alphabet sn.constraints).length then
      sn.regs.maxlen.toNat
    else 8 * digitsPerWord rule (alphabet sn.constraints).length) ∧
  ∀ (rule : DigitRule) (hk : WordArray) (sn : Snapshot) (t : Text) (ctr0 ctr : Word),
    gen rule hk sn.constraints ctr0 = some (t, ctr) →
    t.length = outputLen rule sn.regs ∧ (∀ u ∈ t, u ∈ alphabet sn.constraints) ∧
      sn.regs.digits.toNat ≤ t.countP isDigit ∧ sn.regs.caps.toNat ≤ t.countP isCap

/-- R252, R254, R255: where the search returns, GENERATE writes the password raw-encoded at DST_BASE and
the final counter to DESC_COUNTER. -/
def Obligations.GenerateWritesThePassword : Prop :=
  ∀ (s : State) (sn : Snapshot) (sel : Selectors) (p : Text) (ctr : Word), s.dmem.wf →
    s.phase = .busy sn → Runs s.cfg sn.regs (.generate sel) →
    gen s.cfg.digitRule sn.srca sn.constraints sn.regs.counter = some (p, ctr) →
    ∃ t, exec (.generate sel) s = .next t ∧
      StoresExactly s.dmem t.dmem sn.regs.dstBase.toNat (rawEncode p) ∧
      (rawEncode p).length = outputWords s.cfg.digitRule sn.regs ∧
      CompletedWith s t { s.regs with counter := ctr } .ok
        (BitVec.ofNat 64 (outputWords s.cfg.digitRule sn.regs))
        (BitVec.ofNat 64 (outputLen s.cfg.digitRule sn.regs)) 0

/-- R254: with CAPS = DIGITS = 0 the first candidate passes, so GENERATE, and COMPUTE_PW in GENERATED mode,
complete with the password of the counter the snapshot has, and leave DESC_COUNTER as the snapshot has it. -/
def Obligations.UnconstrainedGenerationCompletes : Prop :=
  ∀ (s : State) (sn : Snapshot) (sel : Selectors) (i : Instr) (hk : WordArray), s.dmem.wf →
    s.phase = .busy sn →
    ((i = .generate sel ∧ hk = sn.srca) ∨
      (i = .computePw sel ∧ sn.regs.mode = .generated ∧
        hk = derive sn.srca sn.srcb sn.regs.nonce sn.regs.iter)) →
    Runs s.cfg sn.regs i → sn.regs.caps = 0 → sn.regs.digits = 0 →
    ∃ t p, tryCounter s.cfg.digitRule hk sn.constraints sn.regs.counter = some p ∧
      exec i s = .next t ∧ StoresExactly s.dmem t.dmem sn.regs.dstBase.toNat (rawEncode p) ∧
      p.length = outputLen s.cfg.digitRule sn.regs ∧
      CompletedWith s t { s.regs with counter := sn.regs.counter } .ok
        (BitVec.ofNat 64 (outputWords s.cfg.digitRule sn.regs))
        (BitVec.ofNat 64 (outputLen s.cfg.digitRule sn.regs)) 0

/-! ### 44_key_derivation.md -/

/-- R280-R283: the initial key is the MAC, under the master password, of the service name, a zero word and
the nonce; the hashed key is the initial key hashed DESC_ITER times. R285: DERIVE_KEY writes the hashed key
of its operands, DESC_NONCE and DESC_ITER at DST_BASE, and no DESC_* register. -/
def Obligations.DeriveKeyWritesTheHashedKey : Prop :=
  (∀ (mp svc : WordArray) (nonce iters : Word),
    initialKey mp svc nonce = hmac mp (svc ++ [0, nonce]) ∧
    derive mp svc nonce iters = Nat.iterate sha512 iters.toNat (hmac mp (svc ++ [0, nonce]))) ∧
  ∀ (s : State) (sn : Snapshot) (sel : Selectors), s.dmem.wf → s.phase = .busy sn →
    Runs s.cfg sn.regs (.deriveKey sel) →
    ∃ t, exec (.deriveKey sel) s = .next t ∧
      StoresExactly s.dmem t.dmem sn.regs.dstBase.toNat
        (derive sn.srca sn.srcb sn.regs.nonce sn.regs.iter) ∧
      (derive sn.srca sn.srcb sn.regs.nonce sn.regs.iter).length = 8 ∧
      CompletedWith s t s.regs .ok 8 0 0

/-- R286, GENERATED: where the search returns, COMPUTE_PW writes the password of the derived key and the
final counter. -/
def Obligations.ComputePwGenerates : Prop :=
  ∀ (s : State) (sn : Snapshot) (sel : Selectors) (p : Text) (ctr : Word), s.dmem.wf →
    s.phase = .busy sn → Runs s.cfg sn.regs (.computePw sel) → sn.regs.mode = .generated →
    gen s.cfg.digitRule (derive sn.srca sn.srcb sn.regs.nonce sn.regs.iter) sn.constraints
      sn.regs.counter = some (p, ctr) →
    ∃ t, exec (.computePw sel) s = .next t ∧
      StoresExactly s.dmem t.dmem sn.regs.dstBase.toNat (rawEncode p) ∧
      (rawEncode p).length = outputWords s.cfg.digitRule sn.regs ∧
      CompletedWith s t { s.regs with counter := ctr } .ok
        (BitVec.ofNat 64 (outputWords s.cfg.digitRule sn.regs))
        (BitVec.ofNat 64 (outputLen s.cfg.digitRule sn.regs)) 0

/-- R286, ENCRYPTED: COMPUTE_PW writes the deciphered ciphertext and its raw-decoded length (R287;
`rawLen` is said by RawDecodeOfEncode), and changes no DESC_* register. -/
def Obligations.ComputePwDeciphers : Prop :=
  ∀ (s : State) (sn : Snapshot) (sel : Selectors) (p : WordArray), s.dmem.wf → s.phase = .busy sn →
    Runs s.cfg sn.regs (.computePw sel) → sn.regs.mode = .encrypted →
    p = ofb (derive sn.srca sn.srcb sn.regs.nonce sn.regs.iter) sn.ciphertext →
    ∃ t, exec (.computePw sel) s = .next t ∧
      StoresExactly s.dmem t.dmem sn.regs.dstBase.toNat p ∧ p.length = sn.regs.ctLen.toNat ∧
      CompletedWith s t s.regs .ok sn.regs.ctLen (BitVec.ofNat 64 (rawLen p)) 0

/-- R288: ENCRYPT_PW writes the cipher of the plaintext under the key of the nonce, one more in ENCRYPTED
mode, and the descriptor then names it. -/
def Obligations.EncryptPwStoresTheCiphertext : Prop :=
  ∀ (s : State) (sn : Snapshot) (sel : Selectors) (nonce : Word), s.dmem.wf → s.phase = .busy sn →
    Runs s.cfg sn.regs (.encryptPw sel) →
    nonce = (if sn.regs.mode = .encrypted then sn.regs.nonce + 1 else sn.regs.nonce) →
    ∃ t, exec (.encryptPw sel) s = .next t ∧
      StoresExactly s.dmem t.dmem sn.regs.dstBase.toNat
        (ofb (derive sn.srca sn.srcb nonce sn.regs.iter) sn.srcc) ∧
      (ofb (derive sn.srca sn.srcb nonce sn.regs.iter) sn.srcc).length = sn.regs.srccLen.toNat ∧
      CompletedWith s t { s.regs with
          nonce := nonce, ctBase := sn.regs.dstBase, ctLen := sn.regs.srccLen, mode := .encrypted
          nb := false } .ok sn.regs.srccLen 0 0

/-- R286, R288, §8: what ENCRYPT_PW stored, COMPUTE_PW gives back, from the same master password and
service name, into any destination. -/
def Obligations.EncryptThenComputeGivesThePlaintext : Prop :=
  ∀ (s t : State) (sn : Snapshot) (sel sel' : Selectors) (b cap : Word), Inv s → s.phase = .busy sn →
    Runs s.cfg sn.regs (.encryptPw sel) → exec (.encryptPw sel) s = .next t → sel'.registered = true →
    (sn.regs.dstBase.toNat + sn.regs.srccLen.toNat ≤ sn.regs.srcaBase.toNat ∨
      sn.regs.srcaBase.toNat + sn.regs.srcaLen.toNat ≤ sn.regs.dstBase.toNat) →
    (sn.regs.dstBase.toNat + sn.regs.srccLen.toNat ≤ sn.regs.srcbBase.toNat ∨
      sn.regs.srcbBase.toNat + sn.regs.srcbLen.toNat ≤ sn.regs.dstBase.toNat) →
    ¬ Outside s.cfg b sn.regs.srccLen.toNat → sn.regs.srccLen.toNat ≤ cap.toNat →
    ∃ u, exec (.computePw sel') (accept (encode (.computePw sel'))
        { t with regs := { t.regs with dstBase := b, dstCap := cap } }) = .next u ∧
      u.phase = .idle ∧ u.regs.code = .ok ∧ memRead u.dmem b.toNat sn.regs.srccLen.toNat = sn.srcc ∧
      u.regs.resUnits = BitVec.ofNat 64 (rawLen sn.srcc)

/-- R289, R290: BENCHMARK enters its loop with the initial key, t0 = TIME and n = 0, and with a budget of
0 completes at once with count 0; each later step tests the elapsed time and either re-hashes and counts
one, or completes with the count. That the loop is seen step by step is the model's choice (log entry 6). -/
def Obligations.BenchmarkLoop : Prop :=
  ∀ (s : State) (sn : Snapshot) (sel : Selectors), s.phase = .busy sn →
    Runs s.cfg sn.regs (.benchmark sel) →
    (s.scratch.benchRunning = false → sn.regs.benchBudget = 0 →
      ∃ t, exec (.benchmark sel) s = .next t ∧ CompletedWith s t s.regs .ok 0 0 0 ∧ t.dmem = s.dmem) ∧
    (s.scratch.benchRunning = false → sn.regs.benchBudget ≠ 0 →
      exec (.benchmark sel) s = .next { s with scratch := { s.scratch with
        initialKey := initialKey sn.srca sn.srcb sn.regs.nonce
        benchRunning := true, benchStart := s.regs.time, benchCount := 0 } }) ∧
    (s.scratch.benchRunning = true →
      (s.regs.time - s.scratch.benchStart).toNat < sn.regs.benchBudget.toNat →
      exec (.benchmark sel) s = .next { s with scratch := { s.scratch with
        initialKey := sha512 s.scratch.initialKey, benchCount := s.scratch.benchCount + 1 } }) ∧
    (s.scratch.benchRunning = true →
      sn.regs.benchBudget.toNat ≤ (s.regs.time - s.scratch.benchStart).toNat →
      ∃ t, exec (.benchmark sel) s = .next t ∧
        CompletedWith s t s.regs .ok 0 0 s.scratch.benchCount ∧ t.dmem = s.dmem)

/-- R289, D32, I9: for a budget above 0 the count is any number: for every n some order of core steps and
ticks makes BENCHMARK complete with n (the order is an inbox of the model's: log entries 4 and 6). -/
def Obligations.BenchmarkCountIsADraw : Prop :=
  ∀ (s : State) (sn : Snapshot) (sel : Selectors) (n : Nat), s.phase = .busy sn →
    decode s.regs.cmd = .command (.benchmark sel) → Runs s.cfg sn.regs (.benchmark sel) →
    s.scratch.benchRunning = false → sn.regs.benchBudget ≠ 0 →
    ∃ es k t, Steps k { s with inbox := es } t ∧ t.phase = .idle ∧ t.regs.code = .ok ∧
      t.regs.resCount = BitVec.ofNat 64 n

/-! ### 45_descriptor.md -/

/-- R322: SET_MODE with a target equal to the mode changes no DESC_* register; leaving ENCRYPTED clears
the ciphertext registers and NB and adds 1 to the nonce unless NB was set; entering ENCRYPTED fails with
MALFORMED. -/
def Obligations.SetModeFollowsRule322 : Prop :=
  ∀ (s : State) (sn : Snapshot) (sel : Selectors) (target : Mode), s.phase = .busy sn →
    sel.registered = true →
    ∃ t, exec (.setMode sel target) s = .next t ∧ t.dmem = s.dmem ∧
      (target = sn.regs.mode → CompletedWith s t s.regs .ok 0 0 0) ∧
      (target = .generated → sn.regs.mode = .encrypted →
        CompletedWith s t { s.regs with
          nonce := (if sn.regs.nb then sn.regs.nonce else sn.regs.nonce + 1)
          mode := .generated, ctBase := 0, ctLen := 0, nb := false } .ok 0 0 0) ∧
      (target = .encrypted → sn.regs.mode = .generated → CompletedWith s t s.regs .malformed 0 0 0)

/-- R323: BUMP_NONCE adds 1 to the nonce modulo 2^64, and sets NB in ENCRYPTED mode. -/
def Obligations.BumpNonceFollowsRule323 : Prop :=
  ∀ (s : State) (sn : Snapshot) (sel : Selectors), s.phase = .busy sn → sel.registered = true →
    ∃ t, exec (.bumpNonce sel) s = .next t ∧ t.dmem = s.dmem ∧
      t.regs.nonce.toNat = (sn.regs.nonce.toNat + 1) % 2 ^ 64 ∧
      CompletedWith s t { s.regs with
        nonce := t.regs.nonce
        nb := (if sn.regs.mode = .encrypted then true else s.regs.nb) } .ok 0 0 0

/-- R320's table, over all commands: what a command that has completed has done to the nonce and NB. A
failing one has changed neither, and entering ENCRYPTED by SET_MODE fails with MALFORMED. -/
def Obligations.NonceRuleTable : Prop :=
  ∀ (i : Instr) (s t : State) (sn : Snapshot), s.phase = .busy sn →
    sn.regs.descriptor = s.regs.descriptor → exec i s = .next t → t.phase = .idle →
    (t.regs.code ≠ .ok → t.regs.nonce = s.regs.nonce ∧ t.regs.nb = s.regs.nb) ∧
    (∀ sel, i = .setMode sel .encrypted → s.regs.mode = .generated → sel.registered = true →
      t.regs.code = .malformed) ∧
    (t.regs.code = .ok →
      match i, s.regs.mode with
      | .encryptPw _, .encrypted => t.regs.nonce = s.regs.nonce + 1 ∧ t.regs.nb = false
      | .encryptPw _, .generated => t.regs.nonce = s.regs.nonce ∧ t.regs.nb = false
      | .setMode _ .generated, .encrypted =>
        t.regs.nonce = (if s.regs.nb then s.regs.nonce else s.regs.nonce + 1) ∧ t.regs.nb = false
      | .setMode _ .generated, .generated => t.regs.nonce = s.regs.nonce ∧ t.regs.nb = s.regs.nb
      | .setMode _ .encrypted, .encrypted => t.regs.nonce = s.regs.nonce ∧ t.regs.nb = s.regs.nb
      | .setMode _ .encrypted, .generated => False
      | .bumpNonce _, .encrypted => t.regs.nonce = s.regs.nonce + 1 ∧ t.regs.nb = true
      | .bumpNonce _, .generated => t.regs.nonce = s.regs.nonce + 1 ∧ t.regs.nb = s.regs.nb
      | _, _ => t.regs.nonce = s.regs.nonce ∧ t.regs.nb = s.regs.nb)

/-- R325: over the life of a descriptor whose registers change only through commands and whose nonce does
not wrap, every ENCRYPT_PW uses a nonce strictly greater than every earlier one, so no two MAC inputs
`SERVICE_NONCE(svc, nonce)` of one service are equal. R325's "keystream_0 input" is read so, as the input of
the MAC that gives the key: this is the model's reading (log entry 18), because that two keys differ is no
theorem (R291 (b)). -/
def Obligations.NoncesStrictlyGrow : Prop :=
  ∀ (used : List Nat) (d : Descriptor), DescriptorLife used d →
    used.Pairwise (· > ·) ∧
      ∀ svc : WordArray, (used.map fun n => serviceNonce svc (BitVec.ofNat 64 n)).Nodup

/-! ### 70_reset_and_hazards.md and the machine as a whole -/

/-- R380, R381: a reset, in either phase, leaves every register at its reset value, every DMEM byte 0,
zero scratch, IDLE and IRQ low; the command in progress writes nothing. That the events still to come and
the values already read stay is the model's choice (log entry 4). -/
def Obligations.ResetRestoresEverything : Prop :=
  ∀ (s : State) (es : List Event), s.inbox = .reset :: es →
    ∃ t, step s = .next t ∧ t.phase = .idle ∧ (∀ r, readReg t r = resetValue s.cfg r) ∧
      (∀ a, t.dmem.readByte a = 0) ∧ t.scratch = Scratch.zero ∧ t.irq = false ∧
      t.cfg = s.cfg ∧ t.inbox = es ∧ t.observed = s.observed

/-- The state after reset meets the invariant, for every instance. -/
def Obligations.ResetMeetsTheInvariant : Prop := (∀ c : Config, Inv (State.resetOf c)) ∧ Inv State.reset

/-- R67, R86, R349: every step keeps the invariant: canonical memory inside the window, zero scratch while
IDLE, and while BUSY a snapshot equal to the page and DMEM. -/
def Obligations.StepKeepsTheInvariant : Prop :=
  ∀ s t : State, Inv s → step s = .next t → Inv t

/-- R30, R33-R37: no step changes a constant of the instance; ID and CFG_* read them in every state. -/
def Obligations.ConstantsNeverChange : Prop :=
  ∀ s t : State, step s = .next t →
    t.cfg = s.cfg ∧ readReg t .id = 0x4841534849534801 ∧ readReg t .cfgDmem = s.cfg.dmemWords ∧
      readReg t .cfgPad = s.cfg.padCapWords ∧ readReg t .cfgAlpha = s.cfg.alphaCap ∧
      readReg t .cfgTick = s.cfg.timebaseHz

/-- R67, R68: what the scratch holds when a command starts reaches no result: two cores that differ in
their scratch alone, neither inside BENCHMARK's loop, complete in the same state (log entry 7). -/
def Obligations.ScratchReachesNoResult : Prop :=
  ∀ (i : Instr) (s t : State) (sn : Snapshot) (sc : Scratch), s.phase = .busy sn →
    s.scratch.benchRunning = false → sc.benchRunning = false → exec i s = .next t → t.phase = .idle →
    exec i { s with scratch := sc } = .next t

/-- R87, R90: a host read changes nothing but the observation; no event of the host's changes an
observation already made (the observation is the model's own field: log entry 4). -/
def Obligations.ObservationsOnlyGrow : Prop :=
  (∀ (s : State) (width addr : Nat) (es : List Event), s.inbox = .read width addr :: es →
    ∃ v, step s = .next { s with inbox := es, observed := s.observed ++ [v] }) ∧
  ∀ s t : State, step s = .next t → s.observed <+: t.observed
end

