-- ==== Sys2Proof/Laws/Memory.lean ====
section
/-! SUPPORT. The laws of DMEM: what a byte, word or region reads after a write, that every memory
operation keeps the canonical form and the DMEM window, and that the canonical form determines the list. -/

namespace Sys2Proof.Machine

theorem Memory.wf_cons {k : Nat} {c : Byte} {m : Memory} :
    Memory.wf ((k, c) :: m) ↔ (∀ x ∈ m, k < x.1) ∧ c ≠ Memory.unlisted ∧ Memory.wf m := by
  simp only [Memory.wf, List.map_cons, List.pairwise_cons, List.mem_map, List.mem_cons]
  constructor
  · rintro ⟨⟨h1, h2⟩, h3⟩
    exact ⟨fun x hx => h1 _ ⟨x, hx, rfl⟩, h3 _ (.inl rfl), h2, fun x hx => h3 x (.inr hx)⟩
  · rintro ⟨h1, h2, h3, h4⟩
    refine ⟨⟨?_, h3⟩, ?_⟩
    · rintro _ ⟨x, hx, rfl⟩
      exact h1 x hx
    · rintro x (rfl | hx)
      · exact h2
      · exact h4 x hx

theorem Memory.wf_nil : Memory.wf [] := by simp [Memory.wf]

@[simp] theorem Memory.readByte_nil (a : Nat) : Memory.readByte [] a = Memory.unlisted := rfl

theorem Memory.readByte_cons (k : Nat) (c : Byte) (m : Memory) (a : Nat) :
    Memory.readByte ((k, c) :: m) a = if k = a then c else m.readByte a := rfl

/-- An address below every listed one is unlisted. -/
theorem Memory.readByte_below {m : Memory} {a : Nat} (h : ∀ x ∈ m, a < x.1) :
    m.readByte a = Memory.unlisted := by
  induction m with
  | nil => rfl
  | cons p m ih =>
    obtain ⟨k, c⟩ := p
    have hk : a < k := h (k, c) (by simp)
    rw [Memory.readByte_cons, if_neg (by omega)]
    exact ih fun x hx => h x (by simp [hx])

theorem Memory.readByte_consCell (a : Nat) (b : Byte) (m : Memory) (x : Nat)
    (h : m.readByte a = Memory.unlisted) :
    (Memory.consCell a b m).readByte x = if a = x then b else m.readByte x := by
  unfold Memory.consCell
  split
  · next hb =>
    subst hb
    split
    · next hx => rw [← hx, h]
    · rfl
  · rfl

/-- A byte after a write of one byte. -/
theorem Memory.readByte_writeByte {m : Memory} (h : m.wf) (a : Nat) (b : Byte) (x : Nat) :
    (m.writeByte a b).readByte x = if a = x then b else m.readByte x := by
  induction m with
  | nil => exact Memory.readByte_consCell a b [] x rfl
  | cons p m ih =>
    obtain ⟨k, c⟩ := p
    obtain ⟨hk, _, hm⟩ := Memory.wf_cons.1 h
    unfold Memory.writeByte
    split
    · next hak =>
      refine Memory.readByte_consCell a b _ x (Memory.readByte_below fun y hy => ?_)
      rcases List.mem_cons.1 hy with rfl | hy
      · exact hak
      · exact Nat.lt_trans hak (hk y hy)
    · split
      · next hak =>
        subst hak
        rw [Memory.readByte_consCell _ _ _ _ (Memory.readByte_below hk), Memory.readByte_cons]
        split <;> rfl
      · next hak =>
        rw [Memory.readByte_cons, ih hm, Memory.readByte_cons]
        split
        · next hkx => rw [if_neg (by omega)]
        · rfl

theorem Memory.mem_consCell {a : Nat} {b : Byte} {m : Memory} {x : Host.Cell}
    (h : x ∈ Memory.consCell a b m) : x.1 = a ∨ x ∈ m := by
  unfold Memory.consCell at h
  split at h
  · exact .inr h
  · rcases List.mem_cons.1 h with rfl | h
    · exact .inl rfl
    · exact .inr h

/-- A write lists no address but its own. -/
theorem Memory.mem_writeByte {m : Memory} {a : Nat} {b : Byte} {x : Host.Cell}
    (h : x ∈ m.writeByte a b) : x.1 = a ∨ x ∈ m := by
  induction m with
  | nil => exact Memory.mem_consCell h
  | cons p m ih =>
    obtain ⟨k, c⟩ := p
    unfold Memory.writeByte at h
    split at h
    · exact Memory.mem_consCell h
    · split at h
      · exact (Memory.mem_consCell h).imp_right (List.mem_cons_of_mem _)
      · rcases List.mem_cons.1 h with rfl | h
        · exact .inr (by simp)
        · exact (ih h).imp_right (List.mem_cons_of_mem _)

theorem Memory.wf_consCell {a : Nat} {b : Byte} {m : Memory} (h : m.wf) (ha : ∀ x ∈ m, a < x.1) :
    (Memory.consCell a b m).wf := by
  unfold Memory.consCell
  split
  · exact h
  · next hb => exact Memory.wf_cons.2 ⟨ha, hb, h⟩

/-- A write of one byte keeps the canonical form. -/
theorem Memory.wf_writeByte {m : Memory} (h : m.wf) (a : Nat) (b : Byte) : (m.writeByte a b).wf := by
  induction m with
  | nil => exact Memory.wf_consCell Memory.wf_nil (by simp)
  | cons p m ih =>
    obtain ⟨k, c⟩ := p
    obtain ⟨hk, hc, hm⟩ := Memory.wf_cons.1 h
    unfold Memory.writeByte
    split
    · next hak =>
      refine Memory.wf_consCell h fun y hy => ?_
      rcases List.mem_cons.1 hy with rfl | hy
      · exact hak
      · exact Nat.lt_trans hak (hk y hy)
    · split
      · next hak => subst hak; exact Memory.wf_consCell hm hk
      · refine Memory.wf_cons.2 ⟨fun x hx => ?_, hc, ih hm⟩
        rcases Memory.mem_writeByte hx with rfl | hx
        · omega
        · exact hk x hx

/-- A write of consecutive bytes keeps the canonical form. -/
theorem Memory.wf_writeBytes {m : Memory} (h : m.wf) (a : Nat) (bs : List Byte) :
    (m.writeBytes a bs).wf := by
  induction bs generalizing m a with
  | nil => exact h
  | cons b bs ih => exact ih (Memory.wf_writeByte h a b) (a + 1)

/-- A byte after a write of consecutive bytes. -/
theorem Memory.readByte_writeBytes {m : Memory} (h : m.wf) (a : Nat) (bs : List Byte) (x : Nat) :
    (m.writeBytes a bs).readByte x =
      if a ≤ x ∧ x < a + bs.length then bs.getD (x - a) 0 else m.readByte x := by
  induction bs generalizing m a with
  | nil =>
    rw [if_neg (by simp)]
    rfl
  | cons b bs ih =>
    show ((m.writeByte a b).writeBytes (a + 1) bs).readByte x = _
    rw [ih (Memory.wf_writeByte h a b), Memory.readByte_writeByte h]
    by_cases hx : a = x
    · subst hx
      simp
    · by_cases hin : a ≤ x ∧ x < a + (b :: bs).length
      · rw [if_pos hin, if_pos (by simp at hin ⊢; omega)]
        obtain ⟨d, rfl⟩ : ∃ d, x = a + 1 + d := ⟨x - (a + 1), by omega⟩
        simp [show a + 1 + d - a = d + 1 by omega]
      · rw [if_neg hin, if_neg (by simp at hin ⊢; omega), if_neg hx]

/-- A write of consecutive bytes lists no address outside them. -/
theorem Memory.mem_writeBytes {m : Memory} {a : Nat} {bs : List Byte} {x : Host.Cell}
    (h : x ∈ m.writeBytes a bs) : (a ≤ x.1 ∧ x.1 < a + bs.length) ∨ x ∈ m := by
  induction bs generalizing m a with
  | nil => exact .inr h
  | cons b bs ih =>
    rcases ih (m := m.writeByte a b) (a := a + 1) h with ⟨h1, h2⟩ | h
    · exact .inl ⟨by omega, by simp; omega⟩
    · rcases Memory.mem_writeByte h with h | h
      · exact .inl ⟨by omega, by simp; omega⟩
      · exact .inr h

/-! ### Words -/

@[simp] theorem wordBytes_length (v : Word) : (wordBytes v).length = 8 := rfl

/-- A word is its bytes. -/
theorem wordOfBytes_wordBytes (v : Word) :
    wordOfBytes ((wordBytes v).getD 0 0) ((wordBytes v).getD 1 0) ((wordBytes v).getD 2 0)
      ((wordBytes v).getD 3 0) ((wordBytes v).getD 4 0) ((wordBytes v).getD 5 0)
      ((wordBytes v).getD 6 0) ((wordBytes v).getD 7 0) = v := by
  apply BitVec.eq_of_getLsbD_eq
  intro i hi
  simp only [wordOfBytes, wordBytes, List.getD_cons_zero, List.getD_cons_succ, BitVec.getLsbD_append,
    BitVec.getLsbD_extractLsb']
  repeat' split
  all_goals
    rw [decide_eq_true (by omega), Bool.true_and]
    congr 1
    omega

@[simp] theorem flatMap_wordBytes_length (ws : WordArray) : (ws.flatMap wordBytes).length = 8 * ws.length := by
  induction ws with
  | nil => rfl
  | cons w ws ih => simp [List.flatMap_cons, ih]; omega

/-- The bytes of a word array, by word and place. -/
theorem flatMap_wordBytes_getD (ws : WordArray) (i k : Nat) (hi : i < ws.length) (hk : k < 8) :
    (ws.flatMap wordBytes).getD (8 * i + k) 0 = (wordBytes (ws.getD i 0)).getD k 0 := by
  induction ws generalizing i with
  | nil => simp at hi
  | cons w ws ih =>
    rw [List.flatMap_cons]
    cases i with
    | zero =>
      rw [List.getD_append _ _ _ _ (by simp; omega)]
      simp
    | succ i =>
      rw [List.getD_append_right _ _ _ _ (by simp; omega)]
      rw [wordBytes_length, show 8 * (i + 1) + k - 8 = 8 * i + k by omega,
        ih i (by simpa using hi)]
      simp

/-- `MemWrite` keeps the canonical form. -/
theorem memWrite_wf {m : Memory} (h : m.wf) (a : Nat) (v : WordArray) : (memWrite m a v).wf :=
  Memory.wf_writeBytes h _ _

/-- A byte after `MemWrite`. -/
theorem readByte_memWrite {m : Memory} (h : m.wf) (a : Nat) (v : WordArray) (x : Nat) :
    (memWrite m a v).readByte x =
      if dmemAddr a ≤ x ∧ x < dmemAddr a + 8 * v.length then
        (v.flatMap wordBytes).getD (x - dmemAddr a) 0 else m.readByte x := by
  rw [memWrite, Memory.readByte_writeBytes h, flatMap_wordBytes_length]

/-- A byte outside the words written is unchanged. -/
theorem readByte_memWrite_outside {m : Memory} (h : m.wf) (a : Nat) (v : WordArray) {x : Nat}
    (hx : ¬ (dmemAddr a ≤ x ∧ x < dmemAddr a + 8 * v.length)) :
    (memWrite m a v).readByte x = m.readByte x := by
  rw [readByte_memWrite h, if_neg hx]

/-- A word written reads back. -/
theorem readWord_memWrite_inside {m : Memory} (h : m.wf) (a : Nat) (v : WordArray) {j : Nat}
    (h1 : a ≤ j) (h2 : j < a + v.length) : (memWrite m a v).readWord j = v.getD (j - a) 0 := by
  have key : ∀ k, k < 8 → (memWrite m a v).readByte (dmemAddr j + k) =
      (wordBytes (v.getD (j - a) 0)).getD k 0 := by
    intro k hk
    rw [readByte_memWrite h, if_pos (by simp only [dmemAddr]; omega),
      show dmemAddr j + k - dmemAddr a = 8 * (j - a) + k by simp only [dmemAddr]; omega,
      flatMap_wordBytes_getD _ _ _ (by omega) hk]
  have h0 := key 0 (by omega)
  rw [Nat.add_zero] at h0
  rw [Memory.readWord, h0, key 1 (by omega), key 2 (by omega), key 3 (by omega), key 4 (by omega),
    key 5 (by omega), key 6 (by omega), key 7 (by omega)]
  exact wordOfBytes_wordBytes _

/-- A word outside those written is unchanged. -/
theorem readWord_memWrite_outside {m : Memory} (h : m.wf) (a : Nat) (v : WordArray) {j : Nat}
    (hj : ¬ (a ≤ j ∧ j < a + v.length)) : (memWrite m a v).readWord j = m.readWord j := by
  have key : ∀ k, k < 8 → (memWrite m a v).readByte (dmemAddr j + k) = m.readByte (dmemAddr j + k) :=
    fun k hk => readByte_memWrite_outside h a v (by simp only [dmemAddr]; omega)
  have h0 := key 0 (by omega)
  rw [Nat.add_zero] at h0
  rw [Memory.readWord, h0, key 1 (by omega), key 2 (by omega), key 3 (by omega), key 4 (by omega),
    key 5 (by omega), key 6 (by omega), key 7 (by omega)]
  rfl

@[simp] theorem memRead_length (m : Memory) (a n : Nat) : (memRead m a n).length = n := by
  induction n generalizing a with
  | zero => rfl
  | succ n ih => simp [memRead, ih]

/-- Two memories whose words agree over a region read the same there. -/
theorem memRead_congr {m m' : Memory} {a n : Nat}
    (h : ∀ j, a ≤ j → j < a + n → m'.readWord j = m.readWord j) : memRead m' a n = memRead m a n := by
  induction n generalizing a with
  | zero => rfl
  | succ n ih =>
    rw [memRead, memRead, h a (by omega) (by omega), ih fun j h1 h2 => h j (by omega) (by omega)]

/-- What was written reads back. -/
theorem memRead_memWrite_same {m : Memory} (h : m.wf) (a : Nat) (v : WordArray) :
    memRead (memWrite m a v) a v.length = v := by
  have gen : ∀ (pre post : WordArray), v = pre ++ post →
      memRead (memWrite m a v) (a + pre.length) post.length = post := by
    intro pre post
    induction post generalizing pre with
    | nil => intro _; rfl
    | cons w post ih =>
      intro hv
      have hw : (memWrite m a v).readWord (a + pre.length) = w := by
        rw [readWord_memWrite_inside h a v (by omega) (by rw [hv]; simp), hv]
        simp
      have := ih (pre ++ [w]) (by simp [hv])
      rw [List.length_append, List.length_singleton, ← Nat.add_assoc] at this
      rw [List.length_cons, memRead, hw, this]
  simpa using gen [] v rfl

/-- A region that no written word lies in reads as before. -/
theorem memRead_memWrite_disjoint {m : Memory} (h : m.wf) (a : Nat) (v : WordArray) {b n : Nat}
    (hd : b + n ≤ a ∨ a + v.length ≤ b) : memRead (memWrite m a v) b n = memRead m b n :=
  memRead_congr fun _ _ _ => readWord_memWrite_outside h a v (by omega)

/-! ### The canonical form determines the list -/

/-- Two memories in canonical form that read the same at every address are the same list. -/
theorem Memory.wf_ext {m m' : Memory} (h : m.wf) (h' : m'.wf)
    (same : ∀ a, m.readByte a = m'.readByte a) : m = m' := by
  induction m generalizing m' with
  | nil =>
    cases m' with
    | nil => rfl
    | cons p m' =>
      obtain ⟨k, c⟩ := p
      have := same k
      rw [Memory.readByte_cons, if_pos rfl] at this
      exact absurd this.symm (Memory.wf_cons.1 h').2.1
  | cons p m ih =>
    obtain ⟨k, c⟩ := p
    obtain ⟨hk, hc, hm⟩ := Memory.wf_cons.1 h
    cases m' with
    | nil =>
      have := same k
      rw [Memory.readByte_cons, if_pos rfl] at this
      exact absurd this hc
    | cons p' m' =>
      obtain ⟨k', c'⟩ := p'
      obtain ⟨hk', hc', hm'⟩ := Memory.wf_cons.1 h'
      have e1 := same k
      have e2 := same k'
      simp only [Memory.readByte_cons, if_pos] at e1 e2
      have hkk : k = k' := by
        rcases Nat.lt_trichotomy k k' with hlt | heq | hgt
        · rw [if_neg (by omega), Memory.readByte_below fun x hx => Nat.lt_trans hlt (hk' x hx)] at e1
          exact absurd e1 hc
        · exact heq
        · rw [if_neg (by omega), Memory.readByte_below fun x hx => Nat.lt_trans hgt (hk x hx)] at e2
          exact absurd e2.symm hc'
      subst hkk
      rw [if_pos rfl] at e1
      subst e1
      rw [ih hm hm' fun a => ?_]
      have := same a
      simp only [Memory.readByte_cons] at this
      by_cases ha : k = a
      · subst ha
        rw [Memory.readByte_below hk, Memory.readByte_below hk']
      · rwa [if_neg ha, if_neg ha] at this

end Sys2Proof.Machine
end

