-- ==== Sys2Proof/Laws/Crypto.lean ====
section
/-! SUPPORT. The lengths of what the hash, MAC, cipher and derivation functions give. -/

namespace Sys2Proof.Machine

/-- The table of R167 has 80 constants. -/
@[simp] theorem roundConstants_length : roundConstants.length = 80 := by decide

@[simp] theorem initialHash_length : initialHash.length = 8 := rfl

@[simp] theorem compress_length (hs block : WordArray) : (compress hs block).length = 8 := rfl

theorem compressBlocks_length {n : Nat} {hs p : WordArray} (h : hs.length = 8) :
    (compressBlocks n hs p).length = 8 := by
  induction n generalizing hs p with
  | zero => exact h
  | succ n ih => exact ih (compress_length hs (p.take 16))

/-- A digest has 8 words (R174). -/
@[simp] theorem sha512_length (m : WordArray) : (sha512 m).length = 8 :=
  compressBlocks_length initialHash_length

/-- A MAC has 8 words (R202). -/
@[simp] theorem hmac_length (k m : WordArray) : (hmac k m).length = 8 := sha512_length _

@[simp] theorem initialKey_length (mp svc : WordArray) (nonce : Word) :
    (initialKey mp svc nonce).length = 8 := hmac_length _ _

theorem stretch_length {n : Nat} {hk : WordArray} (h : hk.length = 8) : (stretch n hk).length = 8 := by
  induction n generalizing hk with
  | zero => exact h
  | succ n ih => exact ih (sha512_length hk)

/-- A derived key has 8 words (R283). -/
@[simp] theorem derive_length (mp svc : WordArray) (nonce iters : Word) :
    (derive mp svc nonce iters).length = 8 := stretch_length (initialKey_length mp svc nonce)

theorem ceilDiv_zero {b : Nat} (hb : 0 < b) : ceilDiv 0 b = 0 := by
  simp [ceilDiv]; omega

/-- Eight words more make one block more. -/
theorem ceilDiv_eight_add (n : Nat) : ceilDiv (8 + n) 8 = ceilDiv n 8 + 1 := by
  simp only [ceilDiv]; omega

@[simp] theorem xorWords_length (a b : WordArray) : (xorWords a b).length = min a.length b.length := by
  simp [xorWords]

@[simp] theorem nextKeystream_length (hk ks : WordArray) : (nextKeystream hk ks).length = 8 :=
  sha512_length _

/-- Blocks enough for the message cover it: the cipher keeps the length. -/
theorem ofbBlocks_length {hk : WordArray} {n : Nat} {ks m : WordArray} (hks : ks.length = 8)
    (hn : m.length ≤ 8 * n) : (ofbBlocks hk n ks m).length = m.length := by
  induction n generalizing ks m with
  | zero => simp [ofbBlocks]; omega
  | succ n ih =>
    rw [ofbBlocks, List.length_append, ih (nextKeystream_length hk ks) (by simp; omega)]
    simp [hks]; omega

/-- The cipher keeps the length (R223). -/
@[simp] theorem ofb_length (hk m : WordArray) : (ofb hk m).length = m.length :=
  ofbBlocks_length (sha512_length hk) (by simp only [ceilDiv]; omega)

/-- XOR with the same words twice gives the words back. -/
theorem xorWords_xorWords {a b : WordArray} (h : a.length ≤ b.length) :
    xorWords (xorWords a b) b = a := by
  induction a generalizing b with
  | nil => rfl
  | cons x a ih =>
    cases b with
    | nil => simp at h
    | cons y b =>
      have := ih (b := b) (by simpa using h)
      simp only [xorWords, List.zipWith_cons_cons] at this ⊢
      rw [this, BitVec.xor_assoc, BitVec.xor_self, BitVec.xor_zero]

/-! ### Operand lengths -/

@[simp] theorem region_length (sn : Snapshot) (base len : Word) :
    (sn.region base len).length = len.toNat := memRead_length _ _ _

@[simp] theorem srca_length (sn : Snapshot) : sn.srca.length = sn.regs.srcaLen.toNat := region_length _ _ _

@[simp] theorem srcb_length (sn : Snapshot) : sn.srcb.length = sn.regs.srcbLen.toNat := region_length _ _ _

@[simp] theorem srcc_length (sn : Snapshot) : sn.srcc.length = sn.regs.srccLen.toNat := region_length _ _ _

@[simp] theorem ciphertext_length (sn : Snapshot) : sn.ciphertext.length = sn.regs.ctLen.toNat :=
  region_length _ _ _

@[simp] theorem derivedKey_length (sn : Snapshot) (nonce : Word) : (sn.derivedKey nonce).length = 8 :=
  derive_length _ _ _ _

end Sys2Proof.Machine
end

