-- ==== Sys2Proof/Laws/Generator.lean ====
section
/-! SUPPORT. The lengths of the generator's texts and what its scan, truncation and search do. -/

namespace Sys2Proof.Machine

@[simp] theorem unitRange_length (u n : Nat) : (unitRange u n).length = n := by simp [unitRange]

theorem textOperand_length (m : Memory) (b u : Nat) : (textOperand m b u).length = u := by
  have h : ∀ ws : WordArray, (ws.flatMap unitsOfWord).length = 4 * ws.length := by
    intro ws
    induction ws with
    | nil => rfl
    | cons w ws ih =>
      rw [List.flatMap_cons, List.length_append, ih, show (unitsOfWord w).length = 4 from rfl,
        List.length_cons]
      omega
  rw [textOperand, List.length_take, h, memRead_length]
  simp only [ceilDiv]
  omega

/-- The alphabet of a command's constraints has N(c) entries (R242). -/
theorem alphabet_length (sn : Snapshot) : (alphabet sn.constraints).length = alphabetSize sn.regs := by
  have hx : sn.constraints.extra.length = sn.regs.xUnits.toNat := textOperand_length _ _ _
  simp only [alphabet, List.length_append, unitRange_length, hx, alphabetSize]
  show 26 + 10 + (if sn.regs.caseSens then unitRange 65 26 else []).length + _ = _
  cases sn.regs.caseSens <;> simp

/-- Every alphabet has at least 36 entries (R242). -/
theorem alphabet_large (c : Constraints) : 36 ≤ (alphabet c).length := by
  simp only [alphabet, List.length_append, unitRange_length]
  omega

theorem expandLoop_length (rule : DigitRule) (a : Text) (n x mask : Nat) :
    (expandLoop rule a n x mask).length = digitsLoop rule a.length n mask := by
  induction n generalizing x mask with
  | zero => rfl
  | succ n ih =>
    rw [expandLoop, digitsLoop]
    split
    · rw [List.length_cons, ih]
    · rfl

@[simp] theorem expand_length (rule : DigitRule) (a : Text) (v : Word) :
    (expand rule a v).length = digitsPerWord rule a.length := expandLoop_length _ _ _ _ _

/-- A candidate has L(N) units (R244). -/
theorem candidate_length (rule : DigitRule) (hk : WordArray) (ctr : Word) (a : Text) :
    (candidate rule hk ctr a).length = candidateLen rule a.length := by
  have h : ∀ ws : WordArray, (ws.flatMap (expand rule a)).length = ws.length * digitsPerWord rule a.length := by
    intro ws
    induction ws with
    | nil => simp
    | cons w ws ih =>
      rw [List.flatMap_cons, List.length_append, ih, expand_length, List.length_cons, Nat.succ_mul]
      omega
  rw [candidate, h, hmac_length, candidateLen]

/-- What the scan gives: one mark a unit, the marked units are the counted digits and caps, and no count
passes its minimum (R247). -/
theorem scanFrom_spec (c : Constraints) (s : Text) (nd nc : Nat) (hd : nd ≤ c.digits) (hc : nc ≤ c.caps) :
    (scanFrom c nd nc s).1.length = s.length ∧
      (scanFrom c nd nc s).2.1 ≤ c.digits ∧ (scanFrom c nd nc s).2.2 ≤ c.caps ∧
      (scanFrom c nd nc s).1.count true + nd + nc =
        (scanFrom c nd nc s).2.1 + (scanFrom c nd nc s).2.2 := by
  induction s generalizing nd nc with
  | nil => simp [scanFrom, hd, hc]
  | cons u us ih =>
    rw [scanFrom]
    split
    · next h =>
      obtain ⟨h1, h2, h3, h4⟩ := ih (nd + 1) nc (by omega) hc
      refine ⟨by simp [h1], h2, h3, ?_⟩
      simp only [List.count_cons_self]
      omega
    · split
      · next h =>
        obtain ⟨h1, h2, h3, h4⟩ := ih nd (nc + 1) hd (by omega)
        refine ⟨by simp [h1], h2, h3, ?_⟩
        simp only [List.count_cons_self]
        omega
      · obtain ⟨h1, h2, h3, h4⟩ := ih nd nc hd hc
        refine ⟨by simp [h1], h2, h3, ?_⟩
        rw [List.count_cons_of_ne (by decide)]
        exact h4

/-- A passing scan marks exactly CAPS + DIGITS units (R247). -/
theorem scan_marks {s : Text} {c : Constraints} {marks : List Bool} (h : scan s c = some marks) :
    marks.length = s.length ∧ marks.count true = c.digits + c.caps := by
  obtain ⟨h1, -, -, h4⟩ := scanFrom_spec c s 0 0 (Nat.zero_le _) (Nat.zero_le _)
  unfold scan at h
  dsimp only at h
  split at h
  · next hr =>
    cases h
    exact ⟨h1, by omega⟩
  · cases h

/-- Deleting k of at least k unprotected units leaves the rest (R248). -/
theorem deleteUnprotected_length (k : Nat) (s : Text) (marks : List Bool) (hl : marks.length = s.length)
    (hk : k ≤ marks.count false) : (deleteUnprotected k s marks).length = s.length - k := by
  induction s generalizing k marks with
  | nil =>
    have : marks = [] := by simpa using hl
    subst this
    cases k <;> simp [deleteUnprotected]
  | cons u us ih =>
    cases marks with
    | nil => simp at hl
    | cons p ps =>
      cases k with
      | zero => rfl
      | succ k =>
        have hlen : ps.length = us.length := by simpa using hl
        rw [deleteUnprotected]
        cases p with
        | true =>
          rw [List.count_cons_of_ne (by decide)] at hk
          have hle : k + 1 ≤ us.length := hlen ▸ hk.trans (List.count_le_length)
          simp only [if_true, List.length_cons, ih (k + 1) ps hlen hk]
          omega
        | false =>
          rw [List.count_cons_self] at hk
          simp only [Bool.false_eq_true, if_false, List.length_cons, ih k ps hlen (by omega)]
          omega

/-- The length of a truncated candidate (R248, R251). -/
theorem truncateTo_length {s t : Text} {marks : List Bool} {n : Nat} (hl : marks.length = s.length)
    (h : truncateTo s marks n = some t) :
    t.length = if n ≠ 0 ∧ n < s.length then n else s.length := by
  unfold truncateTo at h
  split at h
  · next hn =>
    cases h
    rw [if_neg (by omega)]
  · split at h
    · cases h
    · next hn hc =>
      cases h
      rw [deleteUnprotected_length _ _ _ hl (by omega), if_pos (by omega)]
      omega

/-- A search that returns has found a counter that passes. -/
theorem firstPassing_passes {attempt : Word → Option Text} {n : Nat} {ctr0 ctr : Word} {t : Text}
    (h : firstPassing attempt n ctr0 = some (t, ctr)) : attempt ctr = some t := by
  induction n generalizing ctr0 with
  | zero => cases h
  | succ n ih =>
    rw [firstPassing] at h
    split at h
    · next ht => cases h; exact ht
    · exact ih h

/-- A counter whose attempt passes gives a password of Lout units (R251). -/
theorem tryCounter_length {rule : DigitRule} {hk : WordArray} {sn : Snapshot} {ctr : Word} {t : Text}
    (h : tryCounter rule hk sn.constraints ctr = some t) : t.length = outputLen rule sn.regs := by
  unfold tryCounter at h
  dsimp only at h
  split at h
  · cases h
  · next marks hm =>
    have := truncateTo_length (scan_marks hm).1 h
    rw [candidate_length, alphabet_length] at this
    exact this

@[simp] theorem rawEncode_length (t : Text) : (rawEncode t).length = ceilDiv t.length 4 := by
  induction t using rawEncode.induct with
  | case1 => simp [rawEncode, ceilDiv]
  | case2 => simp [rawEncode, ceilDiv]
  | case3 => simp [rawEncode, ceilDiv]
  | case4 => simp [rawEncode, ceilDiv]
  | case5 a b c d rest ih =>
    rw [rawEncode, List.length_cons, ih]
    simp only [ceilDiv, List.length_cons]
    omega

/-- The words a returning generator command writes are as many as it checked for (R254). -/
theorem gen_words {rule : DigitRule} {hk : WordArray} {sn : Snapshot} {ctr0 ctr : Word} {t : Text}
    (h : gen rule hk sn.constraints ctr0 = some (t, ctr)) :
    (rawEncode t).length = outputWords rule sn.regs := by
  rw [rawEncode_length, tryCounter_length (firstPassing_passes h), outputWords]

end Sys2Proof.Machine
end

