-- ==== Sys2Proof/Laws/State.lean ====
section
/-! SUPPORT. What each update of the state does to each of its fields, true by rfl, so that no later proof
unfolds an update. -/

namespace Sys2Proof.Machine

@[simp] theorem setWign_cfg (s : State) : (s.setWign).cfg = s.cfg := rfl
@[simp] theorem setWign_regs (s : State) : (s.setWign).regs = { s.regs with wign := true } := rfl
@[simp] theorem setWign_dmem (s : State) : (s.setWign).dmem = s.dmem := rfl
@[simp] theorem setWign_phase (s : State) : (s.setWign).phase = s.phase := rfl
@[simp] theorem setWign_scratch (s : State) : (s.setWign).scratch = s.scratch := rfl
@[simp] theorem setWign_inbox (s : State) : (s.setWign).inbox = s.inbox := rfl
@[simp] theorem setWign_observed (s : State) : (s.setWign).observed = s.observed := rfl

@[simp] theorem accept_cfg (s : State) (w : Word) : (accept w s).cfg = s.cfg := rfl
@[simp] theorem accept_regs (s : State) (w : Word) :
    (accept w s).regs = { s.regs with cmd := w, done := false, code := .ok } :=
  rfl
@[simp] theorem accept_dmem (s : State) (w : Word) : (accept w s).dmem = s.dmem := rfl
@[simp] theorem accept_phase (s : State) (w : Word) :
    (accept w s).phase = .busy { regs := { s.regs with cmd := w, done := false, code := .ok }, dmem := s.dmem } :=
  rfl
@[simp] theorem accept_scratch (s : State) (w : Word) : (accept w s).scratch = s.scratch := rfl
@[simp] theorem accept_inbox (s : State) (w : Word) : (accept w s).inbox = s.inbox := rfl
@[simp] theorem accept_observed (s : State) (w : Word) : (accept w s).observed = s.observed := rfl

@[simp] theorem finish_cfg (s : State) (k : StatusCode) (len units count : Word) :
    (finish k len units count s).cfg = s.cfg :=
  rfl
@[simp] theorem finish_regs (s : State) (k : StatusCode) (len units count : Word) :
    (finish k len units count s).regs = { s.regs with
      done := true, code := k, resLen := len, resUnits := units, resCount := count } :=
  rfl
@[simp] theorem finish_dmem (s : State) (k : StatusCode) (len units count : Word) :
    (finish k len units count s).dmem = s.dmem :=
  rfl
@[simp] theorem finish_phase (s : State) (k : StatusCode) (len units count : Word) :
    (finish k len units count s).phase = .idle :=
  rfl
@[simp] theorem finish_scratch (s : State) (k : StatusCode) (len units count : Word) :
    (finish k len units count s).scratch = Scratch.zero :=
  rfl
@[simp] theorem finish_inbox (s : State) (k : StatusCode) (len units count : Word) :
    (finish k len units count s).inbox = s.inbox :=
  rfl
@[simp] theorem finish_observed (s : State) (k : StatusCode) (len units count : Word) :
    (finish k len units count s).observed = s.observed :=
  rfl

@[simp] theorem complete_cfg (s : State) (len units count : Word) :
    (complete len units count s).cfg = s.cfg :=
  rfl
@[simp] theorem complete_regs (s : State) (len units count : Word) :
    (complete len units count s).regs = { s.regs with
      done := true, code := .ok, resLen := len, resUnits := units, resCount := count } :=
  rfl
@[simp] theorem complete_dmem (s : State) (len units count : Word) :
    (complete len units count s).dmem = s.dmem :=
  rfl
@[simp] theorem complete_phase (s : State) (len units count : Word) :
    (complete len units count s).phase = .idle :=
  rfl
@[simp] theorem complete_scratch (s : State) (len units count : Word) :
    (complete len units count s).scratch = Scratch.zero :=
  rfl
@[simp] theorem complete_inbox (s : State) (len units count : Word) :
    (complete len units count s).inbox = s.inbox :=
  rfl
@[simp] theorem complete_observed (s : State) (len units count : Word) :
    (complete len units count s).observed = s.observed :=
  rfl

@[simp] theorem raiseStatus_cfg (s : State) (k : StatusCode) : (raiseStatus k s).cfg = s.cfg := rfl
@[simp] theorem raiseStatus_regs (s : State) (k : StatusCode) :
    (raiseStatus k s).regs = { s.regs with
      done := true, code := k, resLen := 0, resUnits := 0, resCount := 0 } :=
  rfl
@[simp] theorem raiseStatus_dmem (s : State) (k : StatusCode) : (raiseStatus k s).dmem = s.dmem := rfl
@[simp] theorem raiseStatus_phase (s : State) (k : StatusCode) : (raiseStatus k s).phase = .idle := rfl
@[simp] theorem raiseStatus_scratch (s : State) (k : StatusCode) :
    (raiseStatus k s).scratch = Scratch.zero :=
  rfl
@[simp] theorem raiseStatus_inbox (s : State) (k : StatusCode) : (raiseStatus k s).inbox = s.inbox := rfl
@[simp] theorem raiseStatus_observed (s : State) (k : StatusCode) :
    (raiseStatus k s).observed = s.observed :=
  rfl

@[simp] theorem storeWords_cfg (s : State) (base : Word) (v : WordArray) :
    (s.storeWords base v).cfg = s.cfg :=
  rfl
@[simp] theorem storeWords_regs (s : State) (base : Word) (v : WordArray) :
    (s.storeWords base v).regs = s.regs :=
  rfl
@[simp] theorem storeWords_dmem (s : State) (base : Word) (v : WordArray) :
    (s.storeWords base v).dmem = memWrite s.dmem base.toNat v :=
  rfl
@[simp] theorem storeWords_phase (s : State) (base : Word) (v : WordArray) :
    (s.storeWords base v).phase = s.phase :=
  rfl
@[simp] theorem storeWords_scratch (s : State) (base : Word) (v : WordArray) :
    (s.storeWords base v).scratch = s.scratch :=
  rfl
@[simp] theorem storeWords_inbox (s : State) (base : Word) (v : WordArray) :
    (s.storeWords base v).inbox = s.inbox :=
  rfl
@[simp] theorem storeWords_observed (s : State) (base : Word) (v : WordArray) :
    (s.storeWords base v).observed = s.observed :=
  rfl

@[simp] theorem writeCtrl_cfg (s : State) (v : Word) : (writeCtrl v s).cfg = s.cfg := rfl
@[simp] theorem writeCtrl_regs (s : State) (v : Word) :
    (writeCtrl v s).regs = { s.regs with
      ie := v.getLsbD 0, done := s.regs.done && !v.getLsbD 1, wign := s.regs.wign && !v.getLsbD 1 } :=
  rfl
@[simp] theorem writeCtrl_dmem (s : State) (v : Word) : (writeCtrl v s).dmem = s.dmem := rfl
@[simp] theorem writeCtrl_phase (s : State) (v : Word) : (writeCtrl v s).phase = s.phase := rfl
@[simp] theorem writeCtrl_scratch (s : State) (v : Word) : (writeCtrl v s).scratch = s.scratch := rfl
@[simp] theorem writeCtrl_inbox (s : State) (v : Word) : (writeCtrl v s).inbox = s.inbox := rfl
@[simp] theorem writeCtrl_observed (s : State) (v : Word) : (writeCtrl v s).observed = s.observed := rfl

@[simp] theorem tick_cfg (s : State) (n : Nat) : (tick n s).cfg = s.cfg := rfl
@[simp] theorem tick_regs (s : State) (n : Nat) :
    (tick n s).regs = { s.regs with time := s.regs.time + BitVec.ofNat 64 n } :=
  rfl
@[simp] theorem tick_dmem (s : State) (n : Nat) : (tick n s).dmem = s.dmem := rfl
@[simp] theorem tick_phase (s : State) (n : Nat) : (tick n s).phase = s.phase := rfl
@[simp] theorem tick_scratch (s : State) (n : Nat) : (tick n s).scratch = s.scratch := rfl
@[simp] theorem tick_inbox (s : State) (n : Nat) : (tick n s).inbox = s.inbox := rfl
@[simp] theorem tick_observed (s : State) (n : Nat) : (tick n s).observed = s.observed := rfl

@[simp] theorem hostRead_cfg (s : State) (width addr : Nat) : (hostRead width addr s).cfg = s.cfg := rfl
@[simp] theorem hostRead_regs (s : State) (width addr : Nat) :
    (hostRead width addr s).regs = s.regs :=
  rfl
@[simp] theorem hostRead_dmem (s : State) (width addr : Nat) :
    (hostRead width addr s).dmem = s.dmem :=
  rfl
@[simp] theorem hostRead_phase (s : State) (width addr : Nat) :
    (hostRead width addr s).phase = s.phase :=
  rfl
@[simp] theorem hostRead_scratch (s : State) (width addr : Nat) :
    (hostRead width addr s).scratch = s.scratch :=
  rfl
@[simp] theorem hostRead_inbox (s : State) (width addr : Nat) :
    (hostRead width addr s).inbox = s.inbox :=
  rfl
@[simp] theorem hostRead_observed (s : State) (width addr : Nat) :
    (hostRead width addr s).observed = s.observed ++ [hostReadValue width addr s] :=
  rfl

@[simp] theorem platformReset_cfg (s : State) : (platformReset s).cfg = s.cfg := rfl
@[simp] theorem platformReset_regs (s : State) : (platformReset s).regs = Regs.reset := rfl
@[simp] theorem platformReset_dmem (s : State) : (platformReset s).dmem = [] := rfl
@[simp] theorem platformReset_phase (s : State) : (platformReset s).phase = .idle := rfl
@[simp] theorem platformReset_scratch (s : State) : (platformReset s).scratch = Scratch.zero := rfl
@[simp] theorem platformReset_inbox (s : State) : (platformReset s).inbox = s.inbox := rfl
@[simp] theorem platformReset_observed (s : State) : (platformReset s).observed = s.observed := rfl

@[simp] theorem benchStart_cfg (s : State) (sn : Snapshot) : (benchStart sn s).cfg = s.cfg := rfl
@[simp] theorem benchStart_regs (s : State) (sn : Snapshot) : (benchStart sn s).regs = s.regs := rfl
@[simp] theorem benchStart_dmem (s : State) (sn : Snapshot) : (benchStart sn s).dmem = s.dmem := rfl
@[simp] theorem benchStart_phase (s : State) (sn : Snapshot) : (benchStart sn s).phase = s.phase := rfl
@[simp] theorem benchStart_scratch (s : State) (sn : Snapshot) :
    (benchStart sn s).scratch = { s.scratch with
      initialKey := initialKey sn.srca sn.srcb sn.regs.nonce
      benchRunning := true, benchStart := s.regs.time, benchCount := 0 } :=
  rfl
@[simp] theorem benchStart_inbox (s : State) (sn : Snapshot) : (benchStart sn s).inbox = s.inbox := rfl
@[simp] theorem benchStart_observed (s : State) (sn : Snapshot) :
    (benchStart sn s).observed = s.observed :=
  rfl

@[simp] theorem benchPass_cfg (s : State) : (benchPass s).cfg = s.cfg := rfl
@[simp] theorem benchPass_regs (s : State) : (benchPass s).regs = s.regs := rfl
@[simp] theorem benchPass_dmem (s : State) : (benchPass s).dmem = s.dmem := rfl
@[simp] theorem benchPass_phase (s : State) : (benchPass s).phase = s.phase := rfl
@[simp] theorem benchPass_scratch (s : State) :
    (benchPass s).scratch = { s.scratch with
      initialKey := sha512 s.scratch.initialKey, benchCount := s.scratch.benchCount + 1 } :=
  rfl
@[simp] theorem benchPass_inbox (s : State) : (benchPass s).inbox = s.inbox := rfl
@[simp] theorem benchPass_observed (s : State) : (benchPass s).observed = s.observed := rfl

@[simp] theorem benchFinish_cfg (s : State) : (benchFinish s).cfg = s.cfg := rfl
@[simp] theorem benchFinish_regs (s : State) :
    (benchFinish s).regs = { s.regs with
      done := true, code := .ok, resLen := 0, resUnits := 0, resCount := s.scratch.benchCount } :=
  rfl
@[simp] theorem benchFinish_dmem (s : State) : (benchFinish s).dmem = s.dmem := rfl
@[simp] theorem benchFinish_phase (s : State) : (benchFinish s).phase = .idle := rfl
@[simp] theorem benchFinish_scratch (s : State) : (benchFinish s).scratch = Scratch.zero := rfl
@[simp] theorem benchFinish_inbox (s : State) : (benchFinish s).inbox = s.inbox := rfl
@[simp] theorem benchFinish_observed (s : State) : (benchFinish s).observed = s.observed := rfl

/-- A BUSY core computes from its snapshot. -/
theorem inputs_busy {s : State} {sn : Snapshot} (h : s.phase = .busy sn) : s.inputs = sn := by
  rw [State.inputs, h]

theorem busy_of_phase {s : State} {sn : Snapshot} (h : s.phase = .busy sn) : s.busy = true := by
  rw [State.busy, h]

theorem not_busy_of_phase {s : State} (h : s.phase = .idle) : s.busy = false := by
  rw [State.busy, h]

end Sys2Proof.Machine
end

