-- ==== Sys2Proof/Laws/Ops.lean ====
section
/-! SUPPORT. What each shared operation can do, said once: the order of checks, where a host access
lands, what a host write and a step of the core can change, and that every memory operation keeps the
canonical form and the DMEM window. -/

namespace Sys2Proof.Machine

/-! ### The checks of a command (R348) -/

@[simp] theorem firstFailure_nil : firstFailure [] = none := rfl

theorem firstFailure_cons (ok : Bool) (k : StatusCode) (rest : List (Bool × StatusCode)) :
    firstFailure ((ok, k) :: rest) = if ok then firstFailure rest else some k := rfl

/-- No check fails exactly where every check holds. -/
theorem firstFailure_eq_none {cs : List (Bool × StatusCode)} :
    firstFailure cs = none ↔ ∀ p ∈ cs, p.1 = true := by
  induction cs with
  | nil => simp
  | cons p cs ih =>
    obtain ⟨ok, k⟩ := p
    cases ok <;> simp [firstFailure_cons, ih]

/-- A code that is raised is the code of a check that does not hold, and every earlier check holds. -/
theorem firstFailure_eq_some {cs : List (Bool × StatusCode)} {k : StatusCode} :
    firstFailure cs = some k ↔
      ∃ pre post, cs = pre ++ (false, k) :: post ∧ ∀ p ∈ pre, p.1 = true := by
  induction cs with
  | nil => simp
  | cons p cs ih =>
    obtain ⟨ok, c⟩ := p
    cases ok with
    | false =>
      simp only [firstFailure_cons, Bool.false_eq_true, if_false, Option.some.injEq]
      constructor
      · rintro rfl
        exact ⟨[], cs, rfl, by simp⟩
      · rintro ⟨pre, post, h, hp⟩
        cases pre with
        | nil => simpa using congrArg (fun l => (l.headD (true, k)).2) h
        | cons q pre =>
          have hq : ((false, c) : Bool × StatusCode) = q := by simpa using (List.cons.inj h).1
          have := hp q (by simp)
          rw [← hq] at this
          cases this
    | true =>
      simp only [firstFailure_cons, if_true, ih]
      constructor
      · rintro ⟨pre, post, rfl, hp⟩
        exact ⟨(true, c) :: pre, post, rfl, by simpa using hp⟩
      · rintro ⟨pre, post, h, hp⟩
        cases pre with
        | nil => simp at h
        | cons q pre =>
          exact ⟨pre, post, (List.cons.inj h).2, fun p hpm => hp p (by simp [hpm])⟩

/-- The code of a failure is one of the codes of the checks. -/
theorem firstFailure_mem {cs : List (Bool × StatusCode)} {k : StatusCode} (h : firstFailure cs = some k) :
    k ∈ cs.map Prod.snd := by
  obtain ⟨pre, post, rfl, -⟩ := firstFailure_eq_some.1 h
  simp

/-- All four selectors are 0 exactly where they are registered (R112). -/
theorem registered_iff {sel : Selectors} :
    sel.registered = true ↔ sel.hsel = 0 ∧ sel.msel = 0 ∧ sel.csel = 0 ∧ sel.gsel = 0 := by
  simp [Selectors.registered, registered, and_assoc]

/-! ### Memory -/

/-- `MemWrite` inside DMEM keeps the DMEM window. -/
theorem memWrite_inWindow {c : Config} {m : Memory} (h : InWindow c m) {a : Nat} {v : WordArray}
    (ha : a + v.length ≤ c.dmemWords.toNat) : InWindow c (memWrite m a v) := by
  intro x hx
  rcases Memory.mem_writeBytes hx with ⟨h1, h2⟩ | hx
  · rw [flatMap_wordBytes_length] at h2
    simp only [dmemAddr] at h1 h2
    exact ⟨by omega, by omega⟩
  · exact h x hx

/-- Writing one word is `MemWrite` of one word. -/
theorem writeWord_eq_memWrite (m : Memory) (j : Nat) (v : Word) : m.writeWord j v = memWrite m j [v] := by
  simp [Memory.writeWord, memWrite]

/-- Writing a word keeps the canonical form. -/
theorem writeWord_wf {m : Memory} (h : m.wf) (j : Nat) (v : Word) : (m.writeWord j v).wf :=
  Memory.wf_writeBytes h _ _

/-- Storing a result keeps the canonical form. -/
theorem storeWords_wf {s : State} (h : s.dmem.wf) (base : Word) (v : WordArray) :
    (s.storeWords base v).dmem.wf := memWrite_wf h _ _

/-- The reset memory is in canonical form. -/
theorem reset_memory_wf : State.reset.dmem.wf := Memory.wf_nil

/-- `MemWrite` inside DMEM stores exactly its words. -/
theorem memWrite_storesExactly {m : Memory} (h : m.wf) (a : Nat) (v : WordArray) :
    StoresExactly m (memWrite m a v) a v :=
  ⟨memRead_memWrite_same h a v, fun _ hx => readByte_memWrite_outside h a v hx⟩

/-! ### Where a host access lands (R80-R82) -/

/-- A 64-bit access at index i of the register page. -/
theorem busTarget_register {c : Config} {i : Nat} (hi : i < 64) :
    busTarget c 64 (c.coreBase.toNat + 8 * i) = .register i := by
  have h : c.coreBase.toNat + 8 * i - c.coreBase.toNat = 8 * i := by omega
  simp only [busTarget, h]
  rw [if_pos ⟨trivial, by omega, by omega⟩, if_pos (by omega)]
  congr 1
  omega

/-- A 64-bit access to DMEM word j. -/
theorem busTarget_dmem {c : Config} {j : Nat} (hj : j < c.dmemWords.toNat) :
    busTarget c 64 (c.coreBase.toNat + 0x10000 + 8 * j) = .dmem j := by
  have h : c.coreBase.toNat + 0x10000 + 8 * j - c.coreBase.toNat = 0x10000 + 8 * j := by omega
  simp only [busTarget, h]
  rw [if_pos ⟨trivial, by omega, by omega⟩, if_neg (by omega), if_pos (by omega)]
  congr 1
  omega

/-- A write that lands in DMEM lands in an implemented word. -/
theorem busTarget_dmem_lt {c : Config} {width addr j : Nat} (h : busTarget c width addr = .dmem j) :
    j < c.dmemWords.toNat := by
  simp only [busTarget] at h
  split at h
  · split at h
    · cases h
    · split at h
      · cases h
        omega
      · cases h
  · cases h

/-- Every register's index is in the page. -/
theorem index_lt (r : Reg) : r.index < 64 := by cases r <;> decide

/-- A register is what its index names. -/
@[simp] theorem ofIndex_index (r : Reg) : Reg.ofIndex r.index = some r := by cases r <;> rfl

/-! ### What an event can do -/

/-- What a defined write to the register page can do. -/
theorem writeRegIndex_cases (i : Nat) (v : Word) (s : State) :
    writeRegIndex i v s = writeCtrl v s ∨
      (s.busy = true ∧ writeRegIndex i v s = s.setWign) ∨
      (s.busy = false ∧ (writeRegIndex i v s = s ∨ writeRegIndex i v s = accept v s ∨
        ∃ r, r ≠ .cmd ∧ r ≠ .ctrl ∧ writeRegIndex i v s = { s with regs := s.regs.store v r })) := by
  unfold writeRegIndex
  split
  · exact .inl rfl
  · next r? hr =>
    cases hb : s.busy with
    | true => exact .inr (.inl ⟨rfl, rfl⟩)
    | false =>
      refine .inr (.inr ⟨rfl, ?_⟩)
      simp only [Bool.false_eq_true, if_false]
      split
      · exact .inl rfl
      · exact .inr (.inl rfl)
      · next r hcmd h => exact .inr (.inr ⟨r, hcmd, fun hctrl => hr (hctrl ▸ h), rfl⟩)

/-- What a host write can do. -/
theorem hostWrite_cases (width addr : Nat) (v : Word) (s : State) :
    hostWrite width addr v s = s ∨ (∃ i, hostWrite width addr v s = writeRegIndex i v s) ∨
      ∃ j, j < s.cfg.dmemWords.toNat ∧ hostWrite width addr v s = writeDmem j v s := by
  unfold hostWrite
  split
  · exact .inr (.inl ⟨_, rfl⟩)
  · next j h => exact .inr (.inr ⟨j, busTarget_dmem_lt h, rfl⟩)
  · exact .inl rfl

/-- A host write changes no constant, no scratch, no event and no observation. -/
theorem hostWrite_frame (width addr : Nat) (v : Word) (s : State) :
    (hostWrite width addr v s).cfg = s.cfg ∧ (hostWrite width addr v s).scratch = s.scratch ∧
      (hostWrite width addr v s).inbox = s.inbox ∧ (hostWrite width addr v s).observed = s.observed ∧
      (hostWrite width addr v s).regs.time = s.regs.time := by
  rcases hostWrite_cases width addr v s with h | ⟨i, h⟩ | ⟨j, -, h⟩ <;> rw [h]
  · exact ⟨rfl, rfl, rfl, rfl, rfl⟩
  · rcases writeRegIndex_cases i v s with h | ⟨-, h⟩ | ⟨-, h | h | ⟨r, -, -, h⟩⟩ <;> rw [h]
    all_goals first
      | exact ⟨rfl, rfl, rfl, rfl, rfl⟩
      | exact ⟨rfl, rfl, rfl, rfl, by cases r <;> rfl⟩
  · unfold writeDmem
    split <;> exact ⟨rfl, rfl, rfl, rfl, rfl⟩

/-- What a step of the core can do: wait, complete an undecodable word with ILLEGAL, or run its command. -/
theorem coreStep_cases {s : State} {o : Host.Outcome State Fault Refusal} (h : coreStep s = o) :
    (s.phase = .idle ∧ o = .next s) ∨
      (∃ sn, s.phase = .busy sn ∧
        ((∃ why, decode s.regs.cmd = .illegal why ∧ o = .next (raiseStatus .illegal s)) ∨
          ∃ i, decode s.regs.cmd = .command i ∧ o = exec i s)) := by
  unfold coreStep at h
  split at h
  · next hp => exact .inl ⟨hp, h.symm⟩
  · next sn hp =>
    refine .inr ⟨sn, hp, ?_⟩
    split at h
    · next why hd => exact .inl ⟨why, hd, h.symm⟩
    · next i hd => exact .inr ⟨i, hd, h.symm⟩

/-- A table word placed for the next step is the command that step runs. -/
theorem step_withFetchWord {s : State} {nbits w : Nat} {i : Instr} (h : decodeTableWord nbits w = some i) :
    step (s.withFetchWord nbits w) = exec i (s.withFetchWord nbits w) := by
  unfold decodeTableWord at h
  split at h
  · next j hd =>
    cases h
    have hd' : decode (s.withFetchWord nbits w).regs.cmd = .command i := hd
    show coreStep (s.withFetchWord nbits w) = _
    rw [coreStep, hd']
    rfl
  · cases h

/-- What a step can do. -/
theorem step_cases {s : State} {o : Host.Outcome State Fault Refusal} (h : step s = o) :
    (s.inbox = [] ∧ o = coreStep s) ∨
      ∃ e es, s.inbox = e :: es ∧
        ((e = .core ∧ o = coreStep { s with inbox := es }) ∨
          (∃ width addr v, e = .write width addr v ∧
            o = .next (hostWrite width addr v { s with inbox := es })) ∨
          (∃ width addr, e = .read width addr ∧ o = .next (hostRead width addr { s with inbox := es })) ∨
          (∃ n, e = .tick n ∧ o = .next (tick n { s with inbox := es })) ∨
          (e = .reset ∧ o = .next (platformReset { s with inbox := es }))) := by
  unfold step at h
  split at h
  · next hi => exact .inl ⟨hi, h.symm⟩
  · next es hi => exact .inr ⟨_, es, hi, .inl ⟨rfl, h.symm⟩⟩
  · next w a v es hi => exact .inr ⟨_, es, hi, .inr (.inl ⟨w, a, v, rfl, h.symm⟩)⟩
  · next w a es hi => exact .inr ⟨_, es, hi, .inr (.inr (.inl ⟨w, a, rfl, h.symm⟩))⟩
  · next n es hi => exact .inr ⟨_, es, hi, .inr (.inr (.inr (.inl ⟨n, rfl, h.symm⟩)))⟩
  · next es hi => exact .inr ⟨_, es, hi, .inr (.inr (.inr (.inr ⟨rfl, h.symm⟩)))⟩

end Sys2Proof.Machine
end

