-- ==== Sys2Proof/Laws/Commands.lean ====
section
/-! SUPPORT. What each command can do, said once: it fails with the code of the first check that does not
hold, or has the one effect of its rule. The provers cite these lemmas instead of unfolding a meaning. -/

namespace Sys2Proof.Machine

/-- A command that runs its checks, then its effect: the shape all meanings share. -/
theorem checked_cases {cs : List (Bool × StatusCode)} {fail : StatusCode → State} {effect t : State}
    (h : (match firstFailure cs with
      | some k => (.next (fail k) : Host.Outcome State Fault Refusal)
      | none => .next effect) = .next t) :
    (∃ k, firstFailure cs = some k ∧ t = fail k) ∨ (firstFailure cs = none ∧ t = effect) := by
  split at h
  · next k hk => exact .inl ⟨k, hk, by cases h; rfl⟩
  · next hn => exact .inr ⟨hn, by cases h; rfl⟩

/-- HASH (R178). -/
theorem execHash_cases {sel : Selectors} {s t : State} (h : execHash sel s = .next t) :
    (∃ k, firstFailure ((sel.registered, .unsupported) :: hashChecks s.cfg s.inputs.regs) = some k ∧
        t = raiseStatus k s) ∨
      (firstFailure ((sel.registered, .unsupported) :: hashChecks s.cfg s.inputs.regs) = none ∧
        t = complete 8 0 0 (s.storeWords s.inputs.regs.dstBase (sha512 s.inputs.srca))) :=
  checked_cases h

/-- HMAC (R206). -/
theorem execHmac_cases {sel : Selectors} {s t : State} (h : execHmac sel s = .next t) :
    (∃ k, firstFailure ((sel.registered, .unsupported) :: hmacChecks s.cfg s.inputs.regs) = some k ∧
        t = raiseStatus k s) ∨
      (firstFailure ((sel.registered, .unsupported) :: hmacChecks s.cfg s.inputs.regs) = none ∧
        t = complete 8 0 0 (s.storeWords s.inputs.regs.dstBase (hmac s.inputs.srca s.inputs.srcb))) :=
  checked_cases h

/-- OFB_CMD (R226). -/
theorem ofbCommand_cases (sel : Selectors) (s : State) :
    (∃ k, firstFailure ((sel.registered, .unsupported) :: ofbChecks s.cfg s.inputs.regs) = some k ∧
        ofbCommand sel s = raiseStatus k s) ∨
      (firstFailure ((sel.registered, .unsupported) :: ofbChecks s.cfg s.inputs.regs) = none ∧
        ofbCommand sel s = complete s.inputs.regs.srcbLen 0 0
          (s.storeWords s.inputs.regs.dstBase (ofb s.inputs.srca s.inputs.srcb))) := by
  unfold ofbCommand
  dsimp only
  split
  · next k hk => exact .inl ⟨k, hk, rfl⟩
  · next hn => exact .inr ⟨hn, rfl⟩

/-- The end of a generator command: it stays as it is, or writes the password found (R254, R250). -/
theorem finishGenerate_cases (hk : WordArray) (s : State) :
    (gen s.cfg.digitRule hk s.inputs.constraints s.inputs.regs.counter = none ∧ finishGenerate hk s = s) ∨
      ∃ p ctr, gen s.cfg.digitRule hk s.inputs.constraints s.inputs.regs.counter = some (p, ctr) ∧
        finishGenerate hk s =
          complete (BitVec.ofNat 64 (outputWords s.cfg.digitRule s.inputs.regs))
            (BitVec.ofNat 64 (outputLen s.cfg.digitRule s.inputs.regs)) 0
            { s with
              dmem := memWrite s.dmem s.inputs.regs.dstBase.toNat (rawEncode p)
              regs := { s.regs with counter := ctr } } := by
  unfold finishGenerate
  dsimp only
  split
  · next h => exact .inl ⟨h, rfl⟩
  · next p ctr h => exact .inr ⟨p, ctr, h, rfl⟩

/-- GENERATE (R254). -/
theorem execGenerate_cases {sel : Selectors} {s t : State} (h : execGenerate sel s = .next t) :
    (∃ k, firstFailure ((sel.registered, .unsupported) :: generateChecks s.cfg s.inputs.regs) = some k ∧
        t = raiseStatus k s) ∨
      (firstFailure ((sel.registered, .unsupported) :: generateChecks s.cfg s.inputs.regs) = none ∧
        t = finishGenerate s.inputs.srca s) :=
  checked_cases h

/-- DERIVE_KEY (R285). -/
theorem execDeriveKey_cases {sel : Selectors} {s t : State} (h : execDeriveKey sel s = .next t) :
    (∃ k, firstFailure ((sel.registered, .unsupported) :: deriveKeyChecks s.cfg s.inputs.regs) = some k ∧
        t = raiseStatus k s) ∨
      (firstFailure ((sel.registered, .unsupported) :: deriveKeyChecks s.cfg s.inputs.regs) = none ∧
        t = complete 8 0 0
          (s.storeWords s.inputs.regs.dstBase (s.inputs.derivedKey s.inputs.regs.nonce))) :=
  checked_cases h

/-- The end of COMPUTE_PW in ENCRYPTED mode (R286). -/
theorem finishDecrypt_eq (s : State) :
    finishDecrypt s =
      complete s.inputs.regs.ctLen
        (BitVec.ofNat 64 (rawLen (ofb (s.inputs.derivedKey s.inputs.regs.nonce) s.inputs.ciphertext))) 0
        (s.storeWords s.inputs.regs.dstBase
          (ofb (s.inputs.derivedKey s.inputs.regs.nonce) s.inputs.ciphertext)) :=
  rfl

/-- COMPUTE_PW, by the mode (R286). -/
theorem execComputePw_cases {sel : Selectors} {s t : State} (h : execComputePw sel s = .next t) :
    (∃ k, firstFailure ((sel.registered, .unsupported) :: computePwChecks s.cfg s.inputs.regs) = some k ∧
        t = raiseStatus k s) ∨
      (firstFailure ((sel.registered, .unsupported) :: computePwChecks s.cfg s.inputs.regs) = none ∧
        ((s.inputs.regs.mode = .generated ∧
            t = finishGenerate (s.inputs.derivedKey s.inputs.regs.nonce) s) ∨
          (s.inputs.regs.mode = .encrypted ∧ t = finishDecrypt s))) := by
  unfold execComputePw at h
  dsimp only at h
  split at h
  · next k hk => exact .inl ⟨k, hk, by cases h; rfl⟩
  · next hn =>
    refine .inr ⟨hn, ?_⟩
    split at h
    · next hm => exact .inl ⟨hm, by cases h; rfl⟩
    · next hm => exact .inr ⟨hm, by cases h; rfl⟩

/-- ENCRYPT_PW (R288). -/
theorem execEncryptPw_cases {sel : Selectors} {s t : State} (h : execEncryptPw sel s = .next t) :
    (∃ k, firstFailure ((sel.registered, .unsupported) :: encryptPwChecks s.cfg s.inputs.regs) = some k ∧
        t = raiseStatus k s) ∨
      (firstFailure ((sel.registered, .unsupported) :: encryptPwChecks s.cfg s.inputs.regs) = none ∧
        t = complete s.inputs.regs.srccLen 0 0 { s with
          dmem := memWrite s.dmem s.inputs.regs.dstBase.toNat
            (ofb (s.inputs.derivedKey (encryptNonce s.inputs.regs)) s.inputs.srcc)
          regs := storeCiphertextRegs s.regs (encryptNonce s.inputs.regs) s.inputs.regs.dstBase
            s.inputs.regs.srccLen }) :=
  checked_cases h

/-- BENCHMARK (R289, R290): fail, enter the loop, complete at once, make one pass, or complete. -/
theorem execBenchmark_cases {sel : Selectors} {s t : State} (h : execBenchmark sel s = .next t) :
    (∃ k, firstFailure ((sel.registered, .unsupported) :: benchmarkChecks s.cfg s.inputs.regs) = some k ∧
        t = raiseStatus k s) ∨
      (firstFailure ((sel.registered, .unsupported) :: benchmarkChecks s.cfg s.inputs.regs) = none ∧
        ((s.scratch.benchRunning = false ∧ s.inputs.regs.benchBudget = 0 ∧
            t = benchFinish (benchStart s.inputs s)) ∨
          (s.scratch.benchRunning = false ∧ s.inputs.regs.benchBudget ≠ 0 ∧ t = benchStart s.inputs s) ∨
          (s.scratch.benchRunning = true ∧
            benchWithinBudget s.inputs.regs.benchBudget s = true ∧ t = benchPass s) ∨
          (s.scratch.benchRunning = true ∧
            benchWithinBudget s.inputs.regs.benchBudget s = false ∧ t = benchFinish s))) := by
  unfold execBenchmark at h
  dsimp only at h
  split at h
  · next k hk => exact .inl ⟨k, hk, by cases h; rfl⟩
  · next hn =>
    refine .inr ⟨hn, ?_⟩
    split at h
    · next hr =>
      split at h
      · next hb => exact .inr (.inr (.inl ⟨hr, hb, by cases h; rfl⟩))
      · next hb => exact .inr (.inr (.inr ⟨hr, by simpa using hb, by cases h; rfl⟩))
    · next hr =>
      split at h
      · next hb => exact .inl ⟨by simpa using hr, hb, by cases h; rfl⟩
      · next hb => exact .inr (.inl ⟨by simpa using hr, hb, by cases h; rfl⟩)

/-- SET_MODE (R322). -/
theorem execSetMode_cases {sel : Selectors} {target : Mode} {s t : State}
    (h : execSetMode sel target s = .next t) :
    (∃ k, firstFailure ((sel.registered, .unsupported) :: setModeChecks target s.inputs.regs) = some k ∧
        t = raiseStatus k s) ∨
      (firstFailure ((sel.registered, .unsupported) :: setModeChecks target s.inputs.regs) = none ∧
        ((target = .generated ∧ s.inputs.regs.mode = .encrypted ∧
            t = complete 0 0 0 { s with
              regs := leaveEncryptedRegs s.regs (leaveNonce s.inputs.regs) }) ∨
          (target = s.inputs.regs.mode ∧ t = complete 0 0 0 s))) := by
  unfold execSetMode at h
  dsimp only at h
  split at h
  · next k hk => exact .inl ⟨k, hk, by cases h; rfl⟩
  · next hn =>
    refine .inr ⟨hn, ?_⟩
    cases target <;> cases hm : s.inputs.regs.mode <;> simp only [hm] at h <;> cases h
    · exact .inr ⟨rfl, rfl⟩
    · exact .inl ⟨rfl, rfl, rfl⟩
    · cases hs : sel.registered <;> simp [firstFailure_cons, setModeChecks, hm, hs] at hn
    · exact .inr ⟨rfl, rfl⟩

/-- BUMP_NONCE (R323). -/
theorem execBumpNonce_cases {sel : Selectors} {s t : State} (h : execBumpNonce sel s = .next t) :
    (sel.registered = false ∧ t = raiseStatus .unsupported s) ∨
      (sel.registered = true ∧ t = complete 0 0 0 { s with regs := { s.regs with
        nonce := s.inputs.regs.nonce + 1
        nb := match s.inputs.regs.mode with
          | .generated => s.regs.nb
          | .encrypted => true } }) := by
  unfold execBumpNonce at h
  cases hs : sel.registered <;> simp only [hs, firstFailure_cons] at h <;> cases h
  · exact .inl ⟨rfl, rfl⟩
  · exact .inr ⟨rfl, rfl⟩

end Sys2Proof.Machine
end

