-- ==== Sys2Proof/Laws/Checks.lean ====
section
/-! SUPPORT. The checks of the commands against the causes of 60_exceptions.md (R341-R344), and what a
command can do as a whole, over all commands at once. -/

namespace Sys2Proof.Machine

/-- The checks a command makes after its selectors', in its rule's order. -/
def checksOf (c : Config) (r : Regs) : Instr → List (Bool × StatusCode)
  | .hash _ => hashChecks c r
  | .hmac _ => hmacChecks c r
  | .ofbEnc _ | .ofbDec _ => ofbChecks c r
  | .generate _ => generateChecks c r
  | .deriveKey _ => deriveKeyChecks c r
  | .computePw _ => computePwChecks c r
  | .encryptPw _ => encryptPwChecks c r
  | .benchmark _ => benchmarkChecks c r
  | .setMode _ target => setModeChecks target r
  | .bumpNonce _ => []

/-- The bounds check fails exactly outside DMEM (R84). -/
theorem inRange_eq_false {c : Config} {b : Word} {n : Nat} :
    inRange c b.toNat n = false ↔ Outside c b n := by
  simp [inRange, Outside]

/-- `PadFits` fails exactly where the padded message is too long (R171). -/
theorem padFits_eq_false {c : Config} {n : Nat} : padFits c n = false ↔ PadTooLong c n := by
  simp [padFits, PadTooLong]

/-- `HmacFits` fails exactly where a MAC is too long (R203). -/
theorem hmacFits_eq_false {c : Config} {kl ml : Nat} : hmacFits c kl ml = false ↔ MacTooLong c kl ml := by
  rw [MacTooLong, ← padFits_eq_false, ← padFits_eq_false, hmacFits]
  cases padFits c kl <;> cases padFits c (16 + ml) <;> simp

/-- `Matchable` fails exactly on unmatchable constraints (R241). -/
theorem matchable_eq_false {r : Regs} : matchable r = false ↔ Unmatchable r := by
  cases h : r.caseSens <;> simp [matchable, Unmatchable, h]
  omega

/-- A MALFORMED cause is a check with that code that does not hold (R342). -/
theorem malformedCause_iff (c : Config) (r : Regs) (i : Instr) :
    MalformedCause c r i ↔ ∃ p ∈ checksOf c r i, p.2 = .malformed ∧ p.1 = false := by
  have e : r.srcaLen = 8 ↔ r.srcaLen.toNat = 8 :=
    ⟨fun h => by rw [h]; rfl, fun h => BitVec.eq_of_toNat_eq h⟩
  cases i <;> simp only [MalformedCause, checksOf]
  case computePw =>
    cases hm : r.mode <;> simp [computePwChecks, hm, computeGeneratedChecks, computeEncryptedChecks,
        srcaInRange, srcbInRange, dstInRange, extraInRange, ciphertextInRange,
            inRange_eq_false]
  case setMode sel t => cases t <;> cases hm : r.mode <;> simp [setModeChecks, hm]
  all_goals simp [hashChecks, hmacChecks, ofbChecks, generateChecks, deriveKeyChecks, encryptPwChecks,
      benchmarkChecks, srcaInRange, srcbInRange, srccInRange, dstInRange, extraInRange,
          inRange_eq_false, ← e]

/-- An UNMATCHABLE cause is a check with that code that does not hold (R343). -/
theorem unmatchableCause_iff (c : Config) (r : Regs) (i : Instr) :
    UnmatchableCause r i ↔ ∃ p ∈ checksOf c r i, p.2 = .unmatchable ∧ p.1 = false := by
  cases i <;> simp only [UnmatchableCause, checksOf]
  case computePw =>
    cases hm : r.mode <;> simp [computePwChecks, hm, computeGeneratedChecks, computeEncryptedChecks,
        matchable_eq_false]
  case setMode sel t => cases t <;> cases hm : r.mode <;> simp [setModeChecks, hm]
  all_goals simp [hashChecks, hmacChecks, ofbChecks, generateChecks, deriveKeyChecks, encryptPwChecks,
      benchmarkChecks, matchable_eq_false]

/-- An ALLOC cause is a check with that code that does not hold (R341). -/
theorem allocCause_iff (c : Config) (r : Regs) (i : Instr) :
    AllocCause c r i ↔ ∃ p ∈ checksOf c r i, p.2 = .alloc ∧ p.1 = false := by
  cases i <;> simp only [AllocCause, checksOf, DeriveTooLong]
  case computePw =>
    cases hm : r.mode <;> simp [computePwChecks, hm, computeGeneratedChecks, computeEncryptedChecks,
        deriveFits, hmacFits_eq_false, dstHolds]
  case setMode sel t => cases t <;> cases hm : r.mode <;> simp [setModeChecks, hm]
  all_goals simp [hashChecks, hmacChecks, ofbChecks, generateChecks, deriveKeyChecks, encryptPwChecks,
      benchmarkChecks, deriveFits, hmacFits_eq_false, padFits_eq_false, dstHolds]

/-- The codes a command's own checks raise (R348). -/
theorem checksOf_codes (c : Config) (r : Regs) (i : Instr) :
    ∀ p ∈ checksOf c r i, p.2 = .malformed ∨ p.2 = .unmatchable ∨ p.2 = .alloc := by
  cases i <;> simp only [checksOf]
  case computePw =>
    cases hm : r.mode <;> simp [computePwChecks, hm, computeGeneratedChecks, computeEncryptedChecks]
  all_goals simp [hashChecks, hmacChecks, ofbChecks, generateChecks, deriveKeyChecks, encryptPwChecks,
      benchmarkChecks, setModeChecks]

/-- A command runs exactly where no check of it fails. -/
theorem runs_iff (c : Config) (r : Regs) (i : Instr) :
    Runs c r i ↔ firstFailure ((i.selectors.registered, .unsupported) :: checksOf c r i) = none := by
  rw [firstFailure_eq_none]
  simp only [Runs, malformedCause_iff, unmatchableCause_iff c, allocCause_iff, Instr.wellFormed,
      List.forall_mem_cons]
  constructor
  · rintro ⟨h0, h1, h2, h3⟩
    refine ⟨h0, fun p hp => ?_⟩
    cases hpf : p.1 with
    | true => rfl
    | false =>
      rcases checksOf_codes c r i p hp with h | h | h
      · exact absurd ⟨p, hp, h, hpf⟩ h1
      · exact absurd ⟨p, hp, h, hpf⟩ h2
      · exact absurd ⟨p, hp, h, hpf⟩ h3
  · rintro ⟨h0, h⟩
    refine ⟨h0, ?_, ?_, ?_⟩ <;> rintro ⟨p, hp, -, hf⟩ <;> rw [h p hp] at hf <;> cases hf

/-- A command with a failing check completes with its code and nothing else (R347, R351). -/
theorem exec_fail {i : Instr} {s : State} {k : StatusCode}
    (h : firstFailure ((i.selectors.registered, .unsupported) :: checksOf s.cfg s.inputs.regs i) = some k) :
    exec i s = .next (raiseStatus k s) := by
  cases i <;> simp only [exec, checksOf, Instr.selectors] at h ⊢
  case hash => simp only [execHash, h]
  case hmac => simp only [execHmac, h]
  case ofbEnc => simp only [execOfbEnc, ofbCommand, h]
  case ofbDec => simp only [execOfbDec, ofbCommand, h]
  case generate => simp only [execGenerate, h]
  case deriveKey => simp only [execDeriveKey, h]
  case computePw => simp only [execComputePw, h]
  case encryptPw => simp only [execEncryptPw, h]
  case benchmark => simp only [execBenchmark, h]
  case setMode => simp only [execSetMode, h]
  case bumpNonce => simp only [execBumpNonce, h]

/-- What any command can do: complete with the code of a failing check; stay BUSY with nothing but scratch
changed, which only BENCHMARK's loop does; or complete with OK, having stored at most DST_CAP words inside
DMEM and written only the registers commands may write. -/
theorem exec_shape {i : Instr} {s t : State} (h : exec i s = .next t) :
    (∃ k, firstFailure ((i.selectors.registered, .unsupported) :: checksOf s.cfg s.inputs.regs i) = some k ∧
        t = raiseStatus k s) ∨
      (firstFailure ((i.selectors.registered, .unsupported) :: checksOf s.cfg s.inputs.regs i) = none ∧
        ((t.phase = s.phase ∧ t = { s with scratch := t.scratch } ∧
            (t.scratch = s.scratch ∨ ∃ sel, i = .benchmark sel ∧
              (t = benchStart s.inputs s ∧ s.scratch.benchRunning = false ∨
                t = benchPass s ∧ s.scratch.benchRunning = true))) ∨
          ∃ (v : WordArray) (r : Regs) (l u c : Word),
            t = complete l u c { s with
              dmem := memWrite s.dmem s.inputs.regs.dstBase.toNat v, regs := r } ∧
            (v.length ≤ s.inputs.regs.dstCap.toNat ∧
                s.inputs.regs.dstBase.toNat + v.length ≤ s.cfg.dmemWords.toNat ∨ v = []) ∧
            r = { s.regs with
              mode := r.mode, nonce := r.nonce, counter := r.counter, ctBase := r.ctBase
              ctLen := r.ctLen, nb := r.nb })) := by
  cases i <;> simp only [exec, checksOf, Instr.selectors] at h ⊢
  case hash =>
    rcases execHash_cases h with h | ⟨hn, rfl⟩
    · exact .inl h
    · refine .inr ⟨hn, .inr ⟨_, _, _, _, _, rfl, .inl ?_, rfl⟩⟩
      simp [firstFailure_eq_none, hashChecks, dstInRange, inRange, dstHolds] at hn
      simp; omega
  case hmac =>
    rcases execHmac_cases h with h | ⟨hn, rfl⟩
    · exact .inl h
    · refine .inr ⟨hn, .inr ⟨_, _, _, _, _, rfl, .inl ?_, rfl⟩⟩
      simp [firstFailure_eq_none, hmacChecks, dstInRange, inRange, dstHolds] at hn
      simp; omega
  case ofbEnc sel =>
    cases h
    rcases ofbCommand_cases sel s with ⟨k, h, e⟩ | ⟨hn, e⟩ <;> rw [e]
    · exact .inl ⟨k, h, rfl⟩
    · refine .inr ⟨hn, .inr ⟨_, _, _, _, _, rfl, .inl ?_, rfl⟩⟩
      simp [firstFailure_eq_none, ofbChecks, dstInRange, inRange, dstHolds] at hn
      simp; omega
  case ofbDec sel =>
    cases h
    rcases ofbCommand_cases sel s with ⟨k, h, e⟩ | ⟨hn, e⟩ <;> rw [e]
    · exact .inl ⟨k, h, rfl⟩
    · refine .inr ⟨hn, .inr ⟨_, _, _, _, _, rfl, .inl ?_, rfl⟩⟩
      simp [firstFailure_eq_none, ofbChecks, dstInRange, inRange, dstHolds] at hn
      simp; omega
  case generate sel =>
    rcases execGenerate_cases h with h | ⟨hn, rfl⟩
    · exact .inl h
    · refine .inr ⟨hn, ?_⟩
      rcases finishGenerate_cases s.inputs.srca s with ⟨-, e⟩ | ⟨p, c, hg, e⟩ <;> rw [e]
      · exact .inl ⟨rfl, rfl, .inl rfl⟩
      · refine .inr ⟨_, _, _, _, _, rfl, .inl ?_, rfl⟩
        rw [gen_words hg]
        simp [firstFailure_eq_none, generateChecks, dstInRange, inRange, dstHolds] at hn
        omega
  case deriveKey =>
    rcases execDeriveKey_cases h with h | ⟨hn, rfl⟩
    · exact .inl h
    · refine .inr ⟨hn, .inr ⟨_, _, _, _, _, rfl, .inl ?_, rfl⟩⟩
      simp [firstFailure_eq_none, deriveKeyChecks, dstInRange, inRange, dstHolds] at hn
      simp; omega
  case computePw =>
    rcases execComputePw_cases h with h | ⟨hn, ⟨hm, rfl⟩ | ⟨hm, rfl⟩⟩
    · exact .inl h
    · refine .inr ⟨hn, ?_⟩
      rcases finishGenerate_cases (s.inputs.derivedKey s.inputs.regs.nonce) s with ⟨-, e⟩ | ⟨p, c, hg,
          e⟩ <;> rw [e]
      · exact .inl ⟨rfl, rfl, .inl rfl⟩
      · refine .inr ⟨_, _, _, _, _, rfl, .inl ?_, rfl⟩
        rw [gen_words hg]
        simp [firstFailure_eq_none, computePwChecks, hm, computeGeneratedChecks, dstInRange, inRange,
            dstHolds] at hn
        omega
    · refine .inr ⟨hn, .inr ⟨_, _, _, _, _, rfl, .inl ?_, rfl⟩⟩
      simp [firstFailure_eq_none, computePwChecks, hm, computeEncryptedChecks, dstInRange, inRange,
          dstHolds] at hn
      simp; omega
  case encryptPw =>
    rcases execEncryptPw_cases h with h | ⟨hn, rfl⟩
    · exact .inl h
    · refine .inr ⟨hn, .inr ⟨_, _, _, _, _, rfl, .inl ?_, rfl⟩⟩
      simp [firstFailure_eq_none, encryptPwChecks, dstInRange, inRange, dstHolds] at hn
      simp; omega
  case benchmark sel =>
    rcases execBenchmark_cases h with h | ⟨hn, ⟨-, -, rfl⟩ | ⟨hb, -, rfl⟩ | ⟨hb, -, rfl⟩ | ⟨-, -, rfl⟩⟩
    · exact .inl h
    · exact .inr ⟨hn, .inr ⟨[], s.regs, _, _, _, rfl, .inr rfl, rfl⟩⟩
    · exact .inr ⟨hn, .inl ⟨rfl, rfl, .inr ⟨sel, rfl, .inl ⟨rfl, hb⟩⟩⟩⟩
    · exact .inr ⟨hn, .inl ⟨rfl, rfl, .inr ⟨sel, rfl, .inr ⟨rfl, hb⟩⟩⟩⟩
    · exact .inr ⟨hn, .inr ⟨[], s.regs, _, _, _, rfl, .inr rfl, rfl⟩⟩
  case setMode =>
    rcases execSetMode_cases h with h | ⟨hn, ⟨-, -, rfl⟩ | ⟨-, rfl⟩⟩
    · exact .inl h
    · exact .inr ⟨hn, .inr ⟨[], _, _, _, _, rfl, .inr rfl, rfl⟩⟩
    · exact .inr ⟨hn, .inr ⟨[], s.regs, _, _, _, rfl, .inr rfl, rfl⟩⟩
  case bumpNonce =>
    rcases execBumpNonce_cases h with ⟨hn, rfl⟩ | ⟨hn, rfl⟩
    · exact .inl ⟨_, by simp [firstFailure_cons, hn], rfl⟩
    · exact .inr ⟨by simp [firstFailure_cons, hn], .inr ⟨[], _, _, _, _, rfl, .inr rfl, rfl⟩⟩

end Sys2Proof.Machine
end

