-- ==== Sys2Proof/Laws/PerInstr.lean ====
section
/-! SUPPORT. What every command's word says in each field (30_encoding.md R110-R115), one lemma per
constructor. -/

namespace Sys2Proof.Laws

/-- The fields of a packed word are the fields it was packed from (R110). -/
theorem fields_packFields (op : BitVec 8) (sel : Selectors) (m : BitVec 1) :
    fieldOp (packFields op sel m) = op ∧ fieldSelectors (packFields op sel m) = sel ∧
      fieldM (packFields op sel m) = m ∧ fieldRes (packFields op sel m) = 0 := by
  obtain ⟨h, ms, c, g⟩ := sel
  refine ⟨?_, ?_, ?_, ?_⟩
  · apply BitVec.eq_of_getLsbD_eq
    intro i hi
    simp only [fieldOp, packFields, BitVec.getLsbD_extractLsb', BitVec.getLsbD_append]
    simp [hi]
  · simp only [fieldSelectors, Selectors.mk.injEq]
    refine ⟨?_, ?_, ?_, ?_⟩ <;>
    · apply BitVec.eq_of_getLsbD_eq
      intro i hi
      simp only [packFields, BitVec.getLsbD_extractLsb', BitVec.getLsbD_append]
      repeat' split
      all_goals first | omega | (simp only [hi, decide_true, Bool.true_and]; congr 1; omega)
  · apply BitVec.eq_of_getLsbD_eq
    intro i hi
    simp only [fieldM, packFields, BitVec.getLsbD_extractLsb', BitVec.getLsbD_append]
    repeat' split
    all_goals first | omega | (simp only [hi, decide_true, Bool.true_and]; congr 1; omega)
  · apply BitVec.eq_of_getLsbD_eq
    intro i hi
    simp only [fieldRes, packFields, BitVec.getLsbD_extractLsb', BitVec.getLsbD_append]
    repeat' split
    all_goals first | omega | simp

namespace EncodeFields

/-- The word of a command has RES 0, an assigned OP, the command's selectors, and M = 0 unless the
command is SET_MODE, the one with OP 0x0A (R110-R115). -/
def Statement (i : Instr) : Prop :=
  fieldRes (encode i) = 0 ∧ fieldOp (encode i) = i.op ∧ 1 ≤ i.op.toNat ∧ i.op.toNat ≤ 0x0B ∧
    fieldSelectors (encode i) = i.selectors ∧ fieldM (encode i) = i.modeBit ∧
    (i.op ≠ 0x0A → i.modeBit = 0)

/-- The part that no constructor matters to. -/
theorem of_op {i : Instr} (lo : 1 ≤ i.op.toNat) (hi : i.op.toNat ≤ 0x0B)
    (m : i.op ≠ 0x0A → i.modeBit = 0) : Statement i :=
  let h := fields_packFields i.op i.selectors i.modeBit
  ⟨h.2.2.2, h.1, lo, hi, h.2.1, h.2.2.1, m⟩

theorem hash (sel : Selectors) : Statement (.hash sel) :=
  of_op (show 1 ≤ (0x01 : BitVec 8).toNat by decide) (show (0x01 : BitVec 8).toNat ≤ 0x0B by decide)
    fun _ => rfl

theorem hmac (sel : Selectors) : Statement (.hmac sel) :=
  of_op (show 1 ≤ (0x02 : BitVec 8).toNat by decide) (show (0x02 : BitVec 8).toNat ≤ 0x0B by decide)
    fun _ => rfl

theorem ofbEnc (sel : Selectors) : Statement (.ofbEnc sel) :=
  of_op (show 1 ≤ (0x03 : BitVec 8).toNat by decide) (show (0x03 : BitVec 8).toNat ≤ 0x0B by decide)
    fun _ => rfl

theorem ofbDec (sel : Selectors) : Statement (.ofbDec sel) :=
  of_op (show 1 ≤ (0x04 : BitVec 8).toNat by decide) (show (0x04 : BitVec 8).toNat ≤ 0x0B by decide)
    fun _ => rfl

theorem generate (sel : Selectors) : Statement (.generate sel) :=
  of_op (show 1 ≤ (0x05 : BitVec 8).toNat by decide) (show (0x05 : BitVec 8).toNat ≤ 0x0B by decide)
    fun _ => rfl

theorem deriveKey (sel : Selectors) : Statement (.deriveKey sel) :=
  of_op (show 1 ≤ (0x06 : BitVec 8).toNat by decide) (show (0x06 : BitVec 8).toNat ≤ 0x0B by decide)
    fun _ => rfl

theorem computePw (sel : Selectors) : Statement (.computePw sel) :=
  of_op (show 1 ≤ (0x07 : BitVec 8).toNat by decide) (show (0x07 : BitVec 8).toNat ≤ 0x0B by decide)
    fun _ => rfl

theorem encryptPw (sel : Selectors) : Statement (.encryptPw sel) :=
  of_op (show 1 ≤ (0x08 : BitVec 8).toNat by decide) (show (0x08 : BitVec 8).toNat ≤ 0x0B by decide)
    fun _ => rfl

theorem benchmark (sel : Selectors) : Statement (.benchmark sel) :=
  of_op (show 1 ≤ (0x09 : BitVec 8).toNat by decide) (show (0x09 : BitVec 8).toNat ≤ 0x0B by decide)
    fun _ => rfl

theorem setMode (sel : Selectors) (target : Mode) : Statement (.setMode sel target) :=
  of_op (show 1 ≤ (0x0A : BitVec 8).toNat by decide) (show (0x0A : BitVec 8).toNat ≤ 0x0B by decide)
    fun h => absurd rfl h

theorem bumpNonce (sel : Selectors) : Statement (.bumpNonce sel) :=
  of_op (show 1 ≤ (0x0B : BitVec 8).toNat by decide) (show (0x0B : BitVec 8).toNat ≤ 0x0B by decide)
    fun _ => rfl

end EncodeFields

end Sys2Proof.Laws
end

