-- ==== Sys2Proof/Machine/HostNotation.lean ====
section
/-! DEFINITION. The host notation (spec 30_encoding.md R128-R130): a line of a host program and the bus
transactions it expands to, as events of the inbox. It is notation only (D42): no step reads it. The loop
of `wait` is the host's own control flow, so its line says which way it went (log entry 12). -/

namespace Sys2Proof.Machine

/-- A line of a host program. -/
inductive HostLine where
  /-- `wr NAME, v` (R128). -/
  | wr (r : Reg) (v : Word)
  /-- `rd NAME` (R128). -/
  | rd (r : Reg)
  /-- `wm j, v` (R128). -/
  | wm (j : Nat) (v : Word)
  /-- `rm j` (R128). -/
  | rm (j : Nat)
  /-- `cmd MNEMONIC …`, assembled by R129 (R130). -/
  | cmd (i : Instr)
  /-- `wait`: `early` reads of STATUS, then `turns` turns of the core, then the last read (R130). -/
  | wait (early turns : Nat)
  /-- `run MNEMONIC …`: `cmd` then `wait` (R130). -/
  | run (i : Instr) (early turns : Nat)
  /-- `ack` (R130). -/
  | ack
  /-- `ack ie` (R130). -/
  | ackIe
  /-- `wmv j, [w0, …]` (R130). -/
  | wmv (j : Nat) (ws : WordArray)
  /-- `srca b, n` (R130). -/
  | srca (b n : Word)
  /-- `srcb b, n` (R130). -/
  | srcb (b n : Word)
  /-- `srcc b, n` (R130). -/
  | srcc (b n : Word)
  /-- `dst b, n` (R130). -/
  | dst (b n : Word)
  /-- `xsym b, u` (R130). -/
  | xsym (b u : Word)
  /-- `text j, "s"` (R130). -/
  | text (j : Nat) (t : Text)
  deriving DecidableEq, Repr

/-- A 64-bit write to a register (R128). -/
def regWrite (c : Config) (r : Reg) (v : Word) : Event := .write 64 (c.coreBase.toNat + 8 * r.index) v

/-- A 64-bit read of a register (R128). -/
def regRead (c : Config) (r : Reg) : Event := .read 64 (c.coreBase.toNat + 8 * r.index)

/-- A 64-bit write to a DMEM word (R128). -/
def wordWrite (c : Config) (j : Nat) (v : Word) : Event := .write 64 (c.coreBase.toNat + dmemAddr j) v

/-- A 64-bit read of a DMEM word (R128). -/
def wordRead (c : Config) (j : Nat) : Event := .read 64 (c.coreBase.toNat + dmemAddr j)

/-- Writes of consecutive DMEM words from j up (R130). -/
def wordWrites (c : Config) : Nat → WordArray → List Event
  | _, [] => []
  | j, w :: ws => wordWrite c j w :: wordWrites c (j + 1) ws

/-- The transactions of one way through `wait` (R130). -/
def waitEvents (c : Config) (early turns : Nat) : List Event :=
  List.replicate early (regRead c .status) ++ List.replicate turns .core ++ [regRead c .status]

/-- The transactions a line expands to (R128, R130). -/
def HostLine.expand (c : Config) : HostLine → List Event
  | .wr r v => [regWrite c r v]
  | .rd r => [regRead c r]
  | .wm j v => [wordWrite c j v]
  | .rm j => [wordRead c j]
  | .cmd i => [regWrite c .cmd (encode i)]
  | .wait early turns => waitEvents c early turns
  | .run i early turns => regWrite c .cmd (encode i) :: waitEvents c early turns
  | .ack => [regWrite c .ctrl 2]
  | .ackIe => [regWrite c .ctrl 3]
  | .wmv j ws => wordWrites c j ws
  | .srca b n => [regWrite c .srcaBase b, regWrite c .srcaLen n]
  | .srcb b n => [regWrite c .srcbBase b, regWrite c .srcbLen n]
  | .srcc b n => [regWrite c .srccBase b, regWrite c .srccLen n]
  | .dst b n => [regWrite c .dstBase b, regWrite c .dstCap n]
  | .xsym b u => [regWrite c .descXbase b, regWrite c .descXunits u]
  | .text j t => wordWrites c j (rawEncode t)

/-- The inbox of a whole host program. -/
def hostProgram (c : Config) (lines : List HostLine) : List Event := lines.flatMap (HostLine.expand c)

end Sys2Proof.Machine
end

