-- ==== Sys2Proof/Tests/Slice0.lean ====
section
/-! SUPPORT. Tests. The expected values are the spec's (95_test_vectors.md, named in each docstring, or
R110/R111 written out bit by bit); none is the model's own answer. The witnesses at the end show, for each
obligation with hypotheses, a state and operands that meet them all. -/

open Sys2Proof Sys2Proof.Machine

namespace Sys2Proof.Tests

-- One theorem at a time: many at once need more threads than the memory limit allows.
set_option Elab.async false

/-! ### Well-formedness: each role's check refuses an unregistered selector (R112) -/

theorem test_wellFormed_refuses_hsel : (Instr.hash ⟨1, 0, 0, 0⟩).wellFormed = false := by decide
theorem test_wellFormed_refuses_msel : (Instr.bumpNonce ⟨0, 1, 0, 0⟩).wellFormed = false := by decide
theorem test_wellFormed_refuses_csel : (Instr.setMode ⟨0, 0, 8, 0⟩ .generated).wellFormed = false := by decide
theorem test_wellFormed_refuses_gsel : (Instr.computePw ⟨0, 0, 0, 15⟩).wellFormed = false := by decide
theorem test_wellFormed_accepts : (Instr.hash ⟨0, 0, 0, 0⟩).wellFormed = true := by decide

/-! ### Decoding: each word is written out as RES, M, GSEL, CSEL, MSEL, HSEL, OP (R110, R111) -/

/-- A command word from the eight OP bits of R111, every other field 0. -/
def plainWord (op : BitVec 8) : Word := 0b00000000_00000000_00000000_00000000_00000000_00000000_00000000#56 ++ op

theorem test_decode_hash : decode (plainWord 0b00000001) = .command (.hash ⟨0, 0, 0, 0⟩) := by decide
theorem test_decode_hmac : decode (plainWord 0b00000010) = .command (.hmac ⟨0, 0, 0, 0⟩) := by decide
theorem test_decode_ofb_enc : decode (plainWord 0b00000011) = .command (.ofbEnc ⟨0, 0, 0, 0⟩) := by decide
theorem test_decode_ofb_dec : decode (plainWord 0b00000100) = .command (.ofbDec ⟨0, 0, 0, 0⟩) := by decide
theorem test_decode_generate : decode (plainWord 0b00000101) = .command (.generate ⟨0, 0, 0, 0⟩) := by decide
theorem test_decode_derive_key : decode (plainWord 0b00000110) = .command (.deriveKey ⟨0, 0, 0, 0⟩) := by
  decide
theorem test_decode_compute_pw : decode (plainWord 0b00000111) = .command (.computePw ⟨0, 0, 0, 0⟩) := by
  decide
theorem test_decode_encrypt_pw : decode (plainWord 0b00001000) = .command (.encryptPw ⟨0, 0, 0, 0⟩) := by
  decide
theorem test_decode_benchmark : decode (plainWord 0b00001001) = .command (.benchmark ⟨0, 0, 0, 0⟩) := by
  decide
theorem test_decode_set_mode :
    decode (plainWord 0b00001010) = .command (.setMode ⟨0, 0, 0, 0⟩ .generated) := by decide
/-- Bit 24 is M. -/
theorem test_decode_set_mode_encrypted :
    decode 0b00000001_00000000_00000000_00001010 = .command (.setMode ⟨0, 0, 0, 0⟩ .encrypted) := by decide
theorem test_decode_bump_nonce : decode (plainWord 0b00001011) = .command (.bumpNonce ⟨0, 0, 0, 0⟩) := by
  decide
/-- GSEL 4, CSEL 3, MSEL 2, HSEL 1: the selectors' places. -/
theorem test_decode_selectors :
    decode 0b0_0100_0011_0010_0001_00000111 = .command (.computePw ⟨1, 2, 3, 4⟩) := by decide

/-- 95_test_vectors.md section 2.8: the ILLEGAL words. -/
theorem test_classify_illegal :
    [0x0000000000000000, 0x0000000000000100, 0x000000000000000C, 0x00000000000000FF, 0x0000000002000001,
      0x8000000000000001, 0x0000000001000001].all (fun w => classify w == .illegal) = true := by
  decide +kernel

/-- 95_test_vectors.md section 2.8: the UNSUPPORTED words. -/
theorem test_classify_unsupported :
    [0x0000000000000101, 0x000000000000100B, 0x0000000000F00007].all
      (fun w => classify w == .unsupported) = true := by decide +kernel

theorem test_encode_set_mode : encode (.setMode ⟨0, 0, 0, 0⟩ .encrypted) = 0x000000000100000A := by decide
theorem test_decodeTableWord : decodeTableWord 64 0x08 = some (.encryptPw ⟨0, 0, 0, 0⟩) := by decide

/-! ### Small states -/

/-- "password" at 0, "example.com" at 8, "abc" at 16, each raw-encoded (95_test_vectors.md section 2.5). -/
def image : Memory :=
  memWrite (memWrite (memWrite [] 0 [0x0070006100730073, 0x0077006f00720064]) 8
    [0x006500780061006d, 0x0070006c0065002e, 0x0063006f006d0000]) 16 [0x0061006200630000]

/-- Master password, service name and plaintext in SRCA, SRCB and SRCC, 16 words at 32 for the result. -/
def operands : Regs :=
  { Regs.reset with
    srcaBase := 0, srcaLen := 2, srcbBase := 8, srcbLen := 3, srccBase := 16, srccLen := 1
    dstBase := 32, dstCap := 16 }

/-- The operands with an 8-word key in SRCA, as the cipher and the generator take it. -/
def keyed : Regs := { operands with srcaLen := 8 }

/-- The core BUSY with a command of this page, its snapshot just taken. -/
def running (r : Regs) (m : Memory) : State :=
  { State.reset with regs := r, dmem := m, phase := .busy { regs := r, dmem := m } }

/-- The page with this command word in CMD. -/
def withCmd (r : Regs) (w : Word) : Regs := { r with cmd := w }

/-- The state an outcome goes on to, else the given one. -/
def nextOr (s : State) : Host.Outcome State Fault Refusal → State
  | .next t => t
  | .fault _ => s
  | .refused _ => s

/-- The state after a command. -/
def after (i : Instr) (s : State) : State := nextOr s (exec i s)

/-- Whether an outcome goes on. -/
def goesOn : Host.Outcome State Fault Refusal → Bool
  | .next _ => true
  | .fault _ => false
  | .refused _ => false

theorem exec_after {i : Instr} {s : State} (h : goesOn (exec i s) = true) :
    exec i s = .next (after i s) := by
  unfold after
  generalize exec i s = o at h ⊢
  cases o with
  | next t => rfl
  | fault f => cases h
  | refused r => cases h

/-- No selector set. -/
def plain : Selectors := ⟨0, 0, 0, 0⟩

/-- The key of V-OFB and V-GEN: SHA512([]), V-SHA-1. -/
def digestOfNothing : WordArray :=
  [0xcf83e1357eefb8bd, 0xf1542850d66d8007, 0xd620e4050b5715dc, 0x83f4a921d36ce9ce,
   0x47d0d13c5d85f2b0, 0xff8318d2877eec2f, 0x63b931bd47417a81, 0xa538327af927da3e]

/-! ### The constants of the hash, from the primes the spec names -/

/-- The first n primes from p up, of so many numbers tried. -/
def primesFrom : Nat → Nat → List Nat
  | 0, _ => []
  | fuel + 1, p =>
    if (List.range p).all (fun d => d < 2 || p % d != 0) then p :: primesFrom fuel (p + 1)
    else primesFrom fuel (p + 1)

/-- `k` is `floor(root * 2^64) mod 2^64` for the root of p of this degree, whose integer part is `whole`. -/
def isRootFraction (degree p whole : Nat) (k : Word) : Bool :=
  let r := whole * 2 ^ 64 + k.toNat
  r ^ degree ≤ p * 2 ^ (64 * degree) && p * 2 ^ (64 * degree) < (r + 1) ^ degree

/-- R167: the cube roots of the first 80 primes, 2 to 409; each has one integer part from 1 to 7. -/
theorem test_round_constants :
    let primes := primesFrom 408 2
    primes.length = 80 ∧ roundConstants.length = 80 ∧
      (primes.zip roundConstants).all (fun (p, k) =>
        (List.range 8).any fun whole => isRootFraction 3 p whole k) = true := by decide +kernel

/-- R168: the square roots of the first 8 primes, 2 to 19. -/
theorem test_initial_hash :
    let primes := primesFrom 18 2
    primes.length = 8 ∧ initialHash.length = 8 ∧
      (primes.zip initialHash).all (fun (p, k) =>
        (List.range 5).any fun whole => isRootFraction 2 p whole k) = true := by decide +kernel

/-! ### Commands -/

/-- V-SHA-1, with SRCA = (256, 0), a valid empty region. -/
theorem test_hash_empty :
    memRead (after (.hash plain) (running { operands with srcaBase := 256, srcaLen := 0 } [])).dmem 32 8 =
      digestOfNothing := by decide +kernel

/-- 95_test_vectors.md section 2.1: 63 words exceed the padded buffer, ALLOC. -/
theorem test_hash_too_long :
    ((after (.hash plain) (running { operands with srcaLen := 63 } [])).regs.code,
      (after (.hash plain) (running { operands with srcaLen := 62 } [])).regs.code) = (.alloc, .ok) := by
  decide +kernel

/-- V-HMAC-1, the first word. -/
theorem test_hmac_empty :
    (after (.hmac plain) (running { operands with srcaLen := 0, srcbLen := 0 } [])).dmem.readWord 32 =
      0xb936cee86c9f87aa := by decide +kernel

/-- V-HMAC-5: a key longer than a block is hashed first. -/
theorem test_hmac_long_key :
    (hmac ((List.range 17).map fun i => BitVec.ofNat 64 (i + 1)) []).getD 0 0 = 0x965e207b9401b391 := by
  decide +kernel

/-- V-OFB-2. -/
theorem test_ofb_enc_one_word :
    (after (.ofbEnc plain) (running { keyed with srcbBase := 20, srcbLen := 1 }
      (memWrite (memWrite [] 0 digestOfNothing) 20 [1]))).dmem.readWord 32 = 0x826df068457df5dc := by
  decide +kernel

/-- V-OFB-2 the other way. -/
theorem test_ofb_dec_one_word :
    (after (.ofbDec plain) (running { keyed with srcbBase := 20, srcbLen := 1 }
      (memWrite (memWrite [] 0 digestOfNothing) 20 [0x826df068457df5dc]))).dmem.readWord 32 = 1 := by
  decide +kernel

/-- 95_test_vectors.md section 2.3: SRCA_LEN = 7 is MALFORMED, DST_CAP = n − 1 is ALLOC. -/
theorem test_ofb_checks :
    ((after (.ofbEnc plain) (running { keyed with srcaLen := 7 } [])).regs.code,
      (after (.ofbDec plain) (running { keyed with srcbLen := 17 } [])).regs.code) =
      (.malformed, .alloc) := by decide +kernel

/-- V-GEN-1, as R255 lays units out: "xcninhx6nstejsb". -/
theorem test_generate_defaults :
    memRead (after (.generate plain) (running keyed (memWrite [] 0 digestOfNothing))).dmem 32 4 =
      [0x00780063006e0069, 0x006e006800780036, 0x006e007300740065, 0x006a007300620000] := by
  decide +kernel

/-- V-GEN-12, V-GEN-13: UNMATCHABLE before any computation. -/
theorem test_generate_unmatchable :
    ((after (.generate plain) (running { keyed with caps := 1 } [])).regs.code,
      (after (.generate plain)
        (running { keyed with caseSens := true, caps := 3, digits := 3, maxlen := 5 } [])).regs.code) =
      (.unmatchable, .unmatchable) := by decide +kernel

/-- V-DRV-4: nonce 1, no iterations; the first two words. -/
theorem test_derive_key :
    memRead (after (.deriveKey plain) (running { operands with nonce := 1 } image)).dmem 32 2 =
      [0x74747f0851509c1a, 0x186aa87d24dd7968] := by decide +kernel

/-- V-PW-2: "cbhrr2u28zte7yc". -/
theorem test_compute_pw_generated :
    memRead (after (.computePw plain) (running operands image)).dmem 32 4 =
      [0x0063006200680072, 0x0072003200750032, 0x0038007a00740065, 0x0037007900630000] := by
  decide +kernel

/-- V-DEC-1: the plaintext "abc" and its 3 units. -/
theorem test_compute_pw_encrypted :
    let t := after (.computePw plain) (running { operands with mode := .encrypted, ctBase := 20, ctLen := 1 }
      (memWrite image 20 [0x0e663f404b0fa3b5]))
    (t.dmem.readWord 32, t.regs.resLen, t.regs.resUnits) = (0x0061006200630000, 1, 3) := by
  decide +kernel

/-- V-ENC-1: the ciphertext and the descriptor. -/
theorem test_encrypt_pw_first :
    let t := after (.encryptPw plain) (running operands image)
    (t.dmem.readWord 32, t.regs.mode, t.regs.nonce, t.regs.ctBase, t.regs.ctLen, t.regs.nb) =
      (0x0e663f404b0fa3b5, .encrypted, 0, 32, 1, false) := by decide +kernel

/-- V-ENC-2: a replaced ciphertext uses the next nonce. -/
theorem test_encrypt_pw_again :
    let t := after (.encryptPw plain) (running { operands with mode := .encrypted } image)
    (t.dmem.readWord 32, t.regs.nonce) = (0xab99433d4619e9b2, 1) := by decide +kernel

/-- V-BEN-1. -/
theorem test_benchmark_no_budget :
    let t := after (.benchmark plain) (running operands image)
    (t.regs.code, t.regs.resCount, t.phase) = (.ok, 0, .idle) := by decide +kernel

/-- V-BEN-3. -/
theorem test_benchmark_outside :
    let t := after (.benchmark plain) (running { operands with srcbBase := 255, srcbLen := 2 } image)
    (t.regs.code, t.regs.resCount) = (.malformed, 0) := by decide +kernel

/-- V-MODE-1. -/
theorem test_set_mode_leaves :
    let t := after (.setMode plain .generated)
      (running { operands with mode := .encrypted, nonce := 5, ctBase := 32, ctLen := 1 } [])
    (t.regs.mode, t.regs.nonce, t.regs.ctBase, t.regs.ctLen, t.regs.nb) = (.generated, 6, 0, 0, false) := by
  decide +kernel

/-- V-MODE-2, V-MODE-4. -/
theorem test_set_mode_bumped :
    ((after (.setMode plain .generated)
        (running { operands with mode := .encrypted, nonce := 5, nb := true } [])).regs.nonce,
      (after (.setMode plain .encrypted) (running operands [])).regs.code) = (5, .malformed) := by
  decide +kernel

/-- V-BUMP-1. -/
theorem test_bump_nonce_encrypted :
    let t := after (.bumpNonce plain) (running { operands with mode := .encrypted, nonce := 5 } [])
    (t.regs.nonce, t.regs.nb, t.regs.mode) = (6, true, .encrypted) := by decide +kernel

/-- V-BUMP-3: the wrap. -/
theorem test_bump_nonce_wraps :
    let t := after (.bumpNonce plain) (running { operands with nonce := 0xffffffffffffffff } [])
    (t.regs.nonce, t.regs.nb) = (0, false) := by decide +kernel

/-! ### Texts, host accesses -/

/-- RAWLEN's examples (95_test_vectors.md section 2.6). -/
theorem test_rawLen :
    (rawLen [], rawLen [0x0061006200630000], rawLen [0x0061000000000000, 0], rawLen [0x0061006200630064]) =
      (0, 3, 4, 4) := by decide +kernel

/-- V-RAW: "abcde". -/
theorem test_raw_encode :
    rawEncode [0x61, 0x62, 0x63, 0x64, 0x65] = [0x0061006200630064, 0x0065000000000000] := by decide +kernel

/-- V-HEX: two words and back, an uppercase digit, a comma for the space. -/
theorem test_hex :
    hexEncode [1, 2] = some "0x0000000000000001 0000000000000002".toList ∧
      hexDecode "0x0000000000000001 0000000000000002".toList = some [1, 2] ∧
      hexDecode "0x00000000000000AB".toList = none ∧
      hexDecode "0x0000000000000001,0000000000000002".toList = none ∧ hexLen 17 = 0 ∧ hexLen 19 = 0 := by
  decide +kernel

/-- R80: DMEM word 2 is at CORE_BASE + 0x10010; P1's first read gives ID. -/
theorem test_host_accesses :
    (nextOr State.reset (step { State.reset with inbox := [.write 64 0x10010 7] })).dmem.readWord 2 = 7 ∧
      (nextOr State.reset (step { State.reset with inbox := [.read 64 0] })).observed =
        [0x4841534849534801] := by decide +kernel

/-- STATUS after an ILLEGAL completion with IE = 1 reads 0x506 (95_test_vectors.md section 2.8). -/
theorem test_status_illegal :
    (nextOr State.reset (step (running (withCmd { operands with ie := true } 0) []))).statusWord = 0x506 := by
  decide +kernel

/-- The table word of BUMP_NONCE runs as the first instruction after reset. -/
theorem test_withFetchWord :
    (nextOr State.reset (step (State.reset.withFetchWord 64 0x0B))).regs.nonce = 1 := by decide +kernel

/-! ### Witnesses: the hypotheses of the obligations can be met -/

/-- An IDLE core whose CORE_BASE is not 0, with one event to come. -/
def idleWith (e : Event) : State :=
  { State.resetOf { Config.vectorInstance with coreBase := 0x40000000 } with inbox := [e] }

/-- The same core BUSY. -/
def busyWith (e : Event) : State :=
  { idleWith e with regs := operands, phase := .busy { regs := operands, dmem := [] } }

theorem witness_EncodeOfDecode : decode 0x000000000100000A = .command (.setMode plain .encrypted) := by decide

/-- A word for each clause, at the clauses' edges. -/
theorem witness_ClassifyFollowsRule116 :
    (0x2000000 : Word).toNat / 2 ^ 25 ≠ 0 ∧ (0x0C : Word).toNat % 256 = 0x0C ∧
      (0x100000B : Word).toNat / 2 ^ 24 % 2 = 1 ∧ (0x10A : Word).toNat / 2 ^ 8 % 2 ^ 16 ≠ 0 ∧
      [0x2000000, 0, 0x0C, 0x100000B, 0x10A, 0xF0000B, 0x100000A, 1].map classify =
        [.illegal, .illegal, .illegal, .illegal, .unsupported, .unsupported,
          .command (.setMode plain .encrypted), .command (.hash plain)] := by decide +kernel

theorem witness_RawEncodingPlacesUnits :
    3 < 4 ∧ 1 < ceilDiv ([1, 2, 3, 4, 5] : Text).length 4 := by decide

/-- A last word of zeros (R122's example), one that ends in one zero unit, and one that ends in none; the
last unit of a decoding; two texts that do not end in NUL. -/
theorem witness_RawDecodeOfEncode :
    ((0 : Word).toNat % 2 ^ (16 * 4) = 0 ∧
      ((0x0061006200630000 : Word).toNat % 2 ^ (16 * 1) = 0 ∧
        (0x0061006200630000 : Word).toNat / 2 ^ (16 * 1) % 2 ^ 16 ≠ 0) ∧
      (1 : Word).toNat % 2 ^ (16 * 0) = 0 ∧ (1 : Word).toNat / 2 ^ (16 * 0) % 2 ^ 16 ≠ 0) ∧
    (3 < 4 ∧ 4 * 0 + 3 < rawLen [0x0061000000000000, 0]) ∧
    ([] : Text).getLast? ≠ some 0 ∧ ([0, 5] : Text).getLast? ≠ some 0 := by decide

/-- An array of one word, and a text that decodes. -/
theorem witness_HexDecodeOfEncode :
    ([0] : WordArray) ≠ [] ∧ hexDecode "0x0000000000000001 0000000000000002".toList = some [1, 2] :=
  ⟨by decide, test_hex.2.1⟩

/-- Another width, a wrong alignment, and the edges of the two holes. -/
theorem witness_UndefinedAccessHasNoEffect :
    let c := (idleWith .core).cfg
    (32 ≠ 64 ∧ 4 % 8 ≠ 0 ∧ 0x200 ≤ 0x200 ∧ 0xFFF8 < 0x10000 ∧
      0x10000 + 8 * c.dmemWords.toNat ≤ 0x10800) ∧
    (idleWith (.write 64 0x40010800 1)).inbox = [.write 64 (c.coreBase.toNat + 0x10800) 1] ∧
    (idleWith (.read 32 0x40000000)).inbox = [.read 32 (c.coreBase.toNat + 0)] := by decide

theorem witness_IdleDmemAccess :
    let s := idleWith (.write 64 (0x40000000 + 0x10000 + 8 * 255) 1)
    let r := idleWith (.read 64 (0x40000000 + 0x10000 + 8 * 0))
    s.dmem.wf ∧ s.phase = .idle ∧ 255 < s.cfg.dmemWords.toNat ∧
      s.inbox = [.write 64 (s.cfg.coreBase.toNat + 0x10000 + 8 * 255) 1] ∧
      r.inbox = [.read 64 (r.cfg.coreBase.toNat + 0x10000 + 8 * 0)] := by decide

/-- Register indices 0 and 63, DMEM words 0 and 255, and a read of the last register. -/
theorem witness_BusyAccess :
    (busyWith .core).phase = .busy { regs := operands, dmem := [] } ∧
    0 ≠ Reg.ctrl.index ∧ 63 < 64 ∧ 63 ≠ Reg.ctrl.index ∧
    (busyWith (.write 64 (0x40000000 + 8 * 63) 1)).inbox =
      [.write 64 ((busyWith .core).cfg.coreBase.toNat + 8 * 63) 1] ∧
    255 < (busyWith .core).cfg.dmemWords.toNat ∧
    (busyWith (.write 64 (0x40000000 + 0x10000 + 8 * 255) 1)).inbox =
      [.write 64 ((busyWith .core).cfg.coreBase.toNat + 0x10000 + 8 * 255) 1] ∧
    (busyWith (.read 64 (0x40000000 + 0x10000 + 8 * 0))).inbox =
      [.read 64 ((busyWith .core).cfg.coreBase.toNat + 0x10000 + 8 * 0)] ∧
    (busyWith (.read 64 (0x40000000 + 8 * 0x2C))).inbox =
      [.read 64 ((busyWith .core).cfg.coreBase.toNat + 8 * Reg.descFlags.index)] := by decide

/-- A read of the first and of the last register, IDLE and BUSY; writes of a read-only register and of a
partly reserved one. -/
theorem witness_IdleRegisterWrite :
    ((idleWith (.read 64 0x40000000)).inbox =
        [.read 64 ((idleWith .core).cfg.coreBase.toNat + 8 * Reg.id.index)] ∧
      (busyWith (.read 64 0x40000160)).inbox =
        [.read 64 ((busyWith .core).cfg.coreBase.toNat + 8 * Reg.descFlags.index)]) ∧
    let s := idleWith (.write 64 (0x40000000 + 8 * 0x0A) 3)
    let u := idleWith (.write 64 (0x40000000 + 8 * 0x24) 0xFFFFFFFFFFFFFFFF)
    s.phase = .idle ∧ Reg.status ≠ .cmd ∧ Reg.status ≠ .ctrl ∧ s.inbox = [writeOf s .status 3] ∧
      u.phase = .idle ∧ Reg.descCaps ≠ .cmd ∧ Reg.descCaps ≠ .ctrl ∧
      u.inbox = [writeOf u .descCaps 0xFFFFFFFFFFFFFFFF] := by decide

/-- The edges of the four ranges, while IDLE and BUSY. -/
theorem witness_ReservedIndices :
    (0x05 ≤ 0x05 ∧ 0x07 ≤ 0x07 ∧ 0x0C ≤ 0x0C ∧ 0x0F ≤ 0x0F ∧ 0x1C ≤ 0x1C ∧ 0x1F ≤ 0x1F ∧ 0x2D ≤ 0x2D ∧
      0x3F ≤ 0x3F) ∧
    (idleWith (.read 64 (0x40000000 + 8 * 0x05))).inbox =
      [.read 64 ((idleWith .core).cfg.coreBase.toNat + 8 * 0x05)] ∧
    (busyWith (.write 64 (0x40000000 + 8 * 0x3F) 1)).inbox =
      [.write 64 ((busyWith .core).cfg.coreBase.toNat + 8 * 0x3F) 1] ∧
    [0x05, 0x07, 0x0C, 0x0F, 0x1C, 0x1F, 0x2D, 0x3F].map Reg.ofIndex = List.replicate 8 none := by decide

theorem witness_TimeMovesByTicksAlone :
    (idleWith (.tick 5)).inbox = [.tick 5] ∧
      step (idleWith .core) = .next { idleWith .core with inbox := [] } ∧
      (∀ n, (idleWith .core).inbox.head? ≠ some (.tick n)) ∧
      (idleWith .core).inbox.head? ≠ some .reset := by
  refine ⟨rfl, rfl, fun n h => ?_, by decide⟩
  simp [idleWith, State.resetOf] at h

theorem witness_StepRunsTheDecodedCommand :
    let s := running (withCmd operands 1) image
    s.phase = .busy { regs := withCmd operands 1, dmem := image } ∧
      decode s.regs.cmd = .command (.hash plain) ∧ s.inbox = [] ∧
      ({ s with inbox := [.core] } : State).inbox = [.core] := by decide +kernel

theorem witness_AcceptanceLatchesTheCommand :
    let s := idleWith (.write 64 0x40000040 0xFF)
    s.phase = .idle ∧ s.inbox = [writeOf s .cmd 0xFF] := by decide

/-- ACK written as 0 and as 1. -/
theorem witness_CtrlWriteInBothPhases :
    (idleWith (.write 64 0x40000048 1)).inbox = [writeOf (idleWith .core) .ctrl 1] ∧
      (1 : Word).getLsbD 1 = false ∧
      (busyWith (.write 64 0x40000048 2)).inbox = [writeOf (busyWith .core) .ctrl 2] ∧
      (2 : Word).getLsbD 1 = true := by decide

/-- OP 0 and 0x0C, reserved bit 25, and M with BUMP_NONCE; an empty inbox and one with a core turn. -/
theorem witness_IllegalWordsCompleteIllegal :
    (running (withCmd operands 0x0C) []).phase = .busy { regs := withCmd operands 0x0C, dmem := [] } ∧
      (running (withCmd operands 0x0C) []).inbox = [] ∧
      ¬ (1 ≤ (running (withCmd operands 0x0C) []).regs.cmd.toNat % 256 ∧
        (running (withCmd operands 0x0C) []).regs.cmd.toNat % 256 ≤ 0x0B) ∧
      ({ running (withCmd operands 0x0C) [] with inbox := [.core] } : State).inbox = [.core] ∧
      ¬ (1 ≤ (0 : Word).toNat % 256) ∧ (0x2000001 : Word).toNat / 2 ^ 25 ≠ 0 ∧
      (0x100000B : Word).toNat / 2 ^ 24 % 2 = 1 ∧ (0x100000B : Word).toNat % 256 ≠ 0x0A := by decide

theorem witness_UnregisteredSelectorIsUnsupported :
    (running operands []).phase = .busy { regs := operands, dmem := [] } ∧
      (Instr.bumpNonce ⟨1, 0, 0, 0⟩).selectors.hsel ≠ 0 ∧ (Instr.hash ⟨0, 1, 0, 0⟩).selectors.msel ≠ 0 ∧
      (Instr.hmac ⟨0, 0, 8, 0⟩).selectors.csel ≠ 0 ∧
      (Instr.computePw ⟨0, 0, 0, 15⟩).selectors.gsel ≠ 0 := by decide

/-- One word past the end; caps without case; one word of capacity too few. -/
theorem witness_FailuresFollowThePrecedence :
    let c := Config.vectorInstance
    let far := { keyed with dstBase := 253 }
    let caps := { keyed with caps := 1 }
    let small := { keyed with dstCap := 3 }
    (Instr.generate plain).wellFormed = true ∧
      (running far []).phase = .busy { regs := far, dmem := [] } ∧ MalformedCause c far (.generate plain) ∧
      ¬ MalformedCause c caps (.generate plain) ∧ UnmatchableCause caps (.generate plain) ∧
      ¬ MalformedCause c small (.generate plain) ∧ ¬ UnmatchableCause small (.generate plain) ∧
      AllocCause c small (.generate plain) := by
  simp only [MalformedCause, UnmatchableCause, Unmatchable, AllocCause, Outside]
  decide +kernel

theorem witness_FailureChangesNothingElse :
    let s := running { operands with dstCap := 7 } image
    exec (.hash plain) s = .next (after (.hash plain) s) ∧ (after (.hash plain) s).phase = .idle ∧
      (after (.hash plain) s).regs.code ≠ .ok :=
  ⟨exec_after (by decide +kernel), by decide +kernel⟩

theorem witness_CodesEachCommandReturns :
    let s := running operands image
    exec (.setMode plain .encrypted) s = .next (after (.setMode plain .encrypted) s) ∧
      (after (.setMode plain .encrypted) s).phase = .idle :=
  ⟨exec_after (by decide +kernel), by decide +kernel⟩

theorem witness_UnfinishedCommandShowsNothing :
    let s := running { operands with benchBudget := 1 } image
    exec (.benchmark plain) s = .next (benchStart { regs := s.regs, dmem := image } s) ∧
      (benchStart { regs := s.regs, dmem := image } s).phase ≠ .idle :=
  ⟨by rfl, by decide⟩

theorem witness_CommandsWriteOnlyTheirDestination :
    let s := running operands image
    s.dmem.wf ∧ s.phase = .busy { regs := operands, dmem := image } ∧
      exec (.bumpNonce plain) s = .next (after (.bumpNonce plain) s) :=
  ⟨by decide +kernel, rfl, exec_after (by decide +kernel)⟩

theorem witness_PaddingShapeAndLength : 32 % 16 = 0 ∧ (List.replicate 15 (0 : Word)).length + 2 ≤ 32 := by
  decide

theorem witness_ScheduleRecurrence : (List.replicate 16 (1 : Word)).length = 16 ∧ 0 < 16 ∧ 79 < 80 := by
  decide

theorem witness_CompressionRunsEightyRounds :
    initialHash.length = 8 ∧ (List.replicate 16 (1 : Word)).length = 16 := by decide

theorem witness_HashWritesTheDigest :
    let s := running operands image
    s.dmem.wf ∧ s.phase = .busy { regs := operands, dmem := image } ∧
      Runs s.cfg operands (.hash plain) := by
  simp only [Runs, MalformedCause, UnmatchableCause, AllocCause, PadTooLong, Outside]
  decide +kernel

/-- Keys of 17 and of 16 words, a key filled up, and two keys with one key block. -/
theorem witness_MacDependsOnlyOnTheKeyBlock :
    16 < (List.replicate 17 (1 : Word)).length ∧ (List.replicate 16 (1 : Word)).length ≤ 16 ∧
      ([1] : WordArray).length + 15 ≤ 16 ∧ keyBlock [1] = keyBlock [1, 0] := by decide

theorem witness_HmacWritesTheMac :
    let s := running operands image
    s.dmem.wf ∧ s.phase = .busy { regs := operands, dmem := image } ∧
      Runs s.cfg operands (.hmac plain) := by
  simp only [Runs, MalformedCause, UnmatchableCause, AllocCause, MacTooLong, PadTooLong, Outside]
  decide +kernel

/-- R221's keystream blocks. -/
def keystreams (hk : WordArray) : Nat → WordArray
  | 0 => sha512 hk
  | i + 1 => nextKeystream hk (keystreams hk i)

/-- A message of 9 words: the last word of its first block and the first of its second. -/
theorem witness_CipherIsSelfInverse :
    digestOfNothing.length = 8 ∧ keystreams digestOfNothing 0 = sha512 digestOfNothing ∧
      (∀ i, keystreams digestOfNothing (i + 1) =
        sha512 (List.zipWith (· ^^^ ·) (keystreams digestOfNothing i) digestOfNothing)) ∧
      7 < 8 ∧ 8 * 0 + 7 < (List.replicate 9 (1 : Word)).length ∧
      0 < 8 ∧ 8 * 1 + 0 < (List.replicate 9 (1 : Word)).length :=
  ⟨by decide, rfl, fun _ => rfl, by decide⟩

theorem witness_OfbWritesTheCipher :
    let s := running keyed image
    s.dmem.wf ∧ s.phase = .busy { regs := keyed, dmem := image } ∧ Runs s.cfg keyed (.ofbEnc plain) ∧
      Runs s.cfg keyed (.ofbDec plain) := by
  simp only [Runs, MalformedCause, UnmatchableCause, AllocCause, Outside]
  decide +kernel

/-- The table's first N, one in its middle, and its last, where one digit is enough; the last place of a
word of two symbols, and of the last word. -/
theorem witness_DigitsPerWordIsLeastExponent :
    32 ≤ ({ Config.vectorInstance with padCapWords := 32 } : Config).padCapWords.toNat ∧
    (2 ≤ 2 ∧ ([0x61, 0x62] : Text).length = 2 ∧ 1 ≤ 63 ∧ 63 < digitsPerWord .maskNonzero 2 ∧ 7 < 8) ∧
    2 ≤ 62 ∧ [2, 62, 2 ^ 64].map (digitsPerWord .maskNonzero) = [64, 11, 1] ∧
      [2, 62, 2 ^ 64].map (digitsPerWord .maskGeN) = [63, 10, 0] := by decide +kernel

/-- Three units, the first and the last protected: nothing to delete at 3, one unit at 2, too many at 1. -/
theorem witness_TruncationNeverFails :
    let c : Constraints := { caseSens := true, caps := 1, digits := 1, maxlen := 2, extra := [] }
    scan [0x30, 0x61, 0x41] c = some [true, false, true] ∧ 2 < ([0x30, 0x61, 0x41] : Text).length ∧
      [true, false, true].length = ([0x30, 0x61, 0x41] : Text).length ∧
      [3, 2, 1].map (truncateTo [0x30, 0x61, 0x41] [true, false, true]) =
        [some [0x30, 0x61, 0x41], some [0x30, 0x41], none] ∧
      (c.maxlen ≠ 0 → c.caps + c.digits ≤ c.maxlen) := by
  decide +kernel

/-- 95_test_vectors.md section 2.4: (1, 0, 200, 0) never completes. -/
def hopeless (r : Regs) (w : Word) : Regs :=
  withCmd { r with caseSens := true, digits := 200, maxlen := 0, dstCap := 22 } w

theorem hopeless_never_passes (rule : DigitRule) (hk : WordArray) (c : Constraints) (ctr : Word)
    (h : candidateLen rule (alphabet c).length < c.digits) : tryCounter rule hk c ctr = none := by
  cases ht : tryCounter rule hk c ctr with
  | none => rfl
  | some t =>
    unfold tryCounter at ht
    dsimp only at ht
    split at ht
    · cases ht
    · next marks hm =>
      obtain ⟨h1, h2⟩ := scan_marks hm
      have h3 := List.count_le_length (a := true) (l := marks)
      rw [h1, h2, candidate_length] at h3
      omega

theorem runs_hopeless :
    Runs Config.vectorInstance (hopeless keyed 0x05) (.generate plain) ∧
      Runs Config.vectorInstance (hopeless operands 0x07) (.computePw plain) := by
  simp only [Runs, MalformedCause, UnmatchableCause, Unmatchable, AllocCause, DeriveTooLong, MacTooLong,
    PadTooLong, Outside]
  decide +kernel

/-- GENERATE, and COMPUTE_PW in GENERATED mode; a minimum above the candidate's length. -/
theorem witness_HopelessSearchNeverCompletes :
    let g : Snapshot := { regs := hopeless keyed 0x05, dmem := image }
    let p : Snapshot := { regs := hopeless operands 0x07, dmem := image }
    let s := running g.regs image
    let u := running p.regs image
    candidateLen .maskNonzero (alphabet g.constraints).length < g.constraints.caps + g.constraints.digits ∧
    (s.phase = .busy g ∧ decode s.regs.cmd = .command (.generate plain) ∧
      Runs s.cfg g.regs (.generate plain) ∧ Event.reset ∉ s.inbox ∧ Steps 0 s s ∧
      ∀ ctr, tryCounter s.cfg.digitRule g.srca g.constraints ctr = none) ∧
    u.phase = .busy p ∧ decode u.regs.cmd = .command (.computePw plain) ∧ p.regs.mode = .generated ∧
      Runs u.cfg p.regs (.computePw plain) ∧ Event.reset ∉ u.inbox ∧ Steps 0 u u ∧
      ∀ ctr, tryCounter u.cfg.digitRule (derive p.srca p.srcb p.regs.nonce p.regs.iter) p.constraints ctr =
        none :=
  ⟨by decide +kernel,
    ⟨rfl, by decide, runs_hopeless.1, by decide, rfl,
      fun _ => hopeless_never_passes _ _ _ _ (by decide +kernel)⟩,
    rfl, by decide, rfl, runs_hopeless.2, by decide, rfl,
    fun _ => hopeless_never_passes _ _ _ _ (by decide +kernel)⟩

/-- "xcninhx6nstejsb", V-GEN-1. -/
def defaultPassword : Text :=
  [0x78, 0x63, 0x6e, 0x69, 0x6e, 0x68, 0x78, 0x36, 0x6e, 0x73, 0x74, 0x65, 0x6a, 0x73, 0x62]

/-- V-GEN-1's DMEM: the key at 0. -/
def keyImage : Memory := memWrite [] 0 digestOfNothing

theorem gen_default : gen .maskNonzero digestOfNothing
    ({ regs := keyed, dmem := keyImage } : Snapshot).constraints 0 = some (defaultPassword, 0) := by
  decide +kernel

/-- The constraints of V-GEN-11: case, two capitals, two digits, 8 units, the extra symbols "-_". -/
def twoExtras : Constraints :=
  { caseSens := true, caps := 2, digits := 2, maxlen := 8, extra := [0x2d, 0x5f] }

/-- V-GEN-11: "8TW4Jzmg". It rests on the alphabet's order, on which units are protected, and on which are
deleted. -/
theorem test_gen_case_and_extras :
    gen .maskNonzero digestOfNothing twoExtras 0 =
      some ([0x38, 0x54, 0x57, 0x34, 0x4a, 0x7a, 0x6d, 0x67], 0) := by decide +kernel

/-- The edges of the alphabet's ranges, with case and two extra symbols; a snapshot with extra symbols, to
the last; a search that returns. -/
theorem witness_PasswordMeetsTheConstraints :
    (25 < 26 ∧ 26 < 36 ∧ 35 < 36 ∧ twoExtras.caseSens = true ∧ 36 < 62 ∧ 61 < 62 ∧
      1 < twoExtras.extra.length) ∧
    (1 < 4 ∧ 4 * 1 + 1 < ({ keyed with xUnits := 6 } : Regs).xUnits.toNat) ∧
    gen .maskNonzero digestOfNothing ({ regs := keyed, dmem := keyImage } : Snapshot).constraints 0 =
      some (defaultPassword, 0) := ⟨by decide, by decide, gen_default⟩

theorem runs_generate : Runs Config.vectorInstance keyed (.generate plain) := by
  simp only [Runs, MalformedCause, UnmatchableCause, Unmatchable, AllocCause, Outside]
  decide +kernel

theorem witness_GenerateWritesThePassword :
    let s := running keyed keyImage
    let sn : Snapshot := { regs := keyed, dmem := keyImage }
    s.dmem.wf ∧ s.phase = .busy sn ∧ Runs s.cfg sn.regs (.generate plain) ∧
      gen s.cfg.digitRule sn.srca sn.constraints sn.regs.counter = some (defaultPassword, 0) := by
  have h : ({ regs := keyed, dmem := keyImage } : Snapshot).srca = digestOfNothing := by decide +kernel
  refine ⟨by decide +kernel, rfl, runs_generate, ?_⟩
  rw [h]
  exact gen_default

theorem runs_computePw : Runs Config.vectorInstance operands (.computePw plain) := by
  simp only [Runs, MalformedCause, UnmatchableCause, Unmatchable, AllocCause, DeriveTooLong, MacTooLong,
    PadTooLong, Outside]
  decide +kernel

/-- COMPUTE_PW in GENERATED mode with the derived key, and GENERATE with the key in SRCA. -/
theorem witness_UnconstrainedGenerationCompletes :
    let p : Snapshot := { regs := operands, dmem := image }
    let g : Snapshot := { regs := keyed, dmem := image }
    image.wf ∧
    (∃ hk, (running operands image).phase = .busy p ∧ p.regs.mode = .generated ∧
      hk = derive p.srca p.srcb p.regs.nonce p.regs.iter ∧
      Runs (running operands image).cfg p.regs (.computePw plain) ∧ p.regs.caps = 0 ∧ p.regs.digits = 0) ∧
    ∃ hk, (running keyed image).phase = .busy g ∧ hk = g.srca ∧
      Runs (running keyed image).cfg g.regs (.generate plain) ∧ g.regs.caps = 0 ∧ g.regs.digits = 0 :=
  ⟨by decide +kernel, ⟨_, rfl, rfl, rfl, runs_computePw, rfl, rfl⟩, _, rfl, rfl, runs_generate, rfl, rfl⟩

theorem witness_DeriveKeyWritesTheHashedKey :
    let s := running operands image
    s.dmem.wf ∧ s.phase = .busy { regs := operands, dmem := image } ∧
      Runs s.cfg operands (.deriveKey plain) := by
  simp only [Runs, MalformedCause, UnmatchableCause, AllocCause, DeriveTooLong, MacTooLong, PadTooLong,
    Outside]
  decide +kernel

/-- V-PW-2. -/
theorem witness_ComputePwGenerates :
    let s := running operands image
    let sn : Snapshot := { regs := operands, dmem := image }
    s.dmem.wf ∧ s.phase = .busy sn ∧ Runs s.cfg sn.regs (.computePw plain) ∧ sn.regs.mode = .generated ∧
      gen s.cfg.digitRule (derive sn.srca sn.srcb sn.regs.nonce sn.regs.iter) sn.constraints
        sn.regs.counter = some ([0x63, 0x62, 0x68, 0x72, 0x72, 0x32, 0x75, 0x32, 0x38, 0x7a, 0x74, 0x65,
          0x37, 0x79, 0x63], 0) :=
  ⟨by decide +kernel, rfl, runs_computePw, rfl, by decide +kernel⟩

theorem witness_ComputePwDeciphers :
    let r := { operands with mode := .encrypted, ctBase := 16, ctLen := 1 }
    let s := running r image
    s.dmem.wf ∧ s.phase = .busy { regs := r, dmem := image } ∧ Runs s.cfg r (.computePw plain) ∧
      r.mode = .encrypted := by
  simp only [Runs, MalformedCause, UnmatchableCause, Unmatchable, AllocCause, DeriveTooLong, MacTooLong,
    PadTooLong, Outside]
  decide +kernel

theorem runs_encryptPw : Runs Config.vectorInstance operands (.encryptPw plain) := by
  simp only [Runs, MalformedCause, UnmatchableCause, AllocCause, DeriveTooLong, MacTooLong, PadTooLong,
    Outside]
  decide +kernel

theorem witness_EncryptPwStoresTheCiphertext :
    let s := running operands image
    s.dmem.wf ∧ s.phase = .busy { regs := operands, dmem := image } ∧
      Runs s.cfg operands (.encryptPw plain) :=
  ⟨by decide +kernel, rfl, runs_encryptPw⟩

/-- A BUSY state with its operands in place meets the invariant. -/
theorem running_inv : Inv (running operands image) where
  memory_canonical := by decide +kernel
  memory_in_window := by unfold InWindow; decide +kernel
  phase_ok := ⟨⟨rfl, rfl⟩, rfl, rfl, .inl rfl⟩

theorem witness_EncryptThenComputeGivesThePlaintext :
    let s := running operands image
    Inv s ∧ s.phase = .busy { regs := operands, dmem := image } ∧
      Runs s.cfg operands (.encryptPw plain) ∧
      exec (.encryptPw plain) s = .next (after (.encryptPw plain) s) ∧ plain.registered = true ∧
      operands.srcaBase.toNat + operands.srcaLen.toNat ≤ operands.dstBase.toNat ∧
      operands.srcbBase.toNat + operands.srcbLen.toNat ≤ operands.dstBase.toNat ∧
      ¬ Outside s.cfg 255 operands.srccLen.toNat ∧ operands.srccLen.toNat ≤ (1 : Word).toNat := by
  refine ⟨running_inv, rfl, runs_encryptPw, exec_after (by decide +kernel), ?_⟩
  simp only [Outside]
  decide +kernel

/-- A budget of 0, of 1 before the loop, and of 1 in the loop with 0 and with 1 tick elapsed. -/
theorem witness_BenchmarkLoop :
    let r := { operands with benchBudget := 1 }
    let s := running r image
    let inLoop := benchStart { regs := r, dmem := image } s
    s.phase = .busy { regs := r, dmem := image } ∧ inLoop.phase = .busy { regs := r, dmem := image } ∧
      Runs s.cfg r (.benchmark plain) ∧ Runs s.cfg operands (.benchmark plain) ∧
      s.scratch.benchRunning = false ∧ operands.benchBudget = 0 ∧ r.benchBudget ≠ 0 ∧
      inLoop.scratch.benchRunning = true ∧
      (inLoop.regs.time - inLoop.scratch.benchStart).toNat < r.benchBudget.toNat ∧
      r.benchBudget.toNat ≤ ((tick 1 inLoop).regs.time - (tick 1 inLoop).scratch.benchStart).toNat := by
  simp only [Runs, MalformedCause, UnmatchableCause, AllocCause, DeriveTooLong, MacTooLong, PadTooLong,
    Outside]
  refine ⟨rfl, rfl, ?_⟩
  decide +kernel

theorem witness_BenchmarkCountIsADraw :
    let r := withCmd { operands with benchBudget := 1 } 0x09
    let s := running r image
    s.phase = .busy { regs := r, dmem := image } ∧ decode s.regs.cmd = .command (.benchmark plain) ∧
      Runs s.cfg r (.benchmark plain) ∧ s.scratch.benchRunning = false ∧ r.benchBudget ≠ 0 := by
  simp only [Runs, MalformedCause, UnmatchableCause, AllocCause, DeriveTooLong, MacTooLong, PadTooLong,
    Outside]
  decide +kernel

/-- The three clauses: no change, leaving ENCRYPTED, entering it. -/
theorem witness_SetModeFollowsRule322 :
    (running operands []).phase = .busy { regs := operands, dmem := [] } ∧ plain.registered = true ∧
      Mode.generated = operands.mode ∧ ({ operands with mode := .encrypted } : Regs).mode = .encrypted := by
  decide

theorem witness_BumpNonceFollowsRule323 :
    (running operands []).phase = .busy { regs := operands, dmem := [] } ∧ plain.registered = true := by
  decide

/-- A completion with OK, and SET_MODE from GENERATED to ENCRYPTED, which fails. -/
theorem witness_NonceRuleTable :
    let r := { operands with mode := .encrypted }
    let s := running r []
    let g := running operands []
    (s.phase = .busy { regs := r, dmem := [] } ∧ r.descriptor = s.regs.descriptor ∧
      exec (.bumpNonce plain) s = .next (after (.bumpNonce plain) s) ∧
      (after (.bumpNonce plain) s).phase = .idle ∧ (after (.bumpNonce plain) s).regs.code = .ok) ∧
    (g.phase = .busy { regs := operands, dmem := [] } ∧
      exec (.setMode plain .encrypted) g = .next (after (.setMode plain .encrypted) g) ∧
      g.regs.mode = .generated ∧ plain.registered = true ∧
      (after (.setMode plain .encrypted) g).phase = .idle ∧
      (after (.setMode plain .encrypted) g).regs.code ≠ .ok) :=
  ⟨⟨rfl, rfl, exec_after (by decide +kernel), by decide +kernel⟩,
    ⟨rfl, exec_after (by decide +kernel), by decide +kernel⟩⟩

/-- Two lives of one ciphertext each, stored under nonce 0 and under the last nonce, which does not wrap. -/
theorem witness_NoncesStrictlyGrow :
    let last := { operands with nonce := 0xFFFFFFFFFFFFFFFF }
    DescriptorLife [0] (after (.encryptPw plain) (running operands image)).regs.descriptor ∧
      DescriptorLife [2 ^ 64 - 1] (after (.encryptPw plain) (running last image)).regs.descriptor := by
  have first (r : Regs) (n : Nat) (hm : r.descriptor.mode = .generated)
      (hg : goesOn (exec (.encryptPw plain) (running r image)) = true)
      (hc : (after (.encryptPw plain) (running r image)).regs.code = .ok)
      (hn : (after (.encryptPw plain) (running r image)).regs.nonce.toNat = n)
      (hw : (after (.encryptPw plain) (running r image)).regs.nonce = r.nonce) :
      DescriptorLife [n] (after (.encryptPw plain) (running r image)).regs.descriptor := by
    have h := DescriptorLife.encrypted [] (running r image) (after (.encryptPw plain) (running r image))
      { regs := r, dmem := image } plain (.created _ hm) rfl rfl (exec_after hg) hc
      (fun h => absurd (h.1.symm.trans (hw.symm.trans h.2)) (by decide))
    rwa [hn] at h
  exact ⟨first _ _ rfl (by decide +kernel) (by decide +kernel) (by decide +kernel) (by decide +kernel),
    first _ _ rfl (by decide +kernel) (by decide +kernel) (by decide +kernel) (by decide +kernel)⟩

theorem witness_ResetRestoresEverything : (busyWith .reset).inbox = [.reset] := by decide

theorem witness_StepKeepsTheInvariant :
    Inv (running operands image) ∧
      step (running operands image) = .next (raiseStatus .illegal (running operands image)) :=
  ⟨running_inv, rfl⟩

theorem witness_ConstantsNeverChange :
    step (idleWith .reset) = .next { State.reset with cfg := (idleWith .core).cfg } := rfl

theorem witness_ScratchReachesNoResult :
    let s := running operands image
    s.phase = .busy { regs := operands, dmem := image } ∧ s.scratch.benchRunning = false ∧
      ({ Scratch.zero with workCounter := 7 } : Scratch).benchRunning = false ∧
      exec (.bumpNonce plain) s = .next (after (.bumpNonce plain) s) ∧
      (after (.bumpNonce plain) s).phase = .idle :=
  ⟨rfl, rfl, rfl, exec_after (by decide +kernel), by decide +kernel⟩

theorem witness_ObservationsOnlyGrow :
    (idleWith (.read 64 0x40000000)).inbox = [.read 64 0x40000000] ∧
      step (idleWith .core) = .next { idleWith .core with inbox := [] } := ⟨rfl, rfl⟩

end Sys2Proof.Tests
end

section
/-! PROOFS. The family 10_state.md: host accesses to the register page as steps, and the reserved indices
(R61). -/

namespace Sys2Proof.Machine

/-! ### An access to the register page as a step (R81, R89) -/

/-- A 64-bit host write at index i of the page is a defined write to that index. -/
theorem step_write_register {s : State} {i : Nat} {v : Word} {es : List Event} (hi : i < 64)
    (h : s.inbox = .write 64 (s.cfg.coreBase.toNat + 8 * i) v :: es) :
    step s = .next (writeRegIndex i v { s with inbox := es }) := by
  simp only [step, h, hostWrite, busTarget_register hi]

/-- A 64-bit host read at index i of the page observes that index. -/
theorem step_read_register {s : State} {i : Nat} {es : List Event} (hi : i < 64)
    (h : s.inbox = .read 64 (s.cfg.coreBase.toNat + 8 * i) :: es) :
    step s = .next { s with
      inbox := es, observed := s.observed ++ [readRegIndex i { s with inbox := es }] } := by
  simp only [step, h, hostRead, hostReadValue, busTarget_register hi]

/-! ### An index that names no register (R61) -/

/-- R61's four ranges name no register of the page. -/
theorem ofIndex_reserved {i : Nat}
    (hi : (0x05 ≤ i ∧ i ≤ 0x07) ∨ (0x0C ≤ i ∧ i ≤ 0x0F) ∨ (0x1C ≤ i ∧ i ≤ 0x1F) ∨ (0x2D ≤ i ∧ i ≤ 0x3F)) :
    Reg.ofIndex i = none := by
  rcases hi with ⟨hlo, hhi⟩ | ⟨hlo, hhi⟩ | ⟨hlo, hhi⟩ | ⟨hlo, hhi⟩ <;> interval_cases i <;> rfl

theorem readRegIndex_of_none {i : Nat} (hi : Reg.ofIndex i = none) (s : State) : readRegIndex i s = 0 := by
  simp only [readRegIndex, hi]

theorem writeRegIndex_of_none {i : Nat} (hi : Reg.ofIndex i = none) (v : Word) (s : State) :
    writeRegIndex i v s = { s with regs := { s.regs with wign := s.regs.wign || s.busy } } := by
  cases hb : s.busy with
  | true => simp only [writeRegIndex, hi, hb, if_true, Bool.or_true, State.setWign]
  | false => simp only [writeRegIndex, hi, hb, Bool.false_eq_true, if_false, Bool.or_false]

end Sys2Proof.Machine

namespace Sys2Proof.Proofs
open Sys2Proof.Machine

/-- Settles O13: a reserved index is in the page but names no register, so a read of it observes 0 and a
write to it can only set WIGN. -/
theorem reservedIndices : Obligations.ReservedIndices := by
  intro s i v es hi
  have hpage : i < 64 := by omega
  have hnone : Reg.ofIndex i = none := ofIndex_reserved hi
  constructor
  · intro hread
    rw [step_read_register hpage hread, readRegIndex_of_none hnone]
  · intro hwrite
    rw [step_write_register hpage hwrite, writeRegIndex_of_none hnone]
    rfl

end Sys2Proof.Proofs
end

section
/-! PROOFS. The family 20_memory.md: a host access that lands nowhere (R82). -/

namespace Sys2Proof.Machine

/-! ### Which accesses land nowhere (R82) -/

/-- A width other than 64 bits, a misaligned offset, the hole between the page and the DMEM window, and the
offsets past the window. -/
theorem busTarget_nothing {c : Config} {width off : Nat}
    (h : width ≠ 64 ∨ off % 8 ≠ 0 ∨ (0x200 ≤ off ∧ off < 0x10000) ∨
      0x10000 + 8 * c.dmemWords.toNat ≤ off) :
    busTarget c width (c.coreBase.toNat + off) = .nothing := by
  simp only [busTarget, Nat.add_sub_cancel_left]
  rcases h with hwidth | halign | houtside
  · exact if_neg fun hdefined => hwidth hdefined.1
  · exact if_neg fun hdefined => halign hdefined.2.2
  · have hpage : ¬ off < 0x200 := by omega
    have hwindow : ¬ (0x10000 ≤ off ∧ off < 0x10000 + 8 * c.dmemWords.toNat) := by omega
    rw [if_neg hpage, if_neg hwindow, ite_self]

/-! ### An access that lands nowhere, as a step -/

theorem hostWrite_nothing {s : State} {width addr : Nat} (h : busTarget s.cfg width addr = .nothing)
    (v : Word) : hostWrite width addr v s = s := by
  simp only [hostWrite, h]

theorem hostReadValue_nothing {s : State} {width addr : Nat}
    (h : busTarget s.cfg width addr = .nothing) : hostReadValue width addr s = 0 := by
  simp only [hostReadValue, h]

end Sys2Proof.Machine

namespace Sys2Proof.Proofs
open Sys2Proof.Machine

/-- Settles O9: such an access has no target, so a write leaves the state as it is, WIGN included, and a
read observes 0. -/
theorem undefinedAccessHasNoEffect : Obligations.UndefinedAccessHasNoEffect := by
  intro s width off v es hundefined
  have hnowhere : busTarget s.cfg width (s.cfg.coreBase.toNat + off) = .nothing :=
    busTarget_nothing hundefined
  constructor
  · intro hwrite
    simp only [step, hwrite, hostWrite_nothing (s := { s with inbox := es }) hnowhere]
  · intro hread
    simp only [step, hread, hostRead, hostReadValue_nothing (s := { s with inbox := es }) hnowhere]

end Sys2Proof.Proofs
end

section
/-! PROOFS. The family 30_encoding.md: the fields of a command word as numbers (R110), decoding by its
three checks (R114-R116), and a word that is no command (R345). -/

namespace Sys2Proof

/-! ### The fields of a word as numbers (R110) -/

theorem fieldOp_toNat (w : Word) : (fieldOp w).toNat = w.toNat % 256 := by
  simp only [fieldOp, BitVec.extractLsb'_toNat, Nat.shiftRight_zero]

theorem fieldM_toNat (w : Word) : (fieldM w).toNat = w.toNat / 2 ^ 24 % 2 := by
  simp only [fieldM, BitVec.extractLsb'_toNat, Nat.shiftRight_eq_div_pow, pow_one]

theorem fieldRes_toNat (w : Word) : (fieldRes w).toNat = w.toNat / 2 ^ 25 := by
  have hw : w.toNat < 2 ^ 64 := w.isLt
  simp only [fieldRes, BitVec.extractLsb'_toNat, Nat.shiftRight_eq_div_pow]
  omega

theorem fieldRes_ne_zero (w : Word) : fieldRes w ≠ 0 ↔ w.toNat / 2 ^ 25 ≠ 0 := by
  rw [Ne, ← BitVec.toNat_inj, fieldRes_toNat]
  rfl

/-- M is set without SET_MODE's OP (R113, R114). -/
theorem fieldM_without_setMode (w : Word) :
    (fieldM w = 1 ∧ fieldOp w ≠ 0x0A) ↔ (w.toNat / 2 ^ 24 % 2 = 1 ∧ w.toNat % 256 ≠ 0x0A) := by
  rw [Ne, ← BitVec.toNat_inj, ← BitVec.toNat_inj, fieldM_toNat, fieldOp_toNat]
  rfl

/-- The four selectors of a word are registered exactly where its bits [23:8] are 0 (R112). -/
theorem fieldSelectors_registered (w : Word) :
    (fieldSelectors w).registered = true ↔ w.toNat / 2 ^ 8 % 2 ^ 16 = 0 := by
  rw [Machine.registered_iff]
  simp only [fieldSelectors, ← BitVec.toNat_inj, BitVec.extractLsb'_toNat, BitVec.ofNat_eq_ofNat,
    BitVec.toNat_ofNat, Nat.zero_mod, Nat.shiftRight_eq_div_pow]
  omega

/-! ### The opcode map (R111, R115) -/

/-- An OP outside 0x01-0x0B names no command, and every other one does. -/
theorem opcodeMap_eq_none {op : BitVec 8} {sel : Selectors} {m : BitVec 1} :
    opcodeMap op sel m = none ↔ ¬ (1 ≤ op.toNat ∧ op.toNat ≤ 0x0B) := by
  unfold opcodeMap
  split
  case h_12 =>
    simp only [true_iff]
    rintro ⟨hlo, hhi⟩
    interval_cases hop : op.toNat <;> contradiction
  all_goals
    next hop => simp [hop]

theorem bitOfMode_modeOfBit (m : BitVec 1) : bitOfMode (modeOfBit m) = m := by
  revert m
  decide

/-- The command an OP names has that OP and those selectors, and M where it is SET_MODE. -/
theorem opcodeMap_eq_some {op : BitVec 8} {sel : Selectors} {m : BitVec 1} {i : Instr}
    (h : opcodeMap op sel m = some i) :
    i.op = op ∧ i.selectors = sel ∧ i.modeBit = if op = 0x0A then m else 0 := by
  unfold opcodeMap at h
  split at h
  case h_12 => cases h
  all_goals
    next hop =>
    cases h
    simp [Instr.op, Instr.selectors, Instr.modeBit, bitOfMode_modeOfBit, ← BitVec.toNat_inj, hop]

/-! ### Decoding (R116) -/

/-- A word is no command exactly where one of R116's ILLEGAL checks holds of it. -/
theorem decode_illegal_iff {w : Word} :
    (∃ why, decode w = .illegal why) ↔
      w.toNat / 2 ^ 25 ≠ 0 ∨ ¬ (1 ≤ w.toNat % 256 ∧ w.toNat % 256 ≤ 0x0B) ∨
        (w.toNat / 2 ^ 24 % 2 = 1 ∧ w.toNat % 256 ≠ 0x0A) := by
  rw [← fieldRes_ne_zero, ← fieldM_without_setMode, ← fieldOp_toNat,
    ← opcodeMap_eq_none (sel := fieldSelectors w) (m := fieldM w)]
  unfold decode
  split
  next hres => exact iff_of_true ⟨_, rfl⟩ (.inl hres)
  next hres =>
    split
    next hmap => exact iff_of_true ⟨_, rfl⟩ (.inr (.inl hmap))
    next i hmap =>
      split
      next hm => exact iff_of_true ⟨_, rfl⟩ (.inr (.inr hm))
      next hm => simp only [hres, hmap, hm, reduceCtorEq, exists_false, or_self]

/-- A word that decodes to a command has that command's OP, selectors and M. -/
theorem decode_command {w : Word} {i : Instr} (h : decode w = .command i) :
    i.op = fieldOp w ∧ i.selectors = fieldSelectors w ∧ i.modeBit = fieldM w := by
  unfold decode at h
  split at h
  next => cases h
  next =>
    split at h
    next => cases h
    next j hmap =>
      split at h
      next => cases h
      next hm =>
        cases h
        obtain ⟨hop, hsel, hbit⟩ := opcodeMap_eq_some hmap
        refine ⟨hop, hsel, hbit.trans ?_⟩
        split
        next => rfl
        next hset =>
          have hM : fieldM w ≠ 1 := fun h1 => hm ⟨h1, hset⟩
          exact (BitVec.eq_zero_or_eq_one _).resolve_right hM |>.symm

/-- A word that passes R116's ILLEGAL checks decodes to a command. -/
theorem exists_command_of_legal {w : Word} (hres : ¬ w.toNat / 2 ^ 25 ≠ 0)
    (hop : 1 ≤ w.toNat % 256 ∧ w.toNat % 256 ≤ 0x0B)
    (hm : ¬ (w.toNat / 2 ^ 24 % 2 = 1 ∧ w.toNat % 256 ≠ 0x0A)) : ∃ i, decode w = .command i := by
  cases hdec : decode w with
  | command i => exact ⟨i, rfl⟩
  | illegal why =>
    rcases decode_illegal_iff.1 ⟨why, hdec⟩ with h | h | h
    · exact absurd h hres
    · exact absurd hop h
    · exact absurd h hm

theorem classify_of_illegal {w : Word} (h : ∃ why, decode w = .illegal why) :
    classify w = .illegal := by
  obtain ⟨why, hdec⟩ := h
  simp only [classify, hdec]

/-- A word that decodes to a command is that command or, where its bits [23:8] are not 0, UNSUPPORTED. -/
theorem classify_of_command {w : Word} {i : Instr} (h : decode w = .command i) :
    classify w = if w.toNat / 2 ^ 8 % 2 ^ 16 = 0 then .command i else .unsupported := by
  obtain ⟨-, hsel, -⟩ := decode_command h
  simp only [classify, h, Instr.wellFormed, hsel, fieldSelectors_registered]

end Sys2Proof

namespace Sys2Proof.Machine

/-! ### A word that is no command, run (R345, R347) -/

/-- A raised status completes with that code, every RES_* register 0, and DMEM as it was. -/
theorem raiseStatus_completedWith (k : StatusCode) (s : State) :
    CompletedWith s (raiseStatus k s) s.regs k 0 0 0 ∧ (raiseStatus k s).dmem = s.dmem :=
  ⟨⟨rfl, rfl, rfl, rfl, rfl, rfl⟩, rfl⟩

theorem coreStep_illegal {s : State} {sn : Snapshot} (hbusy : s.phase = .busy sn)
    (h : ∃ why, decode s.regs.cmd = .illegal why) : coreStep s = .next (raiseStatus .illegal s) := by
  obtain ⟨why, hdec⟩ := h
  simp only [coreStep, hbusy, hdec]

end Sys2Proof.Machine

namespace Sys2Proof.Proofs
open Sys2Proof.Machine

/-- Settles O3: each ILLEGAL check is one way not to decode; a word that passes them decodes to a command
with its fields, whose selectors are bits [23:8]. -/
theorem classifyFollowsRule116 : Obligations.ClassifyFollowsRule116 := by
  intro w
  split_ifs with hres hop hm hsel
  · exact classify_of_illegal (decode_illegal_iff.2 (.inl hres))
  · exact classify_of_illegal (decode_illegal_iff.2 (.inr (.inr hm)))
  · obtain ⟨i, hdec⟩ := exists_command_of_legal hres hop hm
    rw [classify_of_command hdec, if_neg hsel]
  · obtain ⟨i, hdec⟩ := exists_command_of_legal hres hop hm
    obtain ⟨hiop, -, hibit⟩ := decode_command hdec
    refine ⟨i, ?_, ?_, ?_⟩
    · rw [classify_of_command hdec, if_pos (not_not.1 hsel)]
    · rw [hiop, fieldOp_toNat]
    · rw [hibit, fieldM_toNat]
  · exact classify_of_illegal (decode_illegal_iff.2 (.inr (.inl hop)))

/-- Settles O19: CMD does not decode, so the core's step raises ILLEGAL, with no event left and as the
core's turn alike. -/
theorem illegalWordsCompleteIllegal : Obligations.IllegalWordsCompleteIllegal := by
  intro s sn hbusy hbad
  have hdec : ∃ why, decode s.regs.cmd = .illegal why := decode_illegal_iff.2 (or_left_comm.1 hbad)
  constructor
  · intro hempty
    refine ⟨raiseStatus .illegal s, ?_, raiseStatus_completedWith .illegal s⟩
    simp only [step, hempty, coreStep_illegal hbusy hdec]
  · intro es hcore
    refine ⟨raiseStatus .illegal { s with inbox := es }, ?_, raiseStatus_completedWith .illegal _⟩
    simp only [step, hcore]
    exact coreStep_illegal hbusy hdec

end Sys2Proof.Proofs
end

section
/-! PROOFS. The family 40_sha512.md: the padding (R169, R170), the message schedule (R172) and the digest as
a fold over the padded message's blocks (R174). -/

namespace Sys2Proof.Machine

/-! ### The padding (R169, R170) -/

theorem padZeros_lt (n : Nat) : padZeros n < 16 := Nat.mod_lt _ (by decide)

/-- The message, the word `1<<63`, the zeros and the length word fill `padlen(n)` words. -/
theorem padZeros_fills (n : Nat) : n + 1 + padZeros n + 1 = padLen n := by
  simp only [padZeros, padLen, ceilDiv]
  omega

@[simp] theorem pad_length (m : WordArray) : (pad m).length = padLen m.length := by
  simp only [pad, List.length_append, List.length_singleton, List.length_replicate, padZeros_fills]

theorem padLen_mod (n : Nat) : padLen n % 16 = 0 := Nat.mul_mod_right _ _

theorem add_two_le_padLen (n : Nat) : n + 2 ≤ padLen n := by
  have := padZeros_fills n
  omega

/-- `padlen(n)` is the least multiple of 16 that holds n + 2 words: the next one below is 16 words
shorter, and fewer than 16 of the words are zeros. -/
theorem padLen_le {n k : Nat} (hk : k % 16 = 0) (hn : n + 2 ≤ k) : padLen n ≤ k := by
  have hfill := padZeros_fills n
  have hzeros := padZeros_lt n
  have hmod := padLen_mod n
  omega

/-! ### The message schedule (R172) -/

theorem extendSchedule_length {n : Nat} {window : WordArray} : (extendSchedule n window).length = n := by
  induction n generalizing window with
  | zero => rfl
  | succ n ih => rw [extendSchedule, List.length_cons, ih]

/-- Sliding the window by one word: its first word, then the schedule that grows from the slid window. -/
theorem cons_append_extendSchedule_succ (n : Nat) (a : Word) (rest : WordArray) :
    (a :: rest) ++ extendSchedule (n + 1) (a :: rest) =
      a :: ((rest ++ [nextScheduleWord (a :: rest)]) ++
        extendSchedule n (rest ++ [nextScheduleWord (a :: rest)])) := by
  simp only [extendSchedule, List.tail_cons, List.cons_append, List.append_assoc, List.nil_append]

/-- The next word depends on the window's 16 words only. -/
theorem nextScheduleWord_append {window : WordArray} (h : window.length = 16) (later : WordArray) :
    nextScheduleWord (window ++ later) = nextScheduleWord window := by
  have word (i : Nat) (hi : i < 16) : (window ++ later).getD i 0 = window.getD i 0 :=
    List.getD_append _ _ _ _ (h ▸ hi)
  simp only [nextScheduleWord, word 14 (by decide), word 9 (by decide), word 1 (by decide),
    word 0 (by decide)]

/-- `W[t+16]` is the next word of the window that begins at t. -/
theorem append_extendSchedule_getD {n t : Nat} {window : WordArray} (h : window.length = 16) (ht : t < n) :
    (window ++ extendSchedule n window).getD (t + 16) 0 =
      nextScheduleWord ((window ++ extendSchedule n window).drop t) := by
  induction n generalizing window t with
  | zero => exact absurd ht (Nat.not_lt_zero t)
  | succ n ih =>
    cases t with
    | zero =>
      rw [List.drop_zero, nextScheduleWord_append h, List.getD_append_right _ _ _ _ (by omega), h]
      rfl
    | succ t =>
      obtain ⟨a, rest, rfl⟩ := List.exists_cons_of_length_eq_add_one h
      rw [cons_append_extendSchedule_succ]
      exact ih (by simpa using h) (Nat.lt_of_succ_lt_succ ht)

theorem schedule_length {block : WordArray} (h : block.length = 16) : (schedule block).length = 80 := by
  rw [schedule, List.length_append, extendSchedule_length, h]

/-- The recurrence of R172, counted from the window's first word. -/
theorem schedule_getD_add {block : WordArray} (h : block.length = 16) {t : Nat} (ht : t < 64) :
    (schedule block).getD (t + 16) 0 =
      smallSigma1 ((schedule block).getD (t + 14) 0) + (schedule block).getD (t + 9) 0 +
        smallSigma0 ((schedule block).getD (t + 1) 0) + (schedule block).getD t 0 := by
  have hnext : (schedule block).getD (t + 16) 0 = nextScheduleWord ((schedule block).drop t) :=
    append_extendSchedule_getD h ht
  have hword (i : Nat) : ((schedule block).drop t).getD i 0 = (schedule block).getD (t + i) 0 := by
    simp only [List.getD_eq_getElem?_getD, List.getElem?_drop]
  simpa only [nextScheduleWord, hword, Nat.add_zero] using hnext

/-! ### The digest (R174) -/

/-- Compressing n blocks in order is the fold over the blocks at 16i. -/
theorem compressBlocks_eq_foldl (n : Nat) (hs p : WordArray) :
    compressBlocks n hs p =
      (List.range n).foldl (fun h i => compress h ((p.drop (16 * i)).take 16)) hs := by
  induction n generalizing hs p with
  | zero => rfl
  | succ n ih =>
    have hblock (i : Nat) : (p.drop 16).drop (16 * i) = p.drop (16 * (i + 1)) := by
      rw [List.drop_drop, Nat.mul_succ, Nat.add_comm]
    simp only [compressBlocks, ih, hblock, List.range_succ_eq_map, List.foldl_cons, List.foldl_map,
      Nat.mul_zero, List.drop_zero, Nat.succ_eq_add_one]

end Sys2Proof.Machine

namespace Sys2Proof.Proofs
open Sys2Proof.Machine

/-- Settles O27: the padding has `padZeros` zeros, which bring it to exactly `padlen(n)` words. -/
theorem paddingShapeAndLength : Obligations.PaddingShapeAndLength := fun m =>
  ⟨⟨padZeros m.length, padZeros_lt m.length, rfl⟩, pad_length m, padLen_mod m.length,
    add_two_le_padLen m.length, fun _ => padLen_le⟩

/-- Settles O28: the block is the schedule's first window, and each later word is the next word of the
window 16 places before it. -/
theorem scheduleRecurrence : Obligations.ScheduleRecurrence := by
  intro b hb
  refine ⟨schedule_length hb, fun t ht => List.getD_append _ _ _ _ (hb ▸ ht), fun t hlo hhi => ?_⟩
  obtain ⟨u, rfl⟩ := Nat.exists_eq_add_of_le' hlo
  exact schedule_getD_add hb (by omega)

/-- Settles O30: the model's recursion over the blocks is the fold over their indices. -/
theorem digestFoldsTheBlocks : Obligations.DigestFoldsTheBlocks := fun m =>
  ⟨compressBlocks_eq_foldl _ initialHash (pad m), sha512_length m⟩

end Sys2Proof.Proofs
end

section
/-! PROOFS. The family 41_hmac.md: the key block (R200), the MAC over it with the pads written out (R201,
R202), and that the MAC depends on the key only through its key block (R204). -/

namespace Sys2Proof.Machine

/-! ### The key block (R200) -/

theorem zeroPadTo_length {n : Nat} {k : WordArray} (h : k.length ≤ n) : (zeroPadTo n k).length = n := by
  rw [zeroPadTo, List.length_append, List.length_replicate, Nat.add_sub_cancel' h]

/-- Zeros that still fit are a part of the padding. -/
theorem zeroPadTo_append_zeros {n z : Nat} {k : WordArray} (h : k.length + z ≤ n) :
    zeroPadTo n (k ++ List.replicate z 0) = zeroPadTo n k := by
  have hzeros : z + (n - (k.length + z)) = n - k.length := by omega
  rw [zeroPadTo, zeroPadTo, List.length_append, List.length_replicate, List.append_assoc,
    List.replicate_append_replicate, hzeros]

theorem keyBlock_of_long {k : WordArray} (h : 16 < k.length) : keyBlock k = zeroPadTo 16 (sha512 k) :=
  if_pos h

theorem keyBlock_of_short {k : WordArray} (h : k.length ≤ 16) : keyBlock k = zeroPadTo 16 k :=
  if_neg (Nat.not_lt.2 h)

/-- A hashed key is a digest of 8 words and 8 zeros. -/
theorem keyBlock_eq_digest {k : WordArray} (h : 16 < k.length) :
    keyBlock k = sha512 k ++ List.replicate 8 0 := by
  rw [keyBlock_of_long h, zeroPadTo, sha512_length]

@[simp] theorem keyBlock_length (k : WordArray) : (keyBlock k).length = 16 := by
  rcases Nat.lt_or_ge 16 k.length with hlong | hshort
  · have hdigest : (sha512 k).length ≤ 16 := by rw [sha512_length]; decide
    rw [keyBlock_of_long hlong, zeroPadTo_length hdigest]
  · rw [keyBlock_of_short hshort, zeroPadTo_length hshort]

/-- Zero words after a key that stays within a block do not change its key block. -/
theorem keyBlock_append_zeros {k : WordArray} {z : Nat} (h : k.length + z ≤ 16) :
    keyBlock (k ++ List.replicate z 0) = keyBlock k := by
  have hfilled : (k ++ List.replicate z 0).length ≤ 16 := by
    rwa [List.length_append, List.length_replicate]
  rw [keyBlock_of_short hfilled, keyBlock_of_short (Nat.le_of_add_right_le h), zeroPadTo_append_zeros h]

/-! ### The MAC over the key block (R201, R202, R204) -/

/-- R202's formula, with R201's two constants. -/
theorem hmac_eq_sha512_pads (k m : WordArray) :
    hmac k m =
      sha512 ((keyBlock k).map (· ^^^ 0x5c5c5c5c5c5c5c5c) ++
        sha512 ((keyBlock k).map (· ^^^ 0x3636363636363636) ++ m)) := by
  rw [hmac, outerPad, innerPad, opadWord, ipadWord]

theorem hmac_congr_keyBlock {k k' : WordArray} (h : keyBlock k = keyBlock k') (m : WordArray) :
    hmac k m = hmac k' m := by
  rw [hmac_eq_sha512_pads, hmac_eq_sha512_pads, h]

end Sys2Proof.Machine

namespace Sys2Proof.Proofs
open Sys2Proof.Machine

/-- Settles O32: the MAC's formula names the key in its key block only, and zeros after a key that still
fit in the block are the zeros the key block is filled with. -/
theorem macDependsOnlyOnTheKeyBlock : Obligations.MacDependsOnlyOnTheKeyBlock :=
  ⟨fun _ => keyBlock_eq_digest, fun _ => keyBlock_of_short, hmac_eq_sha512_pads,
    fun k m => ⟨keyBlock_length k, hmac_length k m⟩, fun _ _ m hblock => hmac_congr_keyBlock hblock m,
    fun _ m _ hfits =>
      ⟨keyBlock_append_zeros hfits, hmac_congr_keyBlock (keyBlock_append_zeros hfits) m⟩⟩

end Sys2Proof.Proofs
end

section
/-! PROOFS. The family 42_stream_cipher.md: the keystream by block index and the cipher word by word (R221),
and that it undoes itself and is a bijection on the arrays of each length (R223). -/

namespace Sys2Proof.Machine

/-! ### The keystream by block index (R221) -/

/-- `keystream_i`: the hash of the key, chained i times; it does not depend on the message. -/
def keystreamBlock (hk : WordArray) (i : Nat) : WordArray := (nextKeystream hk)^[i] (sha512 hk)

theorem keystreamBlock_zero (hk : WordArray) : keystreamBlock hk 0 = sha512 hk := rfl

theorem keystreamBlock_succ (hk : WordArray) (i : Nat) :
    keystreamBlock hk (i + 1) = nextKeystream hk (keystreamBlock hk i) :=
  Function.iterate_succ_apply' _ _ _

/-- R221's recurrence fixes every keystream block. -/
theorem eq_keystreamBlock {hk : WordArray} {ks : Nat → WordArray} (hzero : ks 0 = sha512 hk)
    (hsucc : ∀ i, ks (i + 1) = nextKeystream hk (ks i)) (i : Nat) : ks i = keystreamBlock hk i := by
  induction i with
  | zero => rw [hzero, keystreamBlock_zero]
  | succ i ih => rw [hsucc, ih, keystreamBlock_succ]

theorem keystreamBlock_length (hk : WordArray) (i : Nat) : (keystreamBlock hk i).length = 8 := by
  cases i with
  | zero => exact sha512_length hk
  | succ i => rw [keystreamBlock_succ, nextKeystream_length]

/-! ### The cipher word by word (R221) -/

theorem xorWords_getD {a b : WordArray} {j : Nat} (ha : j < a.length) (hb : j < b.length) :
    (xorWords a b).getD j 0 = a.getD j 0 ^^^ b.getD j 0 := by
  have hj : j < (xorWords a b).length := by rw [xorWords_length]; exact lt_min ha hb
  rw [List.getD_eq_getElem _ _ hj, List.getD_eq_getElem _ _ ha, List.getD_eq_getElem _ _ hb]
  exact List.getElem_zipWith

/-- Enciphering from keystream block k on: word 8i+j meets word j of block k+i. -/
theorem ofbBlocks_getD {hk m : WordArray} {n k i j : Nat} (hj : j < 8) (hm : 8 * i + j < m.length)
    (hn : m.length ≤ 8 * n) :
    (ofbBlocks hk n (keystreamBlock hk k) m).getD (8 * i + j) 0 =
      m.getD (8 * i + j) 0 ^^^ (keystreamBlock hk (k + i)).getD j 0 := by
  induction n generalizing m k i with
  | zero => omega
  | succ n ih =>
    have hfirst : (xorWords (m.take 8) (keystreamBlock hk k)).length = min 8 m.length := by
      rw [xorWords_length, keystreamBlock_length, List.length_take]; omega
    rw [ofbBlocks, ← keystreamBlock_succ]
    cases i with
    | zero =>
      have hword : (m.take 8).getD j 0 = m.getD j 0 := by
        simp only [List.getD_eq_getElem?_getD, List.getElem?_take_of_lt hj]
      rw [Nat.mul_zero, Nat.zero_add, Nat.add_zero k, List.getD_append _ _ _ _ (by omega),
        xorWords_getD (by rw [List.length_take]; omega) (by rw [keystreamBlock_length]; exact hj), hword]
    | succ i =>
      have hindex : 8 * (i + 1) + j - min 8 m.length = 8 * i + j := by omega
      have hword : (m.drop 8).getD (8 * i + j) 0 = m.getD (8 * (i + 1) + j) 0 := by
        rw [List.getD_eq_getElem?_getD, List.getElem?_drop, List.getD_eq_getElem?_getD,
          show 8 + (8 * i + j) = 8 * (i + 1) + j by omega]
      rw [List.getD_append_right _ _ _ _ (by omega), hfirst, hindex,
        ih (by rw [List.length_drop]; omega) (by rw [List.length_drop]; omega), hword,
        Nat.add_right_comm, Nat.add_assoc]

theorem ofb_getD (hk : WordArray) {m : WordArray} {i j : Nat} (hj : j < 8) (hm : 8 * i + j < m.length) :
    (ofb hk m).getD (8 * i + j) 0 = m.getD (8 * i + j) 0 ^^^ (keystreamBlock hk i).getD j 0 := by
  have hcovered : m.length ≤ 8 * ceilDiv m.length 8 := by simp only [ceilDiv]; omega
  have h := ofbBlocks_getD (hk := hk) (k := 0) hj hm hcovered
  rwa [Nat.zero_add] at h

/-! ### The cipher undoes itself (R223) -/

/-- Each word meets the same keystream word twice, for that word depends on the key and the index only. -/
theorem ofb_ofb (hk m : WordArray) : ofb hk (ofb hk m) = m := by
  have hlen : (ofb hk (ofb hk m)).length = m.length := by rw [ofb_length, ofb_length]
  refine List.ext_getElem hlen fun p hp hpm => ?_
  have hword : (ofb hk (ofb hk m)).getD p 0 = m.getD p 0 := by
    obtain ⟨i, j, hj, rfl⟩ : ∃ i j, j < 8 ∧ p = 8 * i + j :=
      ⟨p / 8, p % 8, Nat.mod_lt _ (by decide), (Nat.div_add_mod p 8).symm⟩
    rw [ofb_getD hk hj (by rwa [ofb_length]), ofb_getD hk hj hpm, BitVec.xor_assoc, BitVec.xor_self,
      BitVec.xor_zero]
  rwa [List.getD_eq_getElem _ _ hp, List.getD_eq_getElem _ _ hpm] at hword

theorem ofb_mapsTo_length (hk : WordArray) (n : Nat) :
    Set.MapsTo (ofb hk) {m | m.length = n} {m | m.length = n} :=
  fun m hm => (ofb_length hk m).trans hm

/-- A map that keeps the length and is its own inverse is a bijection on each length. -/
theorem ofb_bijOn_length (hk : WordArray) (n : Nat) :
    Set.BijOn (ofb hk) {m | m.length = n} {m | m.length = n} :=
  Set.InvOn.bijOn ⟨fun m _ => ofb_ofb hk m, fun m _ => ofb_ofb hk m⟩ (ofb_mapsTo_length hk n)
    (ofb_mapsTo_length hk n)

end Sys2Proof.Machine

namespace Sys2Proof.Proofs
open Sys2Proof.Machine

/-- Settles O34: any keystream that meets R221's recurrence is the model's, so the cipher is known word by
word; two runs XOR the same keystream word twice, and a length-keeping self-inverse is a bijection. -/
theorem cipherIsSelfInverse : Obligations.CipherIsSelfInverse := by
  intro hk _
  refine ⟨fun ks hzero hsucc m i j hj hm => ?_, fun m => ⟨ofb_ofb hk m, ofb_length hk m⟩,
    ofb_bijOn_length hk⟩
  rw [eq_keystreamBlock hzero hsucc i, ofb_getD hk hj hm]

end Sys2Proof.Proofs
end

section
/-! PROOFS. The family 43_generator.md: how many passes the expansion takes under either DIGIT_RULE (R244),
which unit stands at each place of an expansion (R245), and the order of the words in a candidate (R246). -/

namespace Sys2Proof.Machine

/-! ### The number of digits (R244)

Under MASK_GE_N the loop divides the mask by N while N still goes into it, so it counts the logarithm of the
mask; under MASK_NONZERO it makes one pass more. -/

@[simp] theorem expandsOn_maskNonzero {mask n : Nat} : expandsOn .maskNonzero mask n = true ↔ mask ≠ 0 :=
  decide_eq_true_iff

@[simp] theorem expandsOn_maskGeN {mask n : Nat} : expandsOn .maskGeN mask n = true ↔ n ≤ mask :=
  decide_eq_true_iff

/-- The quotient is nonzero exactly where the divisor goes in, so MASK_NONZERO is MASK_GE_N one pass late. -/
theorem expandsOn_maskNonzero_div {n : Nat} (hn : 0 < n) (mask : Nat) :
    expandsOn .maskNonzero (mask / n) n = expandsOn .maskGeN mask n := by
  rw [Bool.eq_iff_iff, expandsOn_maskNonzero, expandsOn_maskGeN, Nat.div_ne_zero_iff]
  exact and_iff_right hn.ne'

theorem digitsLoop_maskNonzero_div {n : Nat} (hn : 0 < n) (passes mask : Nat) :
    digitsLoop .maskNonzero n passes (mask / n) = digitsLoop .maskGeN n passes mask := by
  induction passes generalizing mask with
  | zero => rfl
  | succ passes ih => rw [digitsLoop, digitsLoop, expandsOn_maskNonzero_div hn, ih]

theorem digitsLoop_maskGeN {n : Nat} (hn : 1 < n) (passes mask : Nat) :
    digitsLoop .maskGeN n passes mask = min passes (Nat.log n mask) := by
  induction passes generalizing mask with
  | zero => exact (Nat.zero_min _).symm
  | succ passes ih =>
    rw [digitsLoop, ih]
    split
    · next hgoes => rw [Nat.log_of_one_lt_of_le hn (expandsOn_maskGeN.mp hgoes), Nat.succ_min_succ]
    · next hstops =>
      rw [Nat.log_of_lt (not_le.mp (mt expandsOn_maskGeN.mpr hstops)), Nat.min_zero]

/-- The bound of 64 passes cuts nothing off, even with one pass to spare (log entry 10). -/
theorem log_fullMask_le {n : Nat} (hn : 1 < n) : Nat.log n fullMask ≤ 63 := by
  have htwo : Nat.log 2 fullMask < 64 := Nat.log_lt_of_lt_pow (by decide) (by decide)
  have hanti : Nat.log n fullMask ≤ Nat.log 2 fullMask := Nat.log_anti_left Nat.one_lt_two hn
  omega

theorem digitsPerWord_maskGeN {n : Nat} (hn : 1 < n) :
    digitsPerWord .maskGeN n = Nat.log n fullMask := by
  have hlog := log_fullMask_le hn
  rw [digitsPerWord, digitsLoop_maskGeN hn]
  omega

theorem digitsPerWord_maskNonzero {n : Nat} (hn : 1 < n) :
    digitsPerWord .maskNonzero n = Nat.log n fullMask + 1 := by
  have hlog := log_fullMask_le hn
  rw [digitsPerWord, digitsLoop, if_pos (expandsOn_maskNonzero.mpr (by decide)),
    digitsLoop_maskNonzero_div (by omega), digitsLoop_maskGeN hn]
  omega

/-- So many digits name every word. -/
theorem two_pow_64_le_pow_digitsPerWord {n : Nat} (hn : 1 < n) :
    2 ^ 64 ≤ n ^ digitsPerWord .maskNonzero n := by
  rw [digitsPerWord_maskNonzero hn]
  exact Nat.lt_pow_succ_log_self hn fullMask

/-- Fewer digits do not. -/
theorem pow_lt_two_pow_64 {n e : Nat} (hn : 1 < n) (he : e < digitsPerWord .maskNonzero n) :
    n ^ e < 2 ^ 64 := by
  rw [digitsPerWord_maskNonzero hn, Nat.lt_succ_iff] at he
  exact Nat.lt_succ_of_le ((Nat.le_log_iff_pow_le hn (by decide : fullMask ≠ 0)).mp he)

/-! ### The places of an expansion (R245) -/

theorem expandLoop_getD {rule : DigitRule} {a : Text} {passes x mask i : Nat}
    (hi : i < digitsLoop rule a.length passes mask) :
    (expandLoop rule a passes x mask).getD i 0 = a.getD (x / a.length ^ i % a.length) 0 := by
  induction passes generalizing x mask i with
  | zero => exact absurd hi (Nat.not_lt_zero i)
  | succ passes ih =>
    rw [digitsLoop] at hi
    split at hi
    · next hon =>
      rw [expandLoop, if_pos hon]
      cases i with
      | zero => rw [List.getD_cons_zero, pow_zero, Nat.div_one]
      | succ i => rw [List.getD_cons_succ, ih (Nat.lt_of_succ_lt_succ hi), Nat.div_div_eq_div_mul, pow_succ']
    · exact absurd hi (Nat.not_lt_zero i)

theorem expand_getD {rule : DigitRule} {a : Text} {i : Nat} (v : Word)
    (hi : i < digitsPerWord rule a.length) :
    (expand rule a v).getD i 0 = a.getD (v.toNat / a.length ^ i % a.length) 0 := expandLoop_getD hi

/-! ### The words of a candidate (R246) -/

/-- Place j of chunk i, where every element gives a chunk of the same length k. -/
theorem flatMap_getD_of_length_eq {α β : Type} {f : α → List β} {k : Nat} (hf : ∀ x, (f x).length = k)
    {l : List α} {i j : Nat} (hi : i < l.length) (hj : j < k) (x : α) (d : β) :
    (l.flatMap f).getD (i * k + j) d = (f (l.getD i x)).getD j d := by
  induction l generalizing i with
  | nil => exact absurd hi (Nat.not_lt_zero i)
  | cons y ys ih =>
    rw [List.flatMap_cons]
    cases i with
    | zero =>
      rw [Nat.zero_mul, Nat.zero_add, List.getD_append _ _ _ _ (by rwa [hf]), List.getD_cons_zero]
    | succ i =>
      have hskip : (i + 1) * k + j = k + (i * k + j) := by rw [Nat.succ_mul]; omega
      rw [hskip, List.getD_append_right _ _ _ _ (by rw [hf]; omega), hf, Nat.add_sub_cancel_left,
        ih (Nat.lt_of_succ_lt_succ hi), List.getD_cons_succ]

theorem candidate_getD {rule : DigitRule} {a : Text} {i j : Nat} (hk : WordArray) (ctr : Word)
    (hi : i < 8) (hj : j < digitsPerWord rule a.length) :
    (candidate rule hk ctr a).getD (i * digitsPerWord rule a.length + j) 0 =
      (expand rule a ((hmac hk [ctr]).getD i 0)).getD j 0 :=
  flatMap_getD_of_length_eq (expand_length rule a) (by rwa [hmac_length]) hj 0 0

/-- A key of 8 words is not hashed, and the inner pad with the counter is 17 words, which pad to two blocks
(R203). -/
theorem hmacFits_of_counter {c : Config} (h : 32 ≤ c.padCapWords.toNat) : hmacFits c 8 1 = true := by
  have hpad : padLen (16 + 1) = 32 := rfl
  rw [hmacFits, padFits, padFits, hpad, decide_eq_true h]
  rfl

end Sys2Proof.Machine

namespace Sys2Proof.Proofs
open Sys2Proof.Machine

/-- Settles O36: the number of digits is one more than the logarithm of the largest word, and each place of
an expansion or of a candidate is read off its recursion. -/
theorem digitsPerWordIsLeastExponent : Obligations.DigitsPerWordIsLeastExponent := by
  refine ⟨fun c => hmacFits_of_counter, fun n hn => ⟨?_, two_pow_64_le_pow_digitsPerWord hn,
    fun e _ => pow_lt_two_pow_64 hn, ?_, ?_⟩⟩
  · rw [digitsPerWord_maskNonzero hn]
    exact Nat.le_add_left 1 _
  · rw [digitsPerWord_maskGeN hn, digitsPerWord_maskNonzero hn, Nat.add_sub_cancel]
  · rintro rule a v hk rfl
    exact ⟨expand_length rule a v, candidate_length rule hk v a, fun i => expand_getD v,
      fun i j => candidate_getD hk v⟩

end Sys2Proof.Proofs
end

section
/-! PROOFS. The family 45_descriptor.md: what a command that completes leaves of the descriptor's mode, nonce
and NB (R320-R323). -/

namespace Sys2Proof.Machine

/-- The descriptor after a command with this descriptor has completed with OK (R320-R323, R288). SET_MODE to
ENCRYPTED completes with OK only where the mode is ENCRYPTED already. -/
def descriptorAfter (d : Descriptor) : Instr → Descriptor
  | .encryptPw _ =>
    { mode := .encrypted, nb := false
      nonce := match d.mode with
        | .generated => d.nonce
        | .encrypted => d.nonce + 1 }
  | .setMode _ .generated =>
    match d.mode with
    | .generated => d
    | .encrypted => { mode := .generated, nonce := if d.nb then d.nonce else d.nonce + 1, nb := false }
  | .setMode _ .encrypted => d
  | .bumpNonce _ =>
    { d with
      nonce := d.nonce + 1
      nb := match d.mode with
        | .generated => d.nb
        | .encrypted => true }
  | .hash _ | .hmac _ | .ofbEnc _ | .ofbDec _ | .generate _ | .deriveKey _ | .computePw _
  | .benchmark _ => d

/-- A failing check never raises OK, so a command that fails is told by its code. -/
theorem firstFailure_checksOf_ne_ok {c : Config} {r : Regs} {i : Instr} {k : StatusCode}
    (h : firstFailure ((i.selectors.registered, .unsupported) :: checksOf c r i) = some k) : k ≠ .ok := by
  obtain ⟨p, hp, rfl⟩ := List.mem_map.mp (firstFailure_mem h)
  rcases List.mem_cons.mp hp with rfl | hp
  · exact StatusCode.noConfusion
  · rcases checksOf_codes c r i p hp with e | e | e <;> exact e ▸ StatusCode.noConfusion

/-- Of the two things a command can do, its effect is left where no check fails. -/
theorem effect_of_no_failure {failure : Option StatusCode} {fails : StatusCode → Prop} {effect : Prop}
    (hnone : failure = none)
    (h : (∃ k, failure = some k ∧ fails k) ∨ (failure = none ∧ effect)) : effect := by
  rcases h with ⟨k, hk, -⟩ | ⟨-, he⟩
  · cases hnone.symm.trans hk
  · exact he

/-- Coherence of a descriptor, register by register. -/
theorem descriptor_eq_iff {r r' : Regs} :
    r.descriptor = r'.descriptor ↔ r.mode = r'.mode ∧ r.nonce = r'.nonce ∧ r.nb = r'.nb :=
  Descriptor.mk.injEq .. ▸ Iff.rfl

/-- A generator command moves the counter, and nothing else of the descriptor. -/
theorem finishGenerate_descriptor (hk : WordArray) (s : State) :
    (finishGenerate hk s).regs.descriptor = s.regs.descriptor := by
  rcases finishGenerate_cases hk s with ⟨-, e⟩ | ⟨p, ctr, -, e⟩
  · rw [e]
  · rw [e]; rfl

section
variable {s t : State} (hsame : s.inputs.regs.descriptor = s.regs.descriptor)
include hsame

/-- R322. -/
theorem execSetMode_descriptor {sel : Selectors} {target : Mode}
    (hruns : Runs s.cfg s.inputs.regs (.setMode sel target)) (h : execSetMode sel target s = .next t) :
    t.regs.descriptor = descriptorAfter s.regs.descriptor (.setMode sel target) := by
  rcases effect_of_no_failure ((runs_iff _ _ _).mp hruns) (execSetMode_cases h) with
    ⟨rfl, hmode, rfl⟩ | ⟨htarget, rfl⟩
  · have hencrypted : s.inputs.regs.descriptor.mode = .encrypted := hmode
    rw [← hsame, descriptorAfter, hencrypted]
    rfl
  · have hmode : s.regs.descriptor.mode = target := hsame ▸ htarget.symm
    cases target with
    | generated => rw [descriptorAfter, hmode]; rfl
    | encrypted => rfl

/-- R323. -/
theorem execBumpNonce_descriptor {sel : Selectors}
    (hruns : Runs s.cfg s.inputs.regs (.bumpNonce sel)) (h : execBumpNonce sel s = .next t) :
    t.regs.descriptor = descriptorAfter s.regs.descriptor (.bumpNonce sel) := by
  obtain ⟨hmode, hnonce, -⟩ := descriptor_eq_iff.mp hsame
  obtain ⟨hregistered, -⟩ := hruns
  rcases execBumpNonce_cases h with ⟨hunregistered, -⟩ | ⟨-, rfl⟩
  · cases hunregistered.symm.trans hregistered
  · rw [hmode, hnonce]
    rfl

/-- A command no check of which fails, on a coherent descriptor, leaves the descriptor of the table. -/
theorem exec_descriptor_of_runs {i : Instr} (hruns : Runs s.cfg s.inputs.regs i)
    (h : exec i s = .next t) : t.regs.descriptor = descriptorAfter s.regs.descriptor i := by
  have hnone := (runs_iff _ _ _).mp hruns
  cases i with
  | hash sel =>
    obtain rfl := effect_of_no_failure hnone (execHash_cases h)
    rfl
  | hmac sel =>
    obtain rfl := effect_of_no_failure hnone (execHmac_cases h)
    rfl
  | ofbEnc sel | ofbDec sel =>
    cases h
    rw [effect_of_no_failure hnone (ofbCommand_cases sel s)]
    rfl
  | generate sel =>
    obtain rfl := effect_of_no_failure hnone (execGenerate_cases h)
    exact finishGenerate_descriptor _ s
  | deriveKey sel =>
    obtain rfl := effect_of_no_failure hnone (execDeriveKey_cases h)
    rfl
  | computePw sel =>
    rcases effect_of_no_failure hnone (execComputePw_cases h) with ⟨-, rfl⟩ | ⟨-, rfl⟩
    · exact finishGenerate_descriptor _ s
    · rfl
  | encryptPw sel =>
    obtain rfl := effect_of_no_failure hnone (execEncryptPw_cases h)
    rw [← hsame]
    rfl
  | benchmark sel =>
    rcases effect_of_no_failure hnone (execBenchmark_cases h) with
      ⟨-, -, rfl⟩ | ⟨-, -, rfl⟩ | ⟨-, -, rfl⟩ | ⟨-, -, rfl⟩ <;> rfl
  | setMode sel target => exact execSetMode_descriptor hsame hruns h
  | bumpNonce sel => exact execBumpNonce_descriptor hsame hruns h

/-- How a command that completes on a coherent descriptor ends: it has failed and kept the descriptor, or
ended with OK and left the descriptor of the table. -/
theorem exec_idle_descriptor {i : Instr} {sn : Snapshot} (hbusy : s.phase = .busy sn)
    (h : exec i s = .next t) (hidle : t.phase = .idle) :
    (t.regs.code ≠ .ok ∧ t.regs.descriptor = s.regs.descriptor) ∨
      (t.regs.code = .ok ∧ Runs s.cfg s.inputs.regs i ∧
        t.regs.descriptor = descriptorAfter s.regs.descriptor i) := by
  rcases exec_shape h with ⟨k, hfails, rfl⟩ | ⟨hnone, ⟨hphase, -, -⟩ | ⟨v, r, l, u, c, ht, -, -⟩⟩
  · exact .inl ⟨firstFailure_checksOf_ne_ok hfails, rfl⟩
  · rw [hphase, hbusy] at hidle
    cases hidle
  · have hruns := (runs_iff _ _ _).mpr hnone
    exact .inr ⟨ht ▸ rfl, hruns, exec_descriptor_of_runs hsame hruns h⟩

end

/-- SET_MODE cannot enter ENCRYPTED: only ENCRYPT_PW does (R320, R322). -/
theorem exec_setMode_encrypted {sel : Selectors} {s : State} (hsel : sel.registered = true)
    (hmode : s.inputs.regs.mode = .generated) :
    exec (.setMode sel .encrypted) s = .next (raiseStatus .malformed s) := by
  apply exec_fail
  rw [Instr.selectors, hsel, checksOf, setModeChecks, hmode]
  rfl

end Sys2Proof.Machine

namespace Sys2Proof.Proofs
open Sys2Proof.Machine

/-- Settles O52: a failing command keeps the descriptor, one that ends with OK leaves `descriptorAfter`, whose
rows are the table's; the row of SET_MODE into ENCRYPTED is a MALFORMED cause, so no run ends there with OK. -/
theorem nonceRuleTable : Obligations.NonceRuleTable := by
  intro i s t sn hbusy hcoherent hexec hidle
  have hsame : s.inputs.regs.descriptor = s.regs.descriptor := inputs_busy hbusy ▸ hcoherent
  obtain ⟨hmode, -, -⟩ := descriptor_eq_iff.mp hsame
  have hcases := exec_idle_descriptor hsame hbusy hexec hidle
  refine ⟨fun hfailed => ?_, ?_, fun hok => ?_⟩
  · obtain ⟨-, hkept⟩ := hcases.resolve_right fun hdone => hfailed hdone.1
    exact (descriptor_eq_iff.mp hkept).2
  · rintro sel rfl hgenerated hsel
    cases hexec.symm.trans (exec_setMode_encrypted hsel (hmode.trans hgenerated))
    rfl
  · obtain ⟨-, ⟨-, hnotMalformed, -, -⟩, hafter⟩ := hcases.resolve_left fun hfailed => hfailed.1 hok
    have hnonce : t.regs.nonce = _ := congrArg Descriptor.nonce hafter
    have hnb : t.regs.nb = _ := congrArg Descriptor.nb hafter
    rw [hnonce, hnb]
    cases i with
    | setMode sel target =>
      cases target <;> cases hm : s.regs.mode
      case encrypted.generated => exact hnotMalformed ⟨rfl, hmode.trans hm⟩
      all_goals simp [descriptorAfter, Regs.descriptor, hm]
    | encryptPw sel | bumpNonce sel =>
      cases hm : s.regs.mode <;> simp [descriptorAfter, Regs.descriptor, hm]
    | _ => exact ⟨rfl, rfl⟩

end Sys2Proof.Proofs
end

section
/-! PROOFS. The family 60_exceptions.md: a nonzero selector, the first of a command's checks (R344, R348). -/

namespace Sys2Proof.Machine

/-- Some selector names no registered implementation exactly where one of the four is nonzero (R112). -/
theorem registered_eq_false_iff {sel : Selectors} :
    sel.registered = false ↔ sel.hsel ≠ 0 ∨ sel.msel ≠ 0 ∨ sel.csel ≠ 0 ∨ sel.gsel ≠ 0 := by
  rw [← Bool.not_eq_true, registered_iff]
  simp only [not_and_or, ne_eq]

/-- The selectors are checked before anything else, so whatever the operands are, the code is UNSUPPORTED. -/
theorem exec_of_unregistered {i : Instr} {s : State} (h : i.selectors.registered = false) :
    exec i s = .next (raiseStatus .unsupported s) := by
  apply exec_fail
  rw [firstFailure_cons, h]
  rfl

end Sys2Proof.Machine

namespace Sys2Proof.Proofs
open Sys2Proof.Machine

/-- Settles O20: a nonzero selector fails the first check of every command, and the status it raises is the
command's whole effect. -/
theorem unregisteredSelectorIsUnsupported : Obligations.UnregisteredSelectorIsUnsupported := by
  intro i s sn _ hsel
  have hunregistered : i.selectors.registered = false := registered_eq_false_iff.mpr hsel
  exact ⟨raiseStatus .unsupported s, exec_of_unregistered hunregistered,
    raiseStatus_completedWith .unsupported s⟩

end Sys2Proof.Proofs
end

section
/-! PROOFS. The family 70_reset_and_hazards.md: what a platform reset leaves (R380, R381). -/

namespace Sys2Proof.Machine

/-- A reset acts alike in both phases: the phase is not looked at, so no part of a command runs. -/
theorem step_reset {s : State} {es : List Event} (h : s.inbox = .reset :: es) :
    step s = .next (platformReset { s with inbox := es }) := by
  simp only [step, h]

@[simp] theorem platformReset_busy (s : State) : (platformReset s).busy = false :=
  not_busy_of_phase (platformReset_phase s)

/-- DONE and IE are both 0 after reset, so the level is low (R353). -/
@[simp] theorem platformReset_irq (s : State) : (platformReset s).irq = false := rfl

/-- STATUS packs five fields, each 0 after reset. -/
@[simp] theorem platformReset_statusWord (s : State) : (platformReset s).statusWord = 0 := by
  simp [State.statusWord, wordOfBool, StatusCode.number, Regs.reset]

/-- After reset the page reads its reset values: the constants are the instance's, STATUS is built from the
reset fields, and every other register is a field of the reset page. -/
theorem readReg_platformReset (s : State) (r : Reg) :
    readReg (platformReset s) r = resetValue s.cfg r := by
  cases r with
  | status => exact platformReset_statusWord s
  | _ => rfl

end Sys2Proof.Machine

namespace Sys2Proof.Proofs
open Sys2Proof.Machine

/-- Settles O54: the step on a reset event is `platformReset`, whatever the phase, and each part of the state
it leaves is a lemma about `platformReset`. -/
theorem resetRestoresEverything : Obligations.ResetRestoresEverything := by
  intro s es hreset
  refine ⟨platformReset { s with inbox := es }, step_reset hreset, platformReset_phase _,
    readReg_platformReset _, fun a => ?_, platformReset_scratch _, platformReset_irq _,
    platformReset_cfg _, platformReset_inbox _, platformReset_observed _⟩
  rw [platformReset_dmem, Memory.readByte_nil, Memory.unlisted]

end Sys2Proof.Proofs
end

section
/-! PROOFS. The family 30_encoding.md: encoding and decoding a command word undo each other (R110-R116), and
the word as the or of its shifted fields (R129). -/

namespace Sys2Proof

/-! ### Packing undoes the fields (R110) -/

/-- The seven fields cover the 64 bits, so a word is its fields one after another. -/
theorem append_fields (w : Word) :
    fieldRes w ++ fieldM w ++ (fieldSelectors w).gsel ++ (fieldSelectors w).csel ++
      (fieldSelectors w).msel ++ (fieldSelectors w).hsel ++ fieldOp w = w := by
  have join (start next len rest : Nat) (h : next = start + len) :
      w.extractLsb' next rest ++ w.extractLsb' start len = w.extractLsb' start (rest + len) :=
    BitVec.extractLsb'_append_extractLsb'_eq_extractLsb' h
  simp only [fieldRes, fieldM, fieldSelectors, fieldOp]
  rw [join 24 25 1 _ rfl, join 20 24 4 _ rfl, join 16 20 4 _ rfl, join 12 16 4 _ rfl, join 8 12 4 _ rfl,
    join 0 8 8 _ rfl]
  exact BitVec.extractLsb'_eq_self

theorem packFields_fields {w : Word} (h : fieldRes w = 0) :
    packFields (fieldOp w) (fieldSelectors w) (fieldM w) = w := by
  have hfields := append_fields w
  rwa [h] at hfields

/-! ### The opcode map on a command's own fields (R111, R113) -/

@[simp] theorem modeOfBit_bitOfMode (m : Mode) : modeOfBit (bitOfMode m) = m := by cases m <;> rfl

theorem opcodeMap_fields (i : Instr) : opcodeMap i.op i.selectors i.modeBit = some i := by
  cases i with
  | setMode sel target => exact congrArg (fun m => some (Instr.setMode sel m)) (modeOfBit_bitOfMode target)
  | _ => rfl

/-- Only SET_MODE has a nonzero M. -/
theorem modeBit_of_op_ne {i : Instr} (h : i.op ≠ 0x0A) : i.modeBit = 0 := by
  cases i with
  | setMode => exact absurd rfl h
  | _ => rfl

/-! ### Decoding and encoding (R116) -/

/-- What a word that decodes has passed: R114's check on the reserved bits. -/
theorem fieldRes_of_decode {w : Word} {i : Instr} (h : decode w = .command i) : fieldRes w = 0 := by
  by_contra hres
  rw [decode, if_pos hres] at h
  cases h

theorem decode_encode (i : Instr) : decode (encode i) = .command i := by
  obtain ⟨hop, hsel, hm, hres⟩ := Laws.fields_packFields i.op i.selectors i.modeBit
  have hlegal : ¬ (i.modeBit = 1 ∧ i.op ≠ 0x0A) := by
    rintro ⟨hone, hop⟩
    rw [modeBit_of_op_ne hop] at hone
    exact absurd hone (by decide)
  simp only [decode, encode, hop, hsel, hm, hres, opcodeMap_fields, if_neg hlegal, ne_eq, not_true_eq_false,
    if_false]

/-! ### The word as an or (R129) -/

theorem or_reverse (a b c d e f : Word) :
    a ||| b ||| c ||| d ||| e ||| f = f ||| e ||| d ||| c ||| b ||| a := by
  ac_rfl

/-- A field put in front of the rest is shifted past it. -/
theorem packFields_eq_or (op : BitVec 8) (sel : Selectors) (m : BitVec 1) :
    packFields op sel m =
      op.zeroExtend 64 ||| (sel.hsel.zeroExtend 64 <<< 8) ||| (sel.msel.zeroExtend 64 <<< 12) |||
        (sel.csel.zeroExtend 64 <<< 16) ||| (sel.gsel.zeroExtend 64 <<< 20) ||| (m.zeroExtend 64 <<< 24) := by
  have hword : packFields op sel m = (packFields op sel m).setWidth 64 := (BitVec.setWidth_eq _).symm
  rw [hword, packFields]
  simp only [BitVec.setWidth_append_eq_shiftLeft_setWidth_or, BitVec.shiftLeft_or_distrib,
    ← BitVec.shiftLeft_add, BitVec.setWidth_zero, BitVec.zero_shiftLeft, BitVec.zero_or, BitVec.ofNat_eq_ofNat]
  exact or_reverse _ _ _ _ _ _

end Sys2Proof

namespace Sys2Proof.Proofs

/-- Settles O1: the fields of a command's word are the command's, which the opcode map takes back to it. -/
theorem decodeOfEncode : Obligations.DecodeOfEncode := decode_encode

/-- Settles O2: a command's OP, selectors and M are the fields of its word, and the word's other bits are
the reserved ones, which are 0. -/
theorem encodeOfDecode : Obligations.EncodeOfDecode := by
  intro w i h
  obtain ⟨hop, hsel, hm⟩ := decode_command h
  rw [encode, hop, hsel, hm, packFields_fields (fieldRes_of_decode h)]

/-- Settles O5: appending a field is the or of the field and what stands before it, shifted past it. -/
theorem wordIsTheOrOfItsFields : Obligations.WordIsTheOrOfItsFields :=
  fun i => packFields_eq_or i.op i.selectors i.modeBit

/-- Settles O4: R119's seven words are fixed, so decoding them is a computation. -/
theorem workedEncodingsDecode : Obligations.WorkedEncodingsDecode := by
  unfold Obligations.WorkedEncodingsDecode
  decide

end Sys2Proof.Proofs
end

section
/-! PROOFS. The machine as a whole: every step answers a next state (60_exceptions.md), what no step changes
(10_state.md R30, R41), and the invariant along every step (10_state.md R67, 20_memory.md R86). -/

namespace Sys2Proof.Machine

/-! ### Every step answers (60_exceptions.md, log entry 14) -/

theorem exec_next (i : Instr) (s : State) : ∃ t, exec i s = .next t := by
  cases hfail : firstFailure ((i.selectors.registered, .unsupported) :: checksOf s.cfg s.inputs.regs i) with
  | some k => exact ⟨_, exec_fail hfail⟩
  | none =>
    cases i <;> simp only [exec, checksOf, Instr.selectors] at hfail ⊢
    case hash => exact ⟨_, by simp only [execHash, hfail]; rfl⟩
    case hmac => exact ⟨_, by simp only [execHmac, hfail]; rfl⟩
    case ofbEnc => exact ⟨_, rfl⟩
    case ofbDec => exact ⟨_, rfl⟩
    case generate => exact ⟨_, by simp only [execGenerate, hfail]; rfl⟩
    case deriveKey => exact ⟨_, by simp only [execDeriveKey, hfail]; rfl⟩
    case computePw =>
      simp only [execComputePw, hfail]
      split <;> exact ⟨_, rfl⟩
    case encryptPw => exact ⟨_, by simp only [execEncryptPw, hfail]; rfl⟩
    case benchmark =>
      simp only [execBenchmark, hfail]
      split_ifs <;> exact ⟨_, rfl⟩
    case setMode =>
      simp only [execSetMode, hfail]
      split <;> exact ⟨_, rfl⟩
    case bumpNonce => exact ⟨_, by simp only [execBumpNonce, hfail]; rfl⟩

theorem coreStep_next (s : State) : ∃ t, coreStep s = .next t := by
  rcases coreStep_cases (rfl : coreStep s = coreStep s) with ⟨-, h⟩ | ⟨sn, -, ⟨why, -, h⟩ | ⟨i, -, h⟩⟩
  · exact ⟨s, h⟩
  · exact ⟨_, h⟩
  · exact h ▸ exec_next i s

/-! ### What no command changes (R85) -/

/-- A command moves its own registers of the page and leaves the environment's side alone. -/
theorem exec_regs {i : Instr} {s t : State} (h : exec i s = .next t) :
    t.regs = { s.regs with
      done := t.regs.done, code := t.regs.code, resLen := t.regs.resLen, resUnits := t.regs.resUnits
      resCount := t.regs.resCount, mode := t.regs.mode, nonce := t.regs.nonce
      counter := t.regs.counter, ctBase := t.regs.ctBase, ctLen := t.regs.ctLen, nb := t.regs.nb } := by
  rcases exec_shape h with ⟨k, -, rfl⟩ | ⟨-, ⟨-, ht, -⟩ | ⟨v, r, l, u, c, rfl, -, hr⟩⟩
  · rfl
  · rw [ht]
  · obtain ⟨mode, nonce, counter, ctBase, ctLen, nb, rfl⟩ : ∃ mode nonce counter ctBase ctLen nb,
        r = { s.regs with
          mode := mode, nonce := nonce, counter := counter, ctBase := ctBase, ctLen := ctLen, nb := nb } :=
      ⟨_, _, _, _, _, _, hr⟩
    rfl

theorem exec_frame {i : Instr} {s t : State} (h : exec i s = .next t) :
    t.cfg = s.cfg ∧ t.inbox = s.inbox ∧ t.observed = s.observed ∧ t.regs.time = s.regs.time := by
  have htime : t.regs.time = s.regs.time := by rw [exec_regs h]
  rcases exec_shape h with ⟨k, -, rfl⟩ | ⟨-, ⟨-, ht, -⟩ | ⟨v, r, l, u, c, rfl, -, -⟩⟩
  · exact ⟨rfl, rfl, rfl, htime⟩
  · exact ⟨by rw [ht], by rw [ht], by rw [ht], htime⟩
  · exact ⟨rfl, rfl, rfl, htime⟩

theorem coreStep_frame {s t : State} (h : coreStep s = .next t) :
    t.cfg = s.cfg ∧ t.inbox = s.inbox ∧ t.observed = s.observed ∧ t.regs.time = s.regs.time := by
  rcases coreStep_cases h with ⟨-, h⟩ | ⟨sn, -, ⟨why, -, h⟩ | ⟨i, -, h⟩⟩
  · cases h
    exact ⟨rfl, rfl, rfl, rfl⟩
  · cases h
    exact ⟨rfl, rfl, rfl, rfl⟩
  · exact exec_frame h.symm

/-! ### What a step can do, with its state answered -/

/-- A step that answers t is a step of the core, after at most its own turn's entry, or an event. -/
theorem step_next_cases {s t : State} (h : step s = .next t) :
    (∃ es, (s.inbox = [] ∧ es = s.inbox ∨ s.inbox = .core :: es) ∧ coreStep { s with inbox := es } = .next t) ∨
      (∃ es width addr v, s.inbox = .write width addr v :: es ∧ t = hostWrite width addr v { s with inbox := es }) ∨
      (∃ es width addr, s.inbox = .read width addr :: es ∧ t = hostRead width addr { s with inbox := es }) ∨
      (∃ es n, s.inbox = .tick n :: es ∧ t = tick n { s with inbox := es }) ∨
      (∃ es, s.inbox = .reset :: es ∧ t = platformReset { s with inbox := es }) := by
  rcases step_cases h with ⟨hempty, h⟩ | ⟨e, es, hinbox, ⟨rfl, h⟩ | ⟨width, addr, v, rfl, h⟩ |
    ⟨width, addr, rfl, h⟩ | ⟨n, rfl, h⟩ | ⟨rfl, h⟩⟩
  · exact .inl ⟨s.inbox, .inl ⟨hempty, rfl⟩, h.symm⟩
  · exact .inl ⟨es, .inr hinbox, h.symm⟩
  · cases h
    exact .inr (.inl ⟨es, width, addr, v, hinbox, rfl⟩)
  · cases h
    exact .inr (.inr (.inl ⟨es, width, addr, hinbox, rfl⟩))
  · cases h
    exact .inr (.inr (.inr (.inl ⟨es, n, hinbox, rfl⟩)))
  · cases h
    exact .inr (.inr (.inr (.inr ⟨es, hinbox, rfl⟩)))

theorem step_cfg {s t : State} (h : step s = .next t) : t.cfg = s.cfg := by
  rcases step_next_cases h with ⟨es, -, h⟩ | ⟨es, width, addr, v, -, rfl⟩ | ⟨es, width, addr, -, rfl⟩ |
    ⟨es, n, -, rfl⟩ | ⟨es, -, rfl⟩
  · exact (coreStep_frame h).1
  · exact (hostWrite_frame width addr v _).1
  all_goals rfl

/-- A host read is the only event that touches the observation, and it appends. -/
theorem step_observed {s t : State} (h : step s = .next t) : s.observed <+: t.observed := by
  rcases step_next_cases h with ⟨es, -, h⟩ | ⟨es, width, addr, v, -, rfl⟩ | ⟨es, width, addr, -, rfl⟩ |
    ⟨es, n, -, rfl⟩ | ⟨es, -, rfl⟩
  · obtain ⟨-, -, hobserved, -⟩ := coreStep_frame h
    rw [hobserved]
  · obtain ⟨-, -, -, hobserved, -⟩ := hostWrite_frame width addr v { s with inbox := es }
    rw [hobserved]
  · exact List.prefix_append _ _
  all_goals exact List.prefix_rfl

/-- Only a tick and a reset move TIME. -/
theorem step_time {s t : State} (h : step s = .next t) (htick : ∀ n, s.inbox.head? ≠ some (.tick n))
    (hreset : s.inbox.head? ≠ some .reset) : t.regs.time = s.regs.time := by
  rcases step_next_cases h with ⟨es, -, h⟩ | ⟨es, width, addr, v, -, rfl⟩ | ⟨es, width, addr, -, rfl⟩ |
    ⟨es, n, hinbox, -⟩ | ⟨es, hinbox, -⟩
  · obtain ⟨-, -, -, htime⟩ := coreStep_frame h
    exact htime
  · obtain ⟨-, -, -, -, htime⟩ := hostWrite_frame width addr v { s with inbox := es }
    exact htime
  · rfl
  · exact absurd (hinbox ▸ rfl) (htick n)
  · exact absurd (hinbox ▸ rfl) hreset

/-! ### The invariant, by phase (R67, R86) -/

theorem phaseOk_of_idle {s : State} (h : s.phase = .idle) : PhaseOk s ↔ s.scratch = Scratch.zero := by
  rw [PhaseOk, h]

theorem phaseOk_of_busy {s : State} {sn : Snapshot} (h : s.phase = .busy sn) :
    PhaseOk s ↔ Coherent s sn ∧ s.regs.done = false ∧ s.regs.code = .ok ∧ ScratchWhileBusy s := by
  rw [PhaseOk, h]

/-- The invariant does not look at the environment's side. -/
theorem Inv.with_inbox {s : State} (h : Inv s) (es : List Event) : Inv { s with inbox := es } :=
  ⟨h.memory_canonical, h.memory_in_window, h.phase_ok⟩

/-- An IDLE state with zero scratch needs a good memory only. -/
theorem inv_of_idle {s : State} (hwf : s.dmem.wf) (hwindow : InWindow s.cfg s.dmem) (hidle : s.phase = .idle)
    (hscratch : s.scratch = Scratch.zero) : Inv s :=
  ⟨hwf, hwindow, (phaseOk_of_idle hidle).mpr hscratch⟩

/-- With the same memory and scratch a BUSY state needs a coherent page and clear DONE and CODE. -/
theorem Inv.of_busy_regs {s : State} (h : Inv s) {sn : Snapshot} (hbusy : s.phase = .busy sn) (r : Regs)
    (hregs : r = { s.regs with ie := r.ie, wign := r.wign, time := r.time }) :
    Inv { s with regs := r } := by
  obtain ⟨⟨hdmem, hpage⟩, hdone, hcode, hscratch⟩ := (phaseOk_of_busy hbusy).mp h.phase_ok
  obtain ⟨ie, wign, time, rfl⟩ :
      ∃ ie wign time, r = { s.regs with ie := ie, wign := wign, time := time } := ⟨_, _, _, hregs⟩
  refine ⟨h.memory_canonical, h.memory_in_window, (phaseOk_of_busy (sn := sn) (by exact hbusy)).mpr
    ⟨⟨hdmem, ?_⟩, hdone, hcode, hscratch⟩⟩
  exact congrArg (fun r : Regs => { r with ie := ie, wign := wign, time := time }) hpage

/-- While IDLE the page is free. -/
theorem Inv.of_idle_regs {s : State} (h : Inv s) (hidle : s.phase = .idle) (r : Regs) :
    Inv { s with regs := r } :=
  inv_of_idle h.memory_canonical h.memory_in_window hidle ((phaseOk_of_idle hidle).mp h.phase_ok)

/-! ### The invariant along a host access (R89, R349, R354) -/

/-- What a host write can do to a BUSY core: nothing, a CTRL write, or WIGN. -/
theorem hostWrite_of_busy {s : State} (hbusy : s.busy = true) (width addr : Nat) (v : Word) :
    hostWrite width addr v s = s ∨ hostWrite width addr v s = writeCtrl v s ∨
      hostWrite width addr v s = s.setWign := by
  rcases hostWrite_cases width addr v s with h | ⟨i, h⟩ | ⟨j, -, h⟩
  · exact .inl h
  · rcases writeRegIndex_cases i v s with hi | ⟨-, hi⟩ | ⟨hfree, -⟩
    · exact .inr (.inl (h.trans hi))
    · exact .inr (.inr (h.trans hi))
    · cases hfree.symm.trans hbusy
  · exact .inr (.inr (h.trans (if_pos hbusy)))

theorem Inv.writeCtrl {s : State} (h : Inv s) (v : Word) : Inv (writeCtrl v s) := by
  cases hphase : s.phase with
  | idle => exact h.of_idle_regs hphase _
  | busy sn =>
    obtain ⟨-, hdone, -, -⟩ := (phaseOk_of_busy hphase).mp h.phase_ok
    refine h.of_busy_regs hphase _ ?_
    rw [hdone, Bool.false_and, ← hdone]

theorem Inv.setWign {s : State} (h : Inv s) : Inv s.setWign := by
  cases hphase : s.phase with
  | idle => exact h.of_idle_regs hphase _
  | busy sn => exact h.of_busy_regs hphase _ rfl

theorem Inv.tick {s : State} (h : Inv s) (n : Nat) : Inv (tick n s) := by
  cases hphase : s.phase with
  | idle => exact h.of_idle_regs hphase _
  | busy sn => exact h.of_busy_regs hphase _ rfl

/-- Acceptance takes the snapshot of what stands, so it is coherent. -/
theorem Inv.accept {s : State} (h : Inv s) (hidle : s.phase = .idle) (w : Word) : Inv (accept w s) :=
  ⟨h.memory_canonical, h.memory_in_window, (phaseOk_of_busy (accept_phase s w)).mpr
    ⟨⟨rfl, rfl⟩, rfl, rfl, .inl ((phaseOk_of_idle hidle).mp h.phase_ok)⟩⟩

theorem phase_of_not_busy {s : State} (h : s.busy = false) : s.phase = .idle := by
  cases hphase : s.phase with
  | idle => rfl
  | busy sn => cases h.symm.trans (busy_of_phase hphase)

theorem writeDmem_of_busy {s : State} (h : s.busy = true) (j : Nat) (v : Word) :
    writeDmem j v s = s.setWign := if_pos h

theorem writeDmem_of_idle {s : State} (h : s.phase = .idle) (j : Nat) (v : Word) :
    writeDmem j v s = { s with dmem := memWrite s.dmem j [v] } := by
  rw [writeDmem, not_busy_of_phase h, writeWord_eq_memWrite]
  rfl

theorem Inv.writeDmem {s : State} (h : Inv s) {j : Nat} (hj : j < s.cfg.dmemWords.toNat) (v : Word) :
    Inv (writeDmem j v s) := by
  cases hphase : s.phase with
  | busy sn => exact writeDmem_of_busy (busy_of_phase hphase) j v ▸ h.setWign
  | idle =>
    rw [writeDmem_of_idle hphase]
    exact inv_of_idle (memWrite_wf h.memory_canonical j [v]) (memWrite_inWindow h.memory_in_window hj) hphase
      ((phaseOk_of_idle hphase).mp h.phase_ok)

theorem Inv.hostWrite {s : State} (h : Inv s) (width addr : Nat) (v : Word) :
    Inv (hostWrite width addr v s) := by
  rcases hostWrite_cases width addr v s with e | ⟨i, e⟩ | ⟨j, hj, e⟩ <;> rw [e]
  · exact h
  · rcases writeRegIndex_cases i v s with e | ⟨-, e⟩ | ⟨hfree, e | e | ⟨r, -, -, e⟩⟩ <;> rw [e]
    · exact h.writeCtrl v
    · exact h.setWign
    · exact h
    · exact h.accept (phase_of_not_busy hfree) v
    · exact h.of_idle_regs (phase_of_not_busy hfree) _
  · exact h.writeDmem hj v

/-! ### The invariant along a step of the core (R67, R85, R289) -/

/-- The scratch of BENCHMARK's loop after it has been entered from zero scratch. -/
theorem scratchWhileBusy_benchStart {s : State} {sn : Snapshot} {sel : Selectors} (h : ScratchWhileBusy s)
    (hdecode : decode s.regs.cmd = .command (.benchmark sel)) (hrunning : s.scratch.benchRunning = false) :
    ScratchWhileBusy (benchStart sn s) := by
  rcases h with hzero | ⟨hrunning', -⟩
  · refine .inr ⟨rfl, ⟨sel, hdecode⟩, ?_⟩
    rw [benchStart_scratch, hzero]
  · cases hrunning.symm.trans hrunning'

theorem scratchWhileBusy_benchPass {s : State} (h : ScratchWhileBusy s)
    (hrunning : s.scratch.benchRunning = true) : ScratchWhileBusy (benchPass s) := by
  rcases h with hzero | ⟨-, hdecode, hloop⟩
  · rw [hzero] at hrunning
    cases hrunning
  · refine .inr ⟨hrunning, hdecode, ?_⟩
    rw [benchPass_scratch, hloop]

/-- A command that completes with OK has stored inside DMEM only. -/
theorem Inv.complete_store {s : State} (h : Inv s) {base : Nat} {v : WordArray} {r : Regs} {l u c : Word}
    (hv : base + v.length ≤ s.cfg.dmemWords.toNat ∨ v = []) :
    Inv (complete l u c { s with dmem := memWrite s.dmem base v, regs := r }) := by
  refine inv_of_idle (memWrite_wf h.memory_canonical base v) ?_ rfl rfl
  rcases hv with hin | rfl
  · exact memWrite_inWindow h.memory_in_window hin
  · exact h.memory_in_window

theorem Inv.raiseStatus {s : State} (h : Inv s) (k : StatusCode) : Inv (raiseStatus k s) :=
  inv_of_idle h.memory_canonical h.memory_in_window rfl rfl

/-- The latched command keeps the invariant; that it is the latched one matters to BENCHMARK's scratch. -/
theorem Inv.exec {s t : State} {sn : Snapshot} {i : Instr} (h : Inv s) (hbusy : s.phase = .busy sn)
    (hdecode : decode s.regs.cmd = .command i) (hexec : exec i s = .next t) : Inv t := by
  obtain ⟨hcoherent, hdone, hcode, hscratch⟩ := (phaseOk_of_busy hbusy).mp h.phase_ok
  rcases exec_shape hexec with ⟨k, -, rfl⟩ | ⟨-, ⟨-, ht, hsame | ⟨sel, rfl, ⟨rfl, hrunning⟩ | ⟨rfl, hrunning⟩⟩⟩ |
    ⟨v, r, l, u, c, rfl, hv, -⟩⟩
  · exact h.raiseStatus k
  · rw [ht, hsame]
    exact h
  · exact ⟨h.memory_canonical, h.memory_in_window, (phaseOk_of_busy (sn := sn) (by exact hbusy)).mpr
      ⟨hcoherent, hdone, hcode, scratchWhileBusy_benchStart hscratch hdecode hrunning⟩⟩
  · exact ⟨h.memory_canonical, h.memory_in_window, (phaseOk_of_busy (sn := sn) (by exact hbusy)).mpr
      ⟨hcoherent, hdone, hcode, scratchWhileBusy_benchPass hscratch hrunning⟩⟩
  · exact h.complete_store (hv.imp_left fun hin => hin.2)

theorem Inv.coreStep {s t : State} (h : Inv s) (hstep : coreStep s = .next t) : Inv t := by
  rcases coreStep_cases hstep with ⟨-, e⟩ | ⟨sn, hbusy, ⟨why, -, e⟩ | ⟨i, hdecode, e⟩⟩
  · cases e
    exact h
  · cases e
    exact h.raiseStatus _
  · exact h.exec hbusy hdecode e.symm

/-- Reset meets the invariant in every configuration: the memory is empty. -/
theorem inv_resetOf (c : Config) : Inv (State.resetOf c) :=
  inv_of_idle Memory.wf_nil (fun _ hcell => absurd hcell List.not_mem_nil) rfl rfl

theorem Inv.step {s t : State} (h : Inv s) (hstep : step s = .next t) : Inv t := by
  rcases step_next_cases hstep with ⟨es, -, e⟩ | ⟨es, width, addr, v, -, rfl⟩ | ⟨es, width, addr, -, rfl⟩ |
    ⟨es, n, -, rfl⟩ | ⟨es, -, rfl⟩
  · exact (h.with_inbox es).coreStep e
  · exact (h.with_inbox es).hostWrite width addr v
  · exact ⟨h.memory_canonical, h.memory_in_window, h.phase_ok⟩
  · exact (h.with_inbox es).tick n
  · exact inv_of_idle Memory.wf_nil (fun _ hcell => absurd hcell List.not_mem_nil) rfl rfl

end Sys2Proof.Machine

namespace Sys2Proof.Proofs
open Sys2Proof.Machine

/-- Settles O56: each event and the core's step keeps the invariant. -/
theorem stepKeepsTheInvariant : Obligations.StepKeepsTheInvariant := fun _ _ h hstep => h.step hstep

/-- Settles O55. -/
theorem resetMeetsTheInvariant : Obligations.ResetMeetsTheInvariant :=
  ⟨inv_resetOf, inv_resetOf Config.vectorInstance⟩

/-- Settles O26: an event answers by its definition, and the core's step because every command does. -/
theorem everyStepAnswersNext : Obligations.EveryStepAnswersNext := by
  intro s
  rcases step_cases (rfl : step s = step s) with ⟨-, h⟩ | ⟨e, es, -, ⟨-, h⟩ | ⟨_, _, _, -, h⟩ | ⟨_, _, -, h⟩ |
    ⟨_, -, h⟩ | ⟨-, h⟩⟩
  · exact h ▸ coreStep_next s
  · exact h ▸ coreStep_next _
  all_goals exact ⟨_, h⟩

/-- Settles O57: no step writes `cfg`, and ID and CFG_* read nothing else. -/
theorem constantsNeverChange : Obligations.ConstantsNeverChange := by
  intro s t h
  have hcfg := step_cfg h
  exact ⟨hcfg, rfl, congrArg Config.dmemWords hcfg, congrArg Config.padCapWords hcfg,
    congrArg Config.alphaCap hcfg, congrArg Config.timebaseHz hcfg⟩

/-- Settles O59: a read appends its value; no other step touches the observation. -/
theorem observationsOnlyGrow : Obligations.ObservationsOnlyGrow := by
  refine ⟨fun s width addr es hread => ⟨hostReadValue width addr { s with inbox := es }, ?_⟩,
    fun _ _ => step_observed⟩
  simp only [step, hread, hostRead]

/-- Settles O15: a tick adds to TIME as a word, and only ticks and reset write it. -/
theorem timeMovesByTicksAlone : Obligations.TimeMovesByTicksAlone := by
  refine ⟨fun s n es htick => ⟨tick n { s with inbox := es }, by simp only [step, htick], ?_, rfl⟩,
    fun _ _ => step_time⟩
  rw [tick_regs, BitVec.toNat_add, BitVec.toNat_ofNat, Nat.add_mod_mod]

end Sys2Proof.Proofs
end

section
/-! PROOFS. The family 45_descriptor.md: SET_MODE (R322), BUMP_NONCE (R323), and that over the life of a
descriptor no nonce is used twice (R325). -/

namespace Sys2Proof.Machine

/-! ### A command that has not completed (R87) -/

/-- A command either completes or leaves all but scratch as it was. -/
theorem exec_unfinished {i : Instr} {s t : State} (h : exec i s = .next t) (hunfinished : t.phase ≠ .idle) :
    t = { s with scratch := t.scratch } := by
  rcases exec_shape h with ⟨k, -, rfl⟩ | ⟨-, ⟨-, ht, -⟩ | ⟨v, r, l, u, c, rfl, -, -⟩⟩
  · exact absurd rfl hunfinished
  · exact ht
  · exact absurd rfl hunfinished

/-! ### SET_MODE (R322) -/

/-- With registered selectors SET_MODE fails only on the way into ENCRYPTED, with MALFORMED. -/
theorem setMode_failure {sel : Selectors} {target : Mode} {r : Regs} {k : StatusCode}
    (hsel : sel.registered = true)
    (h : firstFailure ((sel.registered, .unsupported) :: setModeChecks target r) = some k) :
    target = .encrypted ∧ r.mode = .generated ∧ k = .malformed := by
  rw [firstFailure_cons, hsel, if_pos rfl, setModeChecks, firstFailure_cons, firstFailure_nil] at h
  cases target <;> cases hmode : r.mode <;> simp [hmode] at h ⊢
  exact h.symm

/-! ### The nonces already used (R325) -/

/-- The least nonce not yet used under this descriptor: a stored ciphertext whose nonce has not moved since
(ENCRYPTED with NB clear) holds the current one. -/
def nextFresh (d : Descriptor) : Nat :=
  if d.mode = .encrypted ∧ d.nb = false then d.nonce.toNat + 1 else d.nonce.toNat

/-- The invariant of a descriptor's life: the used nonces fall, and all are below the next fresh one. -/
structure FreshAbove (used : List Nat) (d : Descriptor) : Prop where
  falling : used.Pairwise (· > ·)
  below : ∀ n ∈ used, n < nextFresh d
  bounded : ∀ n ∈ used, n < 2 ^ 64

theorem nextFresh_le_succ (d : Descriptor) : nextFresh d ≤ d.nonce.toNat + 1 := by
  unfold nextFresh
  split <;> omega

theorem nonce_le_nextFresh (d : Descriptor) : d.nonce.toNat ≤ nextFresh d := by
  unfold nextFresh
  split <;> omega

theorem nextFresh_of_generated {d : Descriptor} (h : d.mode = .generated) : nextFresh d = d.nonce.toNat :=
  if_neg fun hencrypted => Mode.noConfusion (h.symm.trans hencrypted.1)

theorem nextFresh_of_bumped {d : Descriptor} (h : d.nb = true) : nextFresh d = d.nonce.toNat :=
  if_neg fun hclear => Bool.noConfusion (h.symm.trans hclear.2)

/-- A nonce that does not wrap grows by one (R323). -/
theorem toNat_succ_of_not_wraps {x : Word} (h : ¬ (x = 0xFFFFFFFFFFFFFFFF ∧ x + 1 = 0)) :
    (x + 1).toNat = x.toNat + 1 := by
  rcases eq_or_ne x 0xFFFFFFFFFFFFFFFF with rfl | hne
  · exact absurd ⟨rfl, rfl⟩ h
  · have hlt : x.toNat ≠ 2 ^ 64 - 1 := fun he => hne (BitVec.eq_of_toNat_eq he)
    have := x.isLt
    rw [BitVec.toNat_add]
    simp
    omega

/-- No command that does not wrap the nonce makes a used nonce fresh again. -/
theorem nextFresh_le_descriptorAfter {d : Descriptor} {i : Instr}
    (hwrap : ¬ (d.nonce = 0xFFFFFFFFFFFFFFFF ∧ (descriptorAfter d i).nonce = 0)) :
    nextFresh d ≤ nextFresh (descriptorAfter d i) := by
  cases i with
  | setMode sel target =>
    cases target with
    | encrypted => exact le_rfl
    | generated =>
      cases hmode : d.mode with
      | generated => simp only [descriptorAfter, hmode, le_refl]
      | encrypted =>
        simp only [descriptorAfter, hmode] at hwrap ⊢
        rw [nextFresh_of_generated (d := ⟨.generated, _, false⟩) rfl]
        cases hnb : d.nb with
        | true => rw [nextFresh_of_bumped hnb]; exact le_rfl
        | false =>
          rw [hnb] at hwrap
          exact (nextFresh_le_succ d).trans (toNat_succ_of_not_wraps hwrap).ge
  | bumpNonce sel =>
    exact (nextFresh_le_succ d).trans
      ((toNat_succ_of_not_wraps hwrap).ge.trans (nonce_le_nextFresh (descriptorAfter d (.bumpNonce sel))))
  | encryptPw sel =>
    have hstored : nextFresh (descriptorAfter d (.encryptPw sel)) =
        (descriptorAfter d (.encryptPw sel)).nonce.toNat + 1 := if_pos ⟨rfl, rfl⟩
    rw [hstored]
    cases hmode : d.mode with
    | generated =>
      simp only [descriptorAfter, hmode]
      exact nextFresh_le_succ d
    | encrypted =>
      simp only [descriptorAfter, hmode] at hwrap ⊢
      rw [toNat_succ_of_not_wraps hwrap]
      exact (nextFresh_le_succ d).trans (Nat.le_succ _)
  | _ => exact le_rfl

/-- ENCRYPT_PW stores under a fresh nonce. -/
theorem nextFresh_le_encryptPw_nonce {d : Descriptor} {sel : Selectors}
    (hwrap : ¬ (d.nonce = 0xFFFFFFFFFFFFFFFF ∧ (descriptorAfter d (.encryptPw sel)).nonce = 0)) :
    nextFresh d ≤ (descriptorAfter d (.encryptPw sel)).nonce.toNat := by
  cases hmode : d.mode with
  | generated =>
    simp only [descriptorAfter, hmode]
    exact (nextFresh_of_generated hmode).le
  | encrypted =>
    simp only [descriptorAfter, hmode] at hwrap ⊢
    exact (nextFresh_le_succ d).trans (toNat_succ_of_not_wraps hwrap).ge

theorem FreshAbove.mono {used : List Nat} {d d' : Descriptor} (h : FreshAbove used d)
    (hle : nextFresh d ≤ nextFresh d') : FreshAbove used d' :=
  ⟨h.falling, fun n hn => (h.below n hn).trans_le hle, h.bounded⟩

theorem FreshAbove.cons_encryptPw {used : List Nat} {d : Descriptor} {sel : Selectors} (h : FreshAbove used d)
    (hwrap : ¬ (d.nonce = 0xFFFFFFFFFFFFFFFF ∧ (descriptorAfter d (.encryptPw sel)).nonce = 0)) :
    FreshAbove ((descriptorAfter d (.encryptPw sel)).nonce.toNat :: used) (descriptorAfter d (.encryptPw sel)) := by
  have hkept := h.mono (nextFresh_le_descriptorAfter hwrap)
  have hfresh := nextFresh_le_encryptPw_nonce hwrap
  refine ⟨List.pairwise_cons.mpr ⟨fun n hn => (h.below n hn).trans_le hfresh, h.falling⟩,
    List.forall_mem_cons.mpr ⟨?_, hkept.below⟩, List.forall_mem_cons.mpr ⟨BitVec.isLt _, h.bounded⟩⟩
  rw [nextFresh, if_pos ⟨rfl, rfl⟩]
  exact Nat.lt_succ_self _

/-! ### A command in a descriptor's life (R325) -/

/-- On a coherent descriptor a command keeps it, or completes with OK and leaves the table's. -/
theorem exec_descriptor_cases {i : Instr} {s t : State} {sn : Snapshot} (hbusy : s.phase = .busy sn)
    (hsame : sn.regs.descriptor = s.regs.descriptor) (h : exec i s = .next t) :
    t.regs.descriptor = s.regs.descriptor ∨
      (t.regs.code = .ok ∧ t.regs.descriptor = descriptorAfter s.regs.descriptor i) := by
  by_cases hidle : t.phase = .idle
  · rcases exec_idle_descriptor (inputs_busy hbusy ▸ hsame) hbusy h hidle with ⟨-, hkept⟩ | ⟨hok, -, hafter⟩
    · exact .inl hkept
    · exact .inr ⟨hok, hafter⟩
  · rw [exec_unfinished h hidle]
    exact .inl rfl

/-- ENCRYPT_PW that ended with OK has stored its ciphertext. -/
theorem exec_encryptPw_ok {sel : Selectors} {s t : State} {sn : Snapshot} (hbusy : s.phase = .busy sn)
    (hsame : sn.regs.descriptor = s.regs.descriptor) (h : exec (.encryptPw sel) s = .next t)
    (hok : t.regs.code = .ok) : t.regs.descriptor = descriptorAfter s.regs.descriptor (.encryptPw sel) := by
  have hidle : t.phase = .idle := by
    rcases execEncryptPw_cases h with ⟨k, -, rfl⟩ | ⟨-, rfl⟩ <;> rfl
  rcases exec_idle_descriptor (inputs_busy hbusy ▸ hsame) hbusy h hidle with ⟨hfailed, -⟩ | ⟨-, -, hafter⟩
  · exact absurd hok hfailed
  · exact hafter

/-- The invariant holds all along a descriptor's life. -/
theorem DescriptorLife.freshAbove {used : List Nat} {d : Descriptor} (h : DescriptorLife used d) :
    FreshAbove used d := by
  induction h with
  | created d hmode => exact ⟨List.Pairwise.nil, nofun, nofun⟩
  | other used s t sn i _ hbusy hsame hruns _ hwrap ih =>
    rcases exec_descriptor_cases hbusy hsame hruns with hkept | ⟨-, hafter⟩
    · rwa [hkept]
    · have hnonce : t.regs.nonce = _ := congrArg Descriptor.nonce hafter
      rw [NonceWraps, hnonce] at hwrap
      exact hafter ▸ ih.mono (nextFresh_le_descriptorAfter hwrap)
  | encrypted used s t sn sel _ hbusy hsame hruns hok hwrap ih =>
    have hafter := exec_encryptPw_ok hbusy hsame hruns hok
    have hnonce : t.regs.nonce = _ := congrArg Descriptor.nonce hafter
    rw [NonceWraps, hnonce] at hwrap
    rw [hafter, hnonce]
    exact ih.cons_encryptPw hwrap

/-- Different nonces give different MAC inputs of one service. -/
theorem serviceNonce_injective (svc : WordArray) : Function.Injective (serviceNonce svc) := by
  intro a b h
  exact List.singleton_inj.mp (List.append_cancel_left h)

end Sys2Proof.Machine

namespace Sys2Proof.Proofs
open Sys2Proof.Machine

/-- Settles O53: all used nonces stay below the next fresh one, which ENCRYPT_PW never goes below; as words
below 2^64 they are told apart in the MAC input. -/
theorem noncesStrictlyGrow : Obligations.NoncesStrictlyGrow := by
  intro used d hlife
  obtain ⟨hfalling, -, hbounded⟩ := hlife.freshAbove
  refine ⟨hfalling, fun svc => ?_⟩
  refine List.Nodup.map_on (fun n hn m hm hsame => ?_) (hfalling.imp fun hgt => (Nat.ne_of_gt hgt))
  have hword := congrArg BitVec.toNat (serviceNonce_injective svc hsame)
  rwa [BitVec.toNat_ofNat, BitVec.toNat_ofNat, Nat.mod_eq_of_lt (hbounded n hn),
    Nat.mod_eq_of_lt (hbounded m hm)] at hword

/-- Settles O50: the three ways SET_MODE ends are the three clauses, which exclude each other. -/
theorem setModeFollowsRule322 : Obligations.SetModeFollowsRule322 := by
  intro s sn sel target hbusy hsel
  obtain ⟨t, hexec⟩ := exec_next (.setMode sel target) s
  refine ⟨t, hexec, ?_⟩
  rw [← inputs_busy hbusy]
  rcases execSetMode_cases hexec with ⟨k, hfails, rfl⟩ | ⟨-, ⟨rfl, hmode, rfl⟩ | ⟨rfl, rfl⟩⟩
  · obtain ⟨rfl, hmode, rfl⟩ := setMode_failure hsel hfails
    exact ⟨rfl, fun h => absurd (h.trans hmode) nofun, nofun, fun _ _ => (raiseStatus_completedWith _ s).1⟩
  · exact ⟨rfl, fun h => absurd (h.trans hmode) nofun, fun _ _ => ⟨rfl, rfl, rfl, rfl, rfl, rfl⟩, nofun⟩
  · exact ⟨rfl, fun _ => ⟨rfl, rfl, rfl, rfl, rfl, rfl⟩, fun h h' => absurd (h.symm.trans h') nofun,
      fun h h' => absurd (h.symm.trans h') nofun⟩

/-- Settles O51. -/
theorem bumpNonceFollowsRule323 : Obligations.BumpNonceFollowsRule323 := by
  intro s sn sel hbusy hsel
  obtain ⟨t, hexec⟩ := exec_next (.bumpNonce sel) s
  refine ⟨t, hexec, ?_⟩
  rw [← inputs_busy hbusy]
  rcases execBumpNonce_cases hexec with ⟨hunregistered, -⟩ | ⟨-, rfl⟩
  · cases hunregistered.symm.trans hsel
  · refine ⟨rfl, BitVec.toNat_add _ _, rfl, rfl, rfl, rfl, rfl, ?_⟩
    cases s.inputs.regs.mode <;> rfl

end Sys2Proof.Proofs
end

section
/-! PROOFS. The family 43_generator.md: the search over the counter (R249), a search that no counter satisfies
(R250, R390), and what a generator command whose search returns leaves (R254, R286). -/

namespace Sys2Proof.Machine

/-! ### One pass of the search (R249) -/

theorem tryCounter_eq_some {rule : DigitRule} {hk : WordArray} {c : Constraints} {ctr : Word} {t : Text} :
    tryCounter rule hk c ctr = some t ↔
      ∃ marks, scan (candidate rule hk ctr (alphabet c)) c = some marks ∧
        truncateTo (candidate rule hk ctr (alphabet c)) marks c.maxlen = some t := by
  rw [tryCounter]
  cases scan (candidate rule hk ctr (alphabet c)) c with
  | none => simp
  | some marks => simp

/-- Every mark is a unit of the candidate, so a candidate shorter than the minimums cannot pass. -/
theorem tryCounter_of_short {rule : DigitRule} {hk : WordArray} {c : Constraints} {ctr : Word}
    (h : candidateLen rule (alphabet c).length < c.caps + c.digits) : tryCounter rule hk c ctr = none := by
  by_contra hpasses
  obtain ⟨t, ht⟩ := Option.ne_none_iff_exists'.mp hpasses
  obtain ⟨marks, hscan, -⟩ := tryCounter_eq_some.mp ht
  obtain ⟨hlength, hmarked⟩ := scan_marks hscan
  have hle : marks.count true ≤ marks.length := List.count_le_length
  rw [hmarked, hlength, candidate_length] at hle
  omega

/-! ### The search (R249) -/

theorem add_one_add_ofNat (a : Word) (k : Nat) : a + 1 + BitVec.ofNat 64 k = a + BitVec.ofNat 64 (k + 1) := by
  rw [BitVec.add_assoc, Nat.add_comm k 1, BitVec.ofNat_add]
  rfl

/-- The search returns the first counter that passes, of those it tries. -/
theorem firstPassing_eq_some {attempt : Word → Option Text} {n : Nat} {ctr0 ctr : Word} {t : Text} :
    firstPassing attempt n ctr0 = some (t, ctr) ↔
      ∃ k, k < n ∧ ctr = ctr0 + BitVec.ofNat 64 k ∧ attempt ctr = some t ∧
        ∀ j, j < k → attempt (ctr0 + BitVec.ofNat 64 j) = none := by
  induction n generalizing ctr0 with
  | zero => simp [firstPassing]
  | succ n ih =>
    rw [firstPassing]
    cases hfirst : attempt ctr0 with
    | some p =>
      constructor
      · rintro ⟨⟩
        exact ⟨0, Nat.succ_pos n, (BitVec.add_zero _).symm, hfirst, nofun⟩
      · rintro ⟨k, -, rfl, hpass, hbefore⟩
        cases k with
        | zero =>
          rw [BitVec.add_zero, hfirst] at hpass
          cases hpass
          rw [BitVec.add_zero]
        | succ k =>
          have hnone := hbefore 0 (Nat.succ_pos k)
          rw [BitVec.add_zero, hfirst] at hnone
          cases hnone
    | none =>
      simp only
      rw [ih]
      constructor
      · rintro ⟨k, hk, rfl, hpass, hbefore⟩
        refine ⟨k + 1, Nat.succ_lt_succ hk, add_one_add_ofNat ctr0 k, hpass, fun j hj => ?_⟩
        cases j with
        | zero => rwa [BitVec.add_zero]
        | succ j => exact add_one_add_ofNat ctr0 j ▸ hbefore j (Nat.lt_of_succ_lt_succ hj)
      · rintro ⟨k, hk, rfl, hpass, hbefore⟩
        cases k with
        | zero =>
          rw [BitVec.add_zero, hfirst] at hpass
          cases hpass
        | succ k =>
          exact ⟨k, Nat.lt_of_succ_lt_succ hk, (add_one_add_ofNat ctr0 k).symm, hpass,
            fun j hj => add_one_add_ofNat ctr0 j ▸ hbefore (j + 1) (Nat.succ_lt_succ hj)⟩

/-- A search fails exactly where every counter it tries does. -/
theorem firstPassing_eq_none {attempt : Word → Option Text} {n : Nat} {ctr0 : Word} :
    firstPassing attempt n ctr0 = none ↔ ∀ k, k < n → attempt (ctr0 + BitVec.ofNat 64 k) = none := by
  induction n generalizing ctr0 with
  | zero => simp [firstPassing]
  | succ n ih =>
    rw [firstPassing]
    cases hfirst : attempt ctr0 with
    | some p =>
      refine iff_of_false nofun fun hall => ?_
      have hnone := hall 0 (Nat.succ_pos n)
      rw [BitVec.add_zero, hfirst] at hnone
      cases hnone
    | none =>
      simp only
      rw [ih]
      refine ⟨fun h k hk => ?_, fun h k hk => add_one_add_ofNat ctr0 k ▸ h (k + 1) (Nat.succ_lt_succ hk)⟩
      cases k with
      | zero => rwa [BitVec.add_zero]
      | succ k => exact add_one_add_ofNat ctr0 k ▸ h k (Nat.lt_of_succ_lt_succ hk)

/-- So many counters from ctr0 on are all there are. -/
theorem exists_offset (ctr0 ctr : Word) : ∃ k, k < counterValues ∧ ctr = ctr0 + BitVec.ofNat 64 k := by
  refine ⟨(ctr - ctr0).toNat, (ctr - ctr0).isLt, ?_⟩
  rw [BitVec.ofNat_toNat, BitVec.setWidth_eq, BitVec.add_comm, BitVec.sub_add_cancel]

theorem gen_eq_none {rule : DigitRule} {hk : WordArray} {c : Constraints} {ctr0 : Word} :
    gen rule hk c ctr0 = none ↔ ∀ ctr, tryCounter rule hk c ctr = none := by
  rw [gen, firstPassing_eq_none]
  refine ⟨fun h ctr => ?_, fun h k _ => h _⟩
  obtain ⟨k, hlt, rfl⟩ := exists_offset ctr0 ctr
  exact h k hlt

/-- A first counter that passes is the search's. -/
theorem gen_of_first {rule : DigitRule} {hk : WordArray} {c : Constraints} {ctr : Word} {t : Text}
    (h : tryCounter rule hk c ctr = some t) : gen rule hk c ctr = some (t, ctr) := by
  rw [gen, firstPassing_eq_some]
  exact ⟨0, Nat.two_pow_pos 64, (BitVec.add_zero _).symm, h, nofun⟩

/-! ### The commands that search (R254, R286) -/

/-- The commands that run the generator, with the hashed key they run it on. -/
inductive Searches (sn : Snapshot) : Instr → WordArray → Prop where
  /-- GENERATE takes the key from SRCA (R254). -/
  | generate (sel : Selectors) : Searches sn (.generate sel) sn.srca
  /-- COMPUTE_PW in GENERATED mode derives it (R286). -/
  | computePw (sel : Selectors) (h : sn.regs.mode = .generated) :
      Searches sn (.computePw sel) (derive sn.srca sn.srcb sn.regs.nonce sn.regs.iter)

/-- The two commands as the statements write them. -/
theorem searches_of_or {sn : Snapshot} {sel : Selectors} {i : Instr} {hk : WordArray}
    (h : (i = .generate sel ∧ hk = sn.srca) ∨
      (i = .computePw sel ∧ sn.regs.mode = .generated ∧
        hk = derive sn.srca sn.srcb sn.regs.nonce sn.regs.iter)) : Searches sn i hk := by
  rcases h with ⟨rfl, rfl⟩ | ⟨rfl, hmode, rfl⟩
  · exact .generate sel
  · exact .computePw sel hmode

section
variable {s : State} {sn : Snapshot} {i : Instr} {hk : WordArray} (hbusy : s.phase = .busy sn)
include hbusy

/-- Where no check of them fails, both end in the generator's search. -/
theorem exec_of_searches (hruns : Runs s.cfg sn.regs i) (h : Searches sn i hk) :
    exec i s = .next (finishGenerate hk s) := by
  obtain ⟨t, hexec⟩ := exec_next i s
  have hinputs := inputs_busy hbusy
  have hnone := (runs_iff _ _ _).mp (hinputs.symm ▸ hruns : Runs s.cfg s.inputs.regs i)
  rw [hexec]
  cases h with
  | generate sel => rw [effect_of_no_failure hnone (execGenerate_cases hexec), hinputs]
  | computePw sel hmode =>
    rcases effect_of_no_failure hnone (execComputePw_cases hexec) with ⟨-, ht⟩ | ⟨hmode', -⟩
    · rw [ht, hinputs, Snapshot.derivedKey]
    · rw [hinputs, hmode] at hmode'
      cases hmode'

theorem finishGenerate_of_none
    (h : ∀ ctr, tryCounter s.cfg.digitRule hk sn.constraints ctr = none) : finishGenerate hk s = s := by
  rcases finishGenerate_cases hk s with ⟨-, e⟩ | ⟨p, ctr, hgen, -⟩
  · exact e
  · rw [inputs_busy hbusy, gen_eq_none.mpr h] at hgen
    cases hgen

/-- What a search that returns leaves: the password at DST_BASE, the counter in DESC_COUNTER, and no other
change but the completion's (R252, R254). -/
theorem finishGenerate_of_gen {p : Text} {ctr : Word} (hwf : s.dmem.wf)
    (h : gen s.cfg.digitRule hk sn.constraints sn.regs.counter = some (p, ctr)) :
    StoresExactly s.dmem (finishGenerate hk s).dmem sn.regs.dstBase.toNat (rawEncode p) ∧
      CompletedWith s (finishGenerate hk s) { s.regs with counter := ctr } .ok
        (BitVec.ofNat 64 (outputWords s.cfg.digitRule sn.regs))
        (BitVec.ofNat 64 (outputLen s.cfg.digitRule sn.regs)) 0 := by
  rcases finishGenerate_cases hk s with ⟨hgen, -⟩ | ⟨p', ctr', hgen, e⟩ <;>
    rw [inputs_busy hbusy, h] at hgen <;> cases hgen
  rw [e, inputs_busy hbusy]
  exact ⟨memWrite_storesExactly hwf _ _, rfl, rfl, rfl, rfl, rfl, rfl⟩

end

/-! ### A hopeless search as a run (R250, R390) -/

/-- A core that is BUSY with this snapshot, command word and configuration, and no reset ahead. -/
structure BusyWith (sn : Snapshot) (w : Word) (c : Config) (s : State) : Prop where
  phase : s.phase = .busy sn
  cmd : s.regs.cmd = w
  cfg : s.cfg = c
  noReset : Event.reset ∉ s.inbox

/-- A command that leaves such a core as it is never lets it go: the host's writes cannot either. -/
theorem BusyWith.step {sn : Snapshot} {w : Word} {c : Config} {i : Instr} {s t : State}
    (hdecode : decode w = .command i) (hstands : ∀ u, BusyWith sn w c u → exec i u = .next u)
    (h : BusyWith sn w c s) (hstep : step s = .next t) : BusyWith sn w c t := by
  have hrest {e : Event} {es : List Event} (hinbox : s.inbox = e :: es) :
      BusyWith sn w c { s with inbox := es } :=
    ⟨h.phase, h.cmd, h.cfg, fun hmem => h.noReset (hinbox ▸ List.mem_cons_of_mem e hmem)⟩
  rcases step_next_cases hstep with ⟨es, hturn, e⟩ | ⟨es, width, addr, v, hinbox, rfl⟩ |
    ⟨es, width, addr, hinbox, rfl⟩ | ⟨es, n, hinbox, rfl⟩ | ⟨es, hinbox, -⟩
  · have hmoves : BusyWith sn w c { s with inbox := es } := by
      rcases hturn with ⟨-, rfl⟩ | hinbox
      · exact h
      · exact hrest hinbox
    rcases coreStep_cases e with ⟨hidle, -⟩ | ⟨_, -, ⟨_, hillegal, -⟩ | ⟨j, hcommand, ht⟩⟩
    · cases hidle.symm.trans hmoves.phase
    · cases (hmoves.cmd ▸ hillegal).symm.trans hdecode
    · cases (hmoves.cmd ▸ hcommand).symm.trans hdecode
      cases ht.trans (hstands _ hmoves)
      exact hmoves
  · obtain ⟨hphase, hcmd, hcfg, hnoReset⟩ := hrest hinbox
    rcases hostWrite_of_busy (busy_of_phase hphase) width addr v with e | e | e <;> rw [e] <;>
      exact ⟨hphase, hcmd, hcfg, hnoReset⟩
  · obtain ⟨hphase, hcmd, hcfg, hnoReset⟩ := hrest hinbox
    exact ⟨hphase, hcmd, hcfg, hnoReset⟩
  · obtain ⟨hphase, hcmd, hcfg, hnoReset⟩ := hrest hinbox
    exact ⟨hphase, hcmd, hcfg, hnoReset⟩
  · exact absurd (hinbox ▸ List.mem_cons_self) h.noReset

theorem BusyWith.steps {sn : Snapshot} {w : Word} {c : Config} {i : Instr} {s t : State} {k : Nat}
    (hdecode : decode w = .command i) (hstands : ∀ u, BusyWith sn w c u → exec i u = .next u)
    (h : BusyWith sn w c s) (hsteps : Steps k s t) : BusyWith sn w c t := by
  induction k generalizing s with
  | zero => exact hsteps ▸ h
  | succ k ih =>
    obtain ⟨u, hstep, hsteps⟩ := hsteps
    exact ih (h.step hdecode hstands hstep) hsteps

end Sys2Proof.Machine

namespace Sys2Proof.Proofs
open Sys2Proof.Machine

/-- Settles O38. -/
theorem searchReturnsTheFirstPassing : Obligations.SearchReturnsTheFirstPassing :=
  ⟨fun _ _ _ _ _ => tryCounter_eq_some, fun _ _ _ _ _ _ => firstPassing_eq_some⟩

/-- Settles O39: the search tries every counter; where none passes the command leaves the core as it is, and
no event but a reset takes a BUSY core, its command or its configuration away. -/
theorem hopelessSearchNeverCompletes : Obligations.HopelessSearchNeverCompletes := by
  refine ⟨fun _ _ _ _ => gen_eq_none, fun _ _ _ _ => tryCounter_of_short, ?_⟩
  intro s t sn sel i hk k hbusy hdecode hsearch hruns hhopeless hnoReset hsteps
  have hstands (u : State) (hu : BusyWith sn s.regs.cmd s.cfg u) : exec i u = .next u := by
    rw [exec_of_searches hu.phase (hu.cfg ▸ hruns) (searches_of_or hsearch),
      finishGenerate_of_none hu.phase (hu.cfg ▸ hhopeless)]
  exact (BusyWith.steps hdecode hstands ⟨hbusy, rfl, rfl, hnoReset⟩ hsteps).phase

/-- Settles O41. -/
theorem generateWritesThePassword : Obligations.GenerateWritesThePassword := by
  intro s sn sel p ctr hwf hbusy hruns hgen
  obtain ⟨hstores, hcompleted⟩ := finishGenerate_of_gen hbusy hwf hgen
  exact ⟨_, exec_of_searches hbusy hruns (.generate sel), hstores, gen_words hgen, hcompleted⟩

/-- Settles O44. -/
theorem computePwGenerates : Obligations.ComputePwGenerates := by
  intro s sn sel p ctr hwf hbusy hruns hmode hgen
  obtain ⟨hstores, hcompleted⟩ := finishGenerate_of_gen hbusy hwf hgen
  exact ⟨_, exec_of_searches hbusy hruns (.computePw sel hmode), hstores, gen_words hgen, hcompleted⟩

end Sys2Proof.Proofs
end

section
/-! PROOFS. The family 30_encoding.md: the raw encoding of a text (R120-R122) and the hex encoding of a word
array (R124-R127), each with its decoding. -/

namespace Sys2Proof.Machine

/-! ### The units of a word (R120) -/

/-- Unit k of a word stands at bits [63−16k : 48−16k]. -/
theorem unitsOfWord_getD (w : Word) {k : Nat} (hk : k < 4) :
    (unitsOfWord w).getD k 0 = w.extractLsb' (48 - 16 * k) 16 := by
  interval_cases k <;> rfl

@[simp] theorem unitsOfWord_length (w : Word) : (unitsOfWord w).length = 4 := rfl

@[simp] theorem unitsOfWord_wordOfUnits (a b c d : CodeUnit) :
    unitsOfWord (wordOfUnits a b c d) = [a, b, c, d] := by
  simp only [unitsOfWord, wordOfUnits, List.cons.injEq, and_true]
  refine ⟨?_, ?_, ?_, BitVec.extractLsb'_append_eq_right⟩
  · rw [BitVec.extractLsb'_append_eq_of_le (by decide), BitVec.extractLsb'_append_eq_of_le (by decide),
      BitVec.extractLsb'_append_eq_left]
  · rw [BitVec.extractLsb'_append_eq_of_le (by decide), BitVec.extractLsb'_append_eq_of_le (by decide),
      BitVec.extractLsb'_append_eq_right]
  · rw [BitVec.extractLsb'_append_eq_of_le (by decide), BitVec.extractLsb'_append_eq_right]

@[simp] theorem flatMap_unitsOfWord_length (p : WordArray) : (p.flatMap unitsOfWord).length = 4 * p.length := by
  induction p with
  | nil => rfl
  | cons w p ih => rw [List.flatMap_cons, List.length_append, ih, unitsOfWord_length, List.length_cons]; omega

/-- The units of a word array, by word and place. -/
theorem flatMap_unitsOfWord_getD (p : WordArray) {i k : Nat} (hi : i < p.length) (hk : k < 4) :
    (p.flatMap unitsOfWord).getD (4 * i + k) 0 = (p.getD i 0).extractLsb' (48 - 16 * k) 16 := by
  rw [Nat.mul_comm, flatMap_getD_of_length_eq unitsOfWord_length hi hk 0 0, unitsOfWord_getD _ hk]

/-! ### The raw encoding (R120) -/

theorem getD_append_replicate {α : Type} (l : List α) (n i : Nat) (d : α) :
    (l ++ List.replicate n d).getD i d = l.getD i d := by
  rcases Nat.lt_or_ge i l.length with hin | hout
  · exact List.getD_append _ _ _ _ hin
  · rw [List.getD_append_right _ _ _ _ hout, List.getD_eq_default _ _ hout,
      List.getD_eq_getElem?_getD, List.getElem?_replicate]
    split <;> rfl

/-- The raw encoding holds the text, filled up with zeros to whole words. -/
theorem rawEncode_units (t : Text) :
    (rawEncode t).flatMap unitsOfWord = t ++ List.replicate (4 * ceilDiv t.length 4 - t.length) 0 := by
  induction t using rawEncode.induct with
  | case1 | case2 a | case3 a b | case4 a b c => simp [rawEncode, ceilDiv]
  | case5 a b c d rest ih =>
    have hzeros : 4 * ceilDiv (a :: b :: c :: d :: rest).length 4 - (a :: b :: c :: d :: rest).length =
        4 * ceilDiv rest.length 4 - rest.length := by
      simp only [ceilDiv, List.length_cons]
      omega
    rw [rawEncode, List.flatMap_cons, ih, unitsOfWord_wordOfUnits, hzeros]
    rfl

/-! ### The raw-decoded length (R121, R287) -/

/-- Unit j counted from the low end. -/
def lowUnit (w : Word) (j : Nat) : CodeUnit := w.extractLsb' (16 * j) 16

theorem trailingZeroUnits_lowUnit (w : Word) :
    trailingZeroUnits w =
      ([lowUnit w 0, lowUnit w 1, lowUnit w 2, lowUnit w 3].takeWhile (· == 0)).length := rfl

theorem lowUnit_eq_zero {w : Word} {j : Nat} : lowUnit w j = 0#16 ↔ w.toNat / 2 ^ (16 * j) % 2 ^ 16 = 0 := by
  rw [← BitVec.toNat_inj, lowUnit, BitVec.extractLsb'_toNat, Nat.shiftRight_eq_div_pow]
  rfl

/-- The units below a multiple of 2^(16z) are zero. -/
theorem lowUnit_of_dvd {w : Word} {z j : Nat} (h : 2 ^ (16 * z) ∣ w.toNat) (hj : j < z) :
    lowUnit w j = 0#16 := by
  have hdvd : 2 ^ (16 * j) * 2 ^ 16 ∣ w.toNat := by
    rw [← pow_add]
    exact (pow_dvd_pow 2 (by omega)).trans h
  rw [lowUnit_eq_zero, ← Nat.mod_mul_right_div_self, Nat.mod_eq_zero_of_dvd hdvd, Nat.zero_div]

/-- A word that ends in exactly z zero units. -/
theorem trailingZeroUnits_eq {w : Word} {z : Nat} (hz : z ≤ 4) (hzero : w.toNat % 2 ^ (16 * z) = 0)
    (hnext : z < 4 → w.toNat / 2 ^ (16 * z) % 2 ^ 16 ≠ 0) : trailingZeroUnits w = z := by
  have hbelow (j : Nat) (hj : j < z) : lowUnit w j = 0#16 := lowUnit_of_dvd (Nat.dvd_of_mod_eq_zero hzero) hj
  have hstop (hlt : z < 4) : ¬ lowUnit w z = 0#16 := mt lowUnit_eq_zero.mp (hnext hlt)
  rw [trailingZeroUnits_lowUnit]
  interval_cases z <;> simp [hbelow, hstop]

theorem rawLen_concat (p : WordArray) (w : Word) :
    rawLen (p ++ [w]) = 4 * p.length + (4 - trailingZeroUnits w) := by
  simp [rawLen]

/-- Only the last word is looked at for zeros. -/
theorem rawLen_cons {p : WordArray} (h : p ≠ []) (w : Word) : rawLen (w :: p) = 4 + rawLen p := by
  obtain ⟨q, v, rfl⟩ := List.eq_nil_or_concat' p |>.resolve_left h
  rw [← List.cons_append, rawLen_concat, rawLen_concat, List.length_cons]
  omega

theorem rawLen_le (p : WordArray) : rawLen p ≤ 4 * p.length := by
  rcases List.eq_nil_or_concat' p with rfl | ⟨q, v, rfl⟩
  · exact le_rfl
  · rw [rawLen_concat, List.length_append, List.length_singleton]
    omega

theorem rawLen_wordOfUnits (a b c d : CodeUnit) :
    rawLen [wordOfUnits a b c d] = 4 - ([d, c, b, a].takeWhile (· == 0)).length := by
  rw [← List.nil_append [_], rawLen_concat, trailingZeroUnits, unitsOfWord_wordOfUnits]
  exact Nat.zero_add _

theorem rawEncode_ne_nil {t : Text} (h : t ≠ []) : rawEncode t ≠ [] := by
  intro hnil
  have hlength := rawEncode_length t
  rw [hnil, List.length_nil] at hlength
  have := List.length_pos_iff.mpr h
  simp only [ceilDiv] at hlength
  omega

/-- A text that does not end in NUL has the length its encoding decodes to. -/
theorem rawLen_rawEncode {t : Text} (h : t.getLast? ≠ some 0) : rawLen (rawEncode t) = t.length := by
  induction t using rawEncode.induct with
  | case1 => rfl
  | case2 a | case3 a b | case4 a b c =>
    simp only [List.getLast?_cons_cons, List.getLast?_singleton, ne_eq, Option.some.injEq,
      BitVec.ofNat_eq_ofNat] at h
    simp [rawEncode, rawLen_wordOfUnits, h]
  | case5 a b c d rest ih =>
    rw [rawEncode]
    cases rest with
    | nil =>
      simp only [List.getLast?_cons_cons, List.getLast?_singleton, ne_eq, Option.some.injEq,
      BitVec.ofNat_eq_ofNat] at h
      simp [rawEncode, rawLen_wordOfUnits, h]
    | cons u us =>
      simp only [List.getLast?_cons_cons] at h
      rw [rawLen_cons (rawEncode_ne_nil (List.cons_ne_nil u us)), ih h]
      simp only [List.length_cons]
      omega

/-! ### The raw decoding (R121) -/

theorem rawDecode_length (p : WordArray) : (rawDecode p).length = rawLen p := by
  rw [rawDecode, List.length_take, flatMap_unitsOfWord_length]
  exact min_eq_left (rawLen_le p)

theorem rawDecode_getD {p : WordArray} {i k : Nat} (hk : k < 4) (h : 4 * i + k < rawLen p) :
    (rawDecode p).getD (4 * i + k) 0 = (p.getD i 0).extractLsb' (48 - 16 * k) 16 := by
  have hi : i < p.length := by
    have := rawLen_le p
    omega
  rw [← flatMap_unitsOfWord_getD p hi hk, rawDecode, List.getD_eq_getElem?_getD, List.getElem?_take_of_lt h,
    ← List.getD_eq_getElem?_getD]

theorem rawDecode_rawEncode {t : Text} (h : t.getLast? ≠ some 0) : rawDecode (rawEncode t) = t := by
  rw [rawDecode, rawLen_rawEncode h, rawEncode_units, List.take_left]

/-! ### A hex digit (R124, R126) -/

theorem hexValue_hexDigit {d : Nat} (h : d < 16) : hexValue (hexDigit d) = some d := by
  interval_cases d <;> rfl

/-- A character is read as a digit only where it is that digit, in lower case. -/
theorem hexDigit_of_hexValue {ch : Char} {d : Nat} (h : hexValue ch = some d) :
    d < 16 ∧ hexDigit d = ch := by
  unfold hexValue at h
  split_ifs at h with hdecimal hletter <;> cases h
  · refine ⟨by omega, ?_⟩
    rw [hexDigit, if_pos (by omega), Nat.add_sub_cancel' hdecimal.1, Char.ofNat_toNat]
  · refine ⟨by omega, ?_⟩
    rw [hexDigit, if_neg (by omega), Nat.add_sub_cancel' (by omega), Char.ofNat_toNat]

/-! ### A block of hex digits (R124, R126) -/

@[simp] theorem hexDigits_length (n v : Nat) : (hexDigits n v).length = n := by
  induction n generalizing v with
  | zero => rfl
  | succ n ih => rw [hexDigits, List.length_append, ih, List.length_singleton]

@[simp] theorem hexBlock_length (w : Word) : (hexBlock w).length = 16 := hexDigits_length _ _

theorem hexNumber_concat (acc : Nat) (cs : List Char) (ch : Char) :
    hexNumber acc (cs ++ [ch]) =
      (hexNumber acc cs).bind fun a => (hexValue ch).map fun d => 16 * a + d := by
  induction cs generalizing acc with
  | nil => cases hd : hexValue ch <;> simp [hexNumber, hd]
  | cons c cs ih => cases hd : hexValue c <;> simp [hexNumber, hd, ih]

/-- n digits of a number read as its low n digits. -/
theorem hexNumber_hexDigits (acc n v : Nat) :
    hexNumber acc (hexDigits n v) = some (acc * 16 ^ n + v % 16 ^ n) := by
  induction n generalizing v with
  | zero => simp [hexDigits, hexNumber, Nat.mod_one]
  | succ n ih =>
    rw [hexDigits, hexNumber_concat, ih, hexValue_hexDigit (Nat.mod_lt _ (by decide))]
    simp only [Option.bind_some, Option.map_some, Option.some.injEq]
    rw [pow_succ', Nat.mod_mul]
    ring

/-- What reads as a number is that number's digits. -/
theorem eq_hexDigits_of_hexNumber {cs : List Char} {v : Nat} (h : hexNumber 0 cs = some v) :
    v < 16 ^ cs.length ∧ cs = hexDigits cs.length v := by
  induction cs using List.reverseRecOn generalizing v with
  | nil =>
    cases h
    exact ⟨Nat.one_pos, rfl⟩
  | append_singleton cs ch ih =>
    rw [hexNumber_concat] at h
    obtain ⟨a, ha, h⟩ := Option.bind_eq_some_iff.mp h
    obtain ⟨d, hd, rfl⟩ := Option.map_eq_some_iff.mp h
    obtain ⟨hbound, hcs⟩ := ih ha
    obtain ⟨hdigit, rfl⟩ := hexDigit_of_hexValue hd
    rw [List.length_append, List.length_singleton, pow_succ', hexDigits, Nat.mul_add_div (by decide),
      Nat.div_eq_of_lt hdigit, Nat.mul_add_mod, Nat.mod_eq_of_lt hdigit, Nat.add_zero, ← hcs]
    exact ⟨by omega, rfl⟩

/-- 16 hex digits are 64 bits. -/
theorem sixteen_digits : 16 ^ 16 = 2 ^ 64 := by norm_num

theorem hexNumber_hexBlock (w : Word) : hexNumber 0 (hexBlock w) = some w.toNat := by
  rw [hexBlock, hexNumber_hexDigits, Nat.zero_mul, Nat.zero_add, sixteen_digits, Nat.mod_eq_of_lt w.isLt]

theorem eq_hexBlock_of_hexNumber {cs : List Char} {v : Nat} (hlength : cs.length = 16)
    (h : hexNumber 0 cs = some v) : cs = hexBlock (BitVec.ofNat 64 v) := by
  obtain ⟨hbound, hcs⟩ := eq_hexDigits_of_hexNumber h
  rw [hlength] at hbound hcs
  rw [sixteen_digits] at hbound
  rw [hexBlock, BitVec.toNat_ofNat, Nat.mod_eq_of_lt hbound, ← hcs]

/-! ### The blocks (R124-R127) -/

theorem hexBlocks_length {ws : WordArray} (h : ws ≠ []) : (hexBlocks ws).length + 1 = 17 * ws.length := by
  induction ws using hexBlocks.induct with
  | case1 => exact absurd rfl h
  | case2 w => rw [hexBlocks, hexBlock_length]; rfl
  | case3 w w' ws ih =>
    have hrest := ih (List.cons_ne_nil w' ws)
    rw [hexBlocks, List.length_append, hexBlock_length, List.length_cons, List.length_cons]
    omega

theorem hexReadBlocks_hexBlocks {ws : WordArray} (h : ws ≠ []) :
    hexReadBlocks ws.length (hexBlocks ws) = some ws := by
  induction ws using hexBlocks.induct with
  | case1 => exact absurd rfl h
  | case2 w => simp [hexReadBlocks, hexBlocks, hexNumber_hexBlock]
  | case3 w w' ws ih =>
    have htake (rest : List Char) : (hexBlock w ++ rest).take 16 = hexBlock w := List.take_left' (hexBlock_length w)
    have hdrop (rest : List Char) : (hexBlock w ++ rest).drop 16 = rest := List.drop_left' (hexBlock_length w)
    rw [hexBlocks, List.length_cons, List.length_cons, hexReadBlocks, htake, hdrop, hexNumber_hexBlock]
    have hrest := ih (List.cons_ne_nil w' ws)
    rw [List.length_cons] at hrest
    simp [hrest]

theorem hexBlocks_of_hexReadBlocks {k : Nat} {cs : List Char} {ws : WordArray}
    (h : hexReadBlocks k cs = some ws) : ws ≠ [] ∧ hexBlocks ws = cs := by
  induction k, cs using hexReadBlocks.induct generalizing ws with
  | case1 cs => cases h
  | case2 cs hlength =>
    rw [hexReadBlocks, if_pos hlength] at h
    obtain ⟨v, hv, rfl⟩ := Option.map_eq_some_iff.mp h
    exact ⟨List.cons_ne_nil _ _, (eq_hexBlock_of_hexNumber hlength hv).symm⟩
  | case3 cs hlength =>
    rw [hexReadBlocks, if_neg hlength] at h
    cases h
  | case4 k cs v rest hrest hv ih =>
    simp only [hexReadBlocks, hv, hrest] at h
    obtain ⟨vs, hvs, rfl⟩ := Option.map_eq_some_iff.mp h
    obtain ⟨hne, hblocks⟩ := ih hvs
    obtain ⟨w', ws', rfl⟩ := List.exists_cons_of_ne_nil hne
    have hlong : (cs.take 16).length = 16 := by
      have := congrArg List.length hrest
      rw [List.length_drop, List.length_cons] at this
      rw [List.length_take]
      omega
    refine ⟨List.cons_ne_nil _ _, ?_⟩
    rw [hexBlocks, hblocks, ← eq_hexBlock_of_hexNumber hlong hv, ← hrest, List.take_append_drop]
  | case5 k cs hno =>
    rw [hexReadBlocks] at h
    split at h
    · next v rest hv hrest => exact absurd hrest (hno v rest hv)
    · cases h

theorem hexLen_of_words {k : Nat} (hk : k ≠ 0) : hexLen (17 * k + 1) = k := by
  rw [hexLen, if_pos (by omega)]
  omega

theorem hexEncode_of_ne_nil {ws : WordArray} (h : ws ≠ []) :
    hexEncode ws = some ('0' :: 'x' :: hexBlocks ws) := by
  obtain ⟨w, ws, rfl⟩ := List.exists_cons_of_ne_nil h
  rfl

theorem hexText_length {ws : WordArray} (h : ws ≠ []) :
    ('0' :: 'x' :: hexBlocks ws).length = 17 * ws.length + 1 := by
  rw [List.length_cons, List.length_cons, hexBlocks_length h]

theorem hexLen_hexText {ws : WordArray} (h : ws ≠ []) :
    hexLen ('0' :: 'x' :: hexBlocks ws).length = ws.length := by
  rw [hexText_length h, hexLen_of_words (List.length_pos_iff.mpr h).ne']

theorem hexDecode_hexText {ws : WordArray} (h : ws ≠ []) :
    hexDecode ('0' :: 'x' :: hexBlocks ws) = some ws := by
  rw [hexDecode, hexLen_hexText h, hexReadBlocks_hexBlocks h]

theorem hexEncode_of_hexDecode {cs : List Char} {ws : WordArray} (h : hexDecode cs = some ws) :
    hexEncode ws = some cs := by
  unfold hexDecode at h
  split at h
  · next rest =>
    obtain ⟨hne, hblocks⟩ := hexBlocks_of_hexReadBlocks h
    rw [hexEncode_of_ne_nil hne, hblocks]
  · cases h

end Sys2Proof.Machine

namespace Sys2Proof.Proofs
open Sys2Proof.Machine

/-- Settles O6: the encoding's units are the text's and then zeros. -/
theorem rawEncodingPlacesUnits : Obligations.RawEncodingPlacesUnits := by
  intro t
  have hwords := rawEncode_length t
  refine ⟨hwords, fun i k hk hi => ?_⟩
  rw [← flatMap_unitsOfWord_getD _ (hwords ▸ hi) hk, rawEncode_units, getD_append_replicate]

/-- Settles O7: the length looks at the last word only, and decoding cuts the units there. -/
theorem rawDecodeOfEncode : Obligations.RawDecodeOfEncode := by
  refine ⟨rfl, fun p w z hz hzero hnext => ?_, fun p => ⟨rawDecode_length p, fun i k => rawDecode_getD⟩,
    fun t => rawDecode_rawEncode⟩
  rw [rawLen_concat, trailingZeroUnits_eq hz hzero hnext]

/-- Settles O8: reading a block undoes writing it, and a block that can be read was written so. -/
theorem hexDecodeOfEncode : Obligations.HexDecodeOfEncode :=
  ⟨rfl, fun _ hne => ⟨_, hexEncode_of_ne_nil hne, hexText_length hne, hexLen_hexText hne, hexDecode_hexText hne⟩,
    fun _ _ => hexEncode_of_hexDecode⟩

end Sys2Proof.Proofs
end

section
/-! PROOFS. The family 43_generator.md: which units the scan marks (R247) and the truncation keeps (R248), the
alphabet (R242), and what a generated password is made of (R251, section 8). -/

namespace Sys2Proof.Machine

/-! ### The two classes (R243) -/

theorem isDigit_iff (u : CodeUnit) : isDigit u = true ↔ 0x30 ≤ u.toNat ∧ u.toNat ≤ 0x39 := decide_eq_true_iff

theorem isCap_iff (u : CodeUnit) : isCap u = true ↔ 0x41 ≤ u.toNat ∧ u.toNat ≤ 0x5A := decide_eq_true_iff

/-- No unit is both, so the scan counts a unit once. -/
theorem isCap_of_isDigit {u : CodeUnit} (h : isDigit u = true) : isCap u = false := by
  rw [isDigit_iff] at h
  rw [← Bool.not_eq_true, isCap_iff]
  omega

theorem isDigit_of_isCap {u : CodeUnit} (h : isCap u = true) : isDigit u = false := by
  rw [← Bool.not_eq_true]
  intro hdigit
  rw [isCap_of_isDigit hdigit] at h
  cases h

/-! ### The scan (R247) -/

/-- What the scan does with a unit: a digit still wanted, a capital still wanted, or neither. -/
theorem scanFrom_cons_cases (c : Constraints) (nd nc : Nat) (u : CodeUnit) (us : Text) :
    (isDigit u = true ∧ isCap u = false ∧ nd < c.digits ∧
        scanFrom c nd nc (u :: us) = (true :: (scanFrom c (nd + 1) nc us).1, (scanFrom c (nd + 1) nc us).2)) ∨
      (isDigit u = false ∧ isCap u = true ∧ nc < c.caps ∧
        scanFrom c nd nc (u :: us) = (true :: (scanFrom c nd (nc + 1) us).1, (scanFrom c nd (nc + 1) us).2)) ∨
      ((isDigit u = true → c.digits ≤ nd) ∧ (isCap u = true → c.caps ≤ nc) ∧
        scanFrom c nd nc (u :: us) = (false :: (scanFrom c nd nc us).1, (scanFrom c nd nc us).2)) := by
  by_cases hdigit : isDigit u = true ∧ nd < c.digits
  · exact .inl ⟨hdigit.1, isCap_of_isDigit hdigit.1, hdigit.2, by rw [scanFrom, if_pos hdigit]⟩
  · by_cases hcap : isCap u = true ∧ nc < c.caps
    · exact .inr (.inl ⟨isDigit_of_isCap hcap.1, hcap.1, hcap.2, by rw [scanFrom, if_neg hdigit, if_pos hcap]⟩)
    · exact .inr (.inr ⟨fun h => not_lt.mp fun hlt => hdigit ⟨h, hlt⟩, fun h => not_lt.mp fun hlt => hcap ⟨h, hlt⟩,
        by rw [scanFrom, if_neg hdigit, if_neg hcap]⟩)

section
variable {p : CodeUnit → Bool} {u : CodeUnit} {n k : Nat} (us : Text)

theorem add_countP_cons_of_true (h : p u = true) : k + (u :: us).countP p = k + 1 + us.countP p := by
  rw [List.countP_cons_of_pos h, Nat.add_right_comm, Nat.add_assoc]

theorem add_countP_cons_of_false (h : p u = false) : k + (u :: us).countP p = k + us.countP p := by
  rw [List.countP_cons_of_neg (Bool.not_eq_true _ ▸ h)]

/-- A unit of a class all of whose places are taken moves no bounded count. -/
theorem min_add_countP_cons (h : p u = true → n ≤ k) :
    min n (k + (u :: us).countP p) = min n (k + us.countP p) := by
  cases hu : p u with
  | false => rw [add_countP_cons_of_false us hu]
  | true =>
    have := h hu
    omega

/-- Nor does it leave a place. -/
theorem add_countP_cons_lt (h : p u = true → n ≤ k) : k + (u :: us).countP p < n ↔ k + us.countP p < n := by
  cases hu : p u with
  | false => rw [add_countP_cons_of_false us hu]
  | true =>
    have := h hu
    omega

end

/-- The counts stop at the minimums. -/
theorem scanFrom_counts (c : Constraints) (s : Text) {nd nc : Nat} (hd : nd ≤ c.digits) (hc : nc ≤ c.caps) :
    (scanFrom c nd nc s).2 = (min c.digits (nd + s.countP isDigit), min c.caps (nc + s.countP isCap)) := by
  induction s generalizing nd nc with
  | nil => simp [scanFrom, hd, hc]
  | cons u us ih =>
    rcases scanFrom_cons_cases c nd nc u us with ⟨hdigit, hcap, hlt, e⟩ | ⟨hdigit, hcap, hlt, e⟩ |
      ⟨hdigits, hcaps, e⟩ <;> rw [e]
    · rw [ih (nd := nd + 1) hlt hc, add_countP_cons_of_true _ hdigit, add_countP_cons_of_false _ hcap]
    · rw [ih (nc := nc + 1) hd hlt, add_countP_cons_of_false _ hdigit, add_countP_cons_of_true _ hcap]
    · rw [ih hd hc, min_add_countP_cons us hdigits, min_add_countP_cons us hcaps]

/-- Unit i is marked where it is one of the first digits, or of the first capitals, still wanted. -/
theorem scanFrom_marks (c : Constraints) (s : Text) {nd nc i : Nat} (hi : i < s.length) :
    (scanFrom c nd nc s).1.getD i false = true ↔
      (isDigit (s.getD i 0) = true ∧ nd + (s.take i).countP isDigit < c.digits) ∨
        (isCap (s.getD i 0) = true ∧ nc + (s.take i).countP isCap < c.caps) := by
  induction s generalizing nd nc i with
  | nil => exact absurd hi (Nat.not_lt_zero i)
  | cons u us ih =>
    cases i with
    | zero =>
      rw [List.take_zero, List.countP_nil, List.countP_nil, Nat.add_zero, Nat.add_zero, List.getD_cons_zero]
      rcases scanFrom_cons_cases c nd nc u us with ⟨hdigit, hcap, hlt, e⟩ | ⟨hdigit, hcap, hlt, e⟩ |
        ⟨hdigits, hcaps, e⟩ <;> rw [e, List.getD_cons_zero]
      · exact iff_of_true rfl (.inl ⟨hdigit, hlt⟩)
      · exact iff_of_true rfl (.inr ⟨hcap, hlt⟩)
      · refine iff_of_false Bool.false_ne_true ?_
        rintro (⟨hdigit, hlt⟩ | ⟨hcap, hlt⟩)
        · exact absurd hlt (hdigits hdigit).not_gt
        · exact absurd hlt (hcaps hcap).not_gt
    | succ i =>
      rw [List.take_succ_cons, List.getD_cons_succ]
      rcases scanFrom_cons_cases c nd nc u us with ⟨hdigit, hcap, hlt, e⟩ | ⟨hdigit, hcap, hlt, e⟩ |
        ⟨hdigits, hcaps, e⟩ <;> rw [e, List.getD_cons_succ, ih (Nat.lt_of_succ_lt_succ hi)]
      · rw [add_countP_cons_of_true _ hdigit, add_countP_cons_of_false _ hcap]
      · rw [add_countP_cons_of_false _ hdigit, add_countP_cons_of_true _ hcap]
      · rw [add_countP_cons_lt _ hdigits, add_countP_cons_lt _ hcaps]

theorem scan_eq_some {s : Text} {c : Constraints} {marks : List Bool} :
    scan s c = some marks ↔
      (c.digits ≤ s.countP isDigit ∧ c.caps ≤ s.countP isCap) ∧ marks = (scanFrom c 0 0 s).1 := by
  have hcounts := scanFrom_counts c s (Nat.zero_le c.digits) (Nat.zero_le c.caps)
  rw [Nat.zero_add, Nat.zero_add] at hcounts
  rw [scan, hcounts]
  simp only [min_eq_left_iff]
  split_ifs with hmet
  · rw [and_iff_right hmet, Option.some.injEq, eq_comm]
  · exact iff_of_false nofun fun h => hmet h.1

/-! ### The truncation (R248) -/

/-- Unit i stays: it is marked, or all k units to delete stand before it. -/
def stays (k : Nat) (marks : List Bool) (i : Nat) : Bool :=
  marks.getD i false || decide (k ≤ (marks.take i).count false)

theorem stays_cons_zero (k : Nat) (p : Bool) (ps : List Bool) : stays k (p :: ps) 0 = (p || decide (k = 0)) := by
  simp [stays]

/-- Past an unmarked unit there is one unit fewer to delete. -/
theorem stays_cons_succ (k : Nat) (p : Bool) (ps : List Bool) (i : Nat) :
    stays k (p :: ps) (i + 1) = stays (if p then k else k - 1) ps i := by
  cases p with
  | true => simp [stays]
  | false => simp [stays]

theorem deleteUnprotected_zero (s : Text) (marks : List Bool) : deleteUnprotected 0 s marks = s := by
  cases s <;> rfl

theorem deleteUnprotected_cons (k : Nat) (u : CodeUnit) (us : Text) (p : Bool) (ps : List Bool) :
    deleteUnprotected k (u :: us) (p :: ps) =
      (if p || decide (k = 0) then [u] else []) ++ deleteUnprotected (if p then k else k - 1) us ps := by
  cases k with
  | zero => simp [deleteUnprotected_zero]
  | succ k => cases p <;> simp [deleteUnprotected]

/-- The truncation by index: it keeps, in order, exactly the units that stay. -/
theorem deleteUnprotected_eq_filter (k : Nat) (s : Text) (marks : List Bool) (h : marks.length = s.length) :
    deleteUnprotected k s marks =
      ((List.range s.length).filter (stays k marks)).map fun i => s.getD i 0 := by
  induction s generalizing k marks with
  | nil => cases k <;> rfl
  | cons u us ih =>
    obtain ⟨p, ps, rfl⟩ := List.exists_cons_of_length_eq_add_one h
    have hrest : stays k (p :: ps) ∘ Nat.succ = stays (if p then k else k - 1) ps :=
      funext (stays_cons_succ k p ps)
    rw [deleteUnprotected_cons, ih _ ps (Nat.succ_inj.mp h), List.length_cons, List.range_succ_eq_map,
      List.filter_cons, stays_cons_zero, List.filter_map, hrest]
    split_ifs <;> simp

theorem truncateTo_eq {s : Text} {marks : List Bool} {maxlen : Nat} (h : marks.length = s.length) :
    truncateTo s marks maxlen =
      if maxlen = 0 ∨ s.length ≤ maxlen then some s
      else if marks.count false < s.length - maxlen then none
      else some (((List.range s.length).filter (stays (s.length - maxlen) marks)).map fun i => s.getD i 0) := by
  rw [truncateTo, deleteUnprotected_eq_filter _ _ _ h]

/-- With matchable constraints enough units are unmarked (R241, R248). -/
theorem truncateTo_of_scan {s : Text} {c : Constraints} {marks : List Bool} (hscan : scan s c = some marks)
    (hmatch : c.maxlen ≠ 0 → c.caps + c.digits ≤ c.maxlen) : ∃ t, truncateTo s marks c.maxlen = some t := by
  obtain ⟨hlength, hmarked⟩ := scan_marks hscan
  have hcount : marks.count true + marks.count false = marks.length := List.count_true_add_count_false marks
  rw [truncateTo]
  split_ifs with hshort hfew
  · exact ⟨s, rfl⟩
  · rw [not_or] at hshort
    have := hmatch hshort.1
    omega
  · exact ⟨_, rfl⟩

/-! ### With no minimums (R254) -/

/-- With no minimums the first candidate passes. -/
theorem tryCounter_of_unconstrained {c : Constraints} (hcaps : c.caps = 0) (hdigits : c.digits = 0)
    (rule : DigitRule) (hk : WordArray) (ctr : Word) : ∃ p, tryCounter rule hk c ctr = some p := by
  have hscan : scan (candidate rule hk ctr (alphabet c)) c =
      some (scanFrom c 0 0 (candidate rule hk ctr (alphabet c))).1 := by
    rw [scan_eq_some, hcaps, hdigits]
    exact ⟨⟨Nat.zero_le _, Nat.zero_le _⟩, rfl⟩
  obtain ⟨p, hp⟩ := truncateTo_of_scan hscan fun _ => by rw [hcaps, hdigits]; exact Nat.zero_le _
  exact ⟨p, tryCounter_eq_some.mpr ⟨_, hscan, hp⟩⟩

/-! ### The alphabet (R242) -/

theorem unitRange_getD {u n i : Nat} (h : i < n) : (unitRange u n).getD i 0 = BitVec.ofNat 16 (u + i) := by
  rw [List.getD_eq_getElem _ _ (by rwa [unitRange_length])]
  simp [unitRange]

/-- The capitals of the alphabet, none without case. -/
def capitals (c : Constraints) : Text := if c.caseSens then unitRange 0x41 26 else []

theorem capitals_length (c : Constraints) : (capitals c).length = if c.caseSens then 26 else 0 := by
  unfold capitals
  split_ifs <;> simp

theorem alphabet_eq (c : Constraints) :
    alphabet c = unitRange 0x61 26 ++ (unitRange 0x30 10 ++ (capitals c ++ c.extra)) := by
  simp only [alphabet, capitals, List.append_assoc]

theorem alphabet_letter (c : Constraints) {n : Nat} (h : n < 26) :
    (alphabet c).getD n 0 = BitVec.ofNat 16 (0x61 + n) := by
  rw [alphabet_eq, List.getD_append _ _ _ _ (by simpa using h), unitRange_getD h]

/-- Past the letters. -/
theorem alphabet_getD_add (c : Constraints) (n : Nat) :
    (alphabet c).getD (26 + n) 0 = (unitRange 0x30 10 ++ (capitals c ++ c.extra)).getD n 0 := by
  rw [alphabet_eq, List.getD_append_right _ _ _ _ (by simp), unitRange_length, Nat.add_sub_cancel_left]

theorem alphabet_digit (c : Constraints) {n : Nat} (h : n < 10) :
    (alphabet c).getD (26 + n) 0 = BitVec.ofNat 16 (0x30 + n) := by
  rw [alphabet_getD_add, List.getD_append _ _ _ _ (by simpa using h), unitRange_getD h]

/-- Past the letters and digits. -/
theorem alphabet_getD_add_add (c : Constraints) (n : Nat) :
    (alphabet c).getD (36 + n) 0 = (capitals c ++ c.extra).getD n 0 := by
  have hskip : 36 + n = 26 + (10 + n) := by omega
  rw [hskip, alphabet_getD_add, List.getD_append_right _ _ _ _ (by simp), unitRange_length,
    Nat.add_sub_cancel_left]

theorem alphabet_capital {c : Constraints} (hcase : c.caseSens = true) {n : Nat} (h : n < 26) :
    (alphabet c).getD (36 + n) 0 = BitVec.ofNat 16 (0x41 + n) := by
  rw [alphabet_getD_add_add, capitals, hcase, if_pos rfl, List.getD_append _ _ _ _ (by simpa using h),
    unitRange_getD h]

theorem alphabet_extra (c : Constraints) (n : Nat) :
    (alphabet c).getD ((if c.caseSens then 62 else 36) + n) 0 = c.extra.getD n 0 := by
  have hskip : (if c.caseSens then 62 else 36) + n = 36 + ((capitals c).length + n) := by
    rw [capitals_length]
    split_ifs <;> omega
  rw [hskip, alphabet_getD_add_add, List.getD_append_right _ _ _ _ (Nat.le_add_right _ _),
    Nat.add_sub_cancel_left]

theorem alphabet_length_eq (c : Constraints) :
    (alphabet c).length = (if c.caseSens then 62 else 36) + c.extra.length := by
  simp only [alphabet_eq, List.length_append, unitRange_length, capitals_length]
  split_ifs <;> omega

/-! ### A text operand (R123) -/

theorem memRead_getD (m : Memory) (a : Nat) {n i : Nat} (h : i < n) :
    (memRead m a n).getD i 0 = m.readWord (a + i) := by
  induction n generalizing a i with
  | zero => exact absurd h (Nat.not_lt_zero i)
  | succ n ih =>
    cases i with
    | zero => rfl
    | succ i => rw [memRead, List.getD_cons_succ, ih _ (Nat.lt_of_succ_lt_succ h), Nat.add_right_comm, Nat.add_assoc]

theorem textOperand_getD (m : Memory) (b : Nat) {u i k : Nat} (hk : k < 4) (h : 4 * i + k < u) :
    (textOperand m b u).getD (4 * i + k) 0 = (m.readWord (b + i)).extractLsb' (48 - 16 * k) 16 := by
  have hi : i < ceilDiv u 4 := by
    simp only [ceilDiv]
    omega
  rw [← memRead_getD m b hi, ← flatMap_unitsOfWord_getD _ (by rwa [memRead_length]) hk, textOperand,
    List.getD_eq_getElem?_getD, List.getElem?_take_of_lt h, ← List.getD_eq_getElem?_getD]

/-! ### The units of a password (R251, section 8) -/

theorem expandLoop_subset {rule : DigitRule} {a : Text} (ha : 0 < a.length) (n x mask : Nat) :
    ∀ u ∈ expandLoop rule a n x mask, u ∈ a := by
  induction n generalizing x mask with
  | zero => nofun
  | succ n ih =>
    rw [expandLoop]
    split_ifs
    · refine List.forall_mem_cons.mpr ⟨?_, ih _ _⟩
      rw [List.getD_eq_getElem _ _ (Nat.mod_lt x ha)]
      exact List.getElem_mem _
    · nofun

theorem candidate_subset (rule : DigitRule) (hk : WordArray) (ctr : Word) (c : Constraints) :
    ∀ u ∈ candidate rule hk ctr (alphabet c), u ∈ alphabet c := by
  intro u hu
  obtain ⟨w, -, hw⟩ := List.mem_flatMap.mp hu
  exact expandLoop_subset (Nat.lt_of_lt_of_le (by decide) (alphabet_large c)) _ _ _ u hw

theorem deleteUnprotected_sublist (k : Nat) (s : Text) (marks : List Bool) : (deleteUnprotected k s marks).Sublist s := by
  induction s generalizing k marks with
  | nil => cases k <;> exact List.Sublist.refl _
  | cons u us ih =>
    cases marks with
    | nil => cases k <;> exact List.Sublist.refl _
    | cons p ps =>
      rw [deleteUnprotected_cons]
      generalize (if p then k else k - 1) = rest
      split_ifs
      · exact (ih rest ps).cons_cons u
      · exact (ih rest ps).cons u

/-- The marked units of a text, in order. -/
def markedUnits : Text → List Bool → Text
  | u :: us, p :: ps => if p then u :: markedUnits us ps else markedUnits us ps
  | _, _ => []

theorem markedUnits_cons_true (u : CodeUnit) (us : Text) (ps : List Bool) :
    markedUnits (u :: us) (true :: ps) = u :: markedUnits us ps := rfl

/-- What is marked stays (R248). -/
theorem markedUnits_sublist_delete (k : Nat) (s : Text) (marks : List Bool) :
    (markedUnits s marks).Sublist (deleteUnprotected k s marks) := by
  induction s generalizing k marks with
  | nil => exact List.nil_sublist _
  | cons u us ih =>
    cases marks with
    | nil => exact List.nil_sublist _
    | cons p ps =>
      rw [deleteUnprotected_cons]
      cases p with
      | true => exact (ih k ps).cons_cons u
      | false => exact (ih (k - 1) ps).trans (List.sublist_append_right _ _)

/-- The counts of the scan are counts of marked units. -/
theorem scanFrom_markedUnits (c : Constraints) (s : Text) (nd nc : Nat) :
    (scanFrom c nd nc s).2 =
      (nd + (markedUnits s (scanFrom c nd nc s).1).countP isDigit,
        nc + (markedUnits s (scanFrom c nd nc s).1).countP isCap) := by
  induction s generalizing nd nc with
  | nil => rfl
  | cons u us ih =>
    rcases scanFrom_cons_cases c nd nc u us with ⟨hdigit, hcap, -, e⟩ | ⟨hdigit, hcap, -, e⟩ | ⟨-, -, e⟩ <;>
      rw [e, ih]
    · rw [markedUnits_cons_true, add_countP_cons_of_true _ hdigit, add_countP_cons_of_false _ hcap]
    · rw [markedUnits_cons_true, add_countP_cons_of_false _ hdigit, add_countP_cons_of_true _ hcap]
    · rfl

/-- A truncation keeps the marked units and adds none. -/
theorem truncateTo_sublists {s t : Text} {marks : List Bool} {maxlen : Nat}
    (h : truncateTo s marks maxlen = some t) : (markedUnits s marks).Sublist t ∧ t.Sublist s := by
  rw [truncateTo] at h
  split_ifs at h <;> cases h
  · have hkept := markedUnits_sublist_delete 0 s marks
    rw [deleteUnprotected_zero] at hkept
    exact ⟨hkept, List.Sublist.refl s⟩
  · exact ⟨markedUnits_sublist_delete _ s marks, deleteUnprotected_sublist _ s marks⟩

/-- After a passing scan the marked units hold DIGITS digits and CAPS capitals. -/
theorem markedUnits_counts {s : Text} {c : Constraints} {marks : List Bool} (h : scan s c = some marks) :
    (markedUnits s marks).countP isDigit = c.digits ∧ (markedUnits s marks).countP isCap = c.caps := by
  obtain ⟨⟨hdigits, hcaps⟩, rfl⟩ := scan_eq_some.mp h
  have hcounts := (scanFrom_markedUnits c s 0 0).symm.trans
    (scanFrom_counts c s (Nat.zero_le c.digits) (Nat.zero_le c.caps))
  rw [Prod.mk.injEq, Nat.zero_add, Nat.zero_add, Nat.zero_add, Nat.zero_add, min_eq_left hdigits,
    min_eq_left hcaps] at hcounts
  exact hcounts

theorem tryCounter_units {rule : DigitRule} {hk : WordArray} {c : Constraints} {ctr : Word} {t : Text}
    (h : tryCounter rule hk c ctr = some t) :
    (∀ u ∈ t, u ∈ alphabet c) ∧ c.digits ≤ t.countP isDigit ∧ c.caps ≤ t.countP isCap := by
  obtain ⟨marks, hscan, htruncate⟩ := tryCounter_eq_some.mp h
  obtain ⟨hmarked, hsub⟩ := truncateTo_sublists htruncate
  obtain ⟨hdigits, hcaps⟩ := markedUnits_counts hscan
  exact ⟨fun u hu => candidate_subset rule hk ctr c u (hsub.subset hu), hdigits ▸ hmarked.countP_le,
    hcaps ▸ hmarked.countP_le⟩

end Sys2Proof.Machine

namespace Sys2Proof.Proofs
open Sys2Proof.Machine

/-- Settles O37: the scan's counts stop at the minimums, the truncation keeps what `stays`, and matchable
constraints leave enough units unmarked. -/
theorem truncationNeverFails : Obligations.TruncationNeverFails := by
  refine ⟨fun c s => ⟨⟨?_, fun hmet => ⟨_, scan_eq_some.mpr ⟨hmet, rfl⟩⟩⟩, ?_⟩,
    fun s marks maxlen => truncateTo_eq, fun c s marks => truncateTo_of_scan⟩
  · rintro ⟨marks, hscan⟩
    exact (scan_eq_some.mp hscan).1
  · intro marks hscan
    obtain ⟨-, rfl⟩ := scan_eq_some.mp hscan
    refine ⟨(scan_marks hscan).1, fun i hi => ?_⟩
    rw [scanFrom_marks c s hi, Nat.zero_add, Nat.zero_add]

/-- Settles O40: the alphabet part by part, the constraints as they are read, and the password's units: all
from the alphabet, and the marked ones, which hold the minimums, all there. -/
theorem passwordMeetsTheConstraints : Obligations.PasswordMeetsTheConstraints := by
  refine ⟨fun c n => ⟨alphabet_letter c, fun hlo hhi => ?_, fun hcase hlo hhi => ?_, fun _ => alphabet_extra c n,
      alphabet_length_eq c⟩,
    fun sn => ⟨rfl, rfl, rfl, rfl, textOperand_length _ _ _, fun i k => textOperand_getD _ _⟩,
    fun u => ⟨isDigit_iff u, isCap_iff u⟩, fun rule sn => ?_, ?_⟩
  · obtain ⟨m, rfl⟩ := Nat.exists_eq_add_of_le hlo
    rw [alphabet_digit c (by omega), Nat.add_sub_cancel_left]
  · obtain ⟨m, rfl⟩ := Nat.exists_eq_add_of_le hlo
    rw [alphabet_capital hcase (by omega), Nat.add_sub_cancel_left]
  · rw [alphabet_length, outputLen, candidateLen]
  · intro rule hk sn t ctr0 ctr hgen
    have hpasses := firstPassing_passes hgen
    exact ⟨tryCounter_length hpasses, tryCounter_units hpasses⟩

/-- Settles O42: with no minimums the first counter passes, so the search returns it. -/
theorem unconstrainedGenerationCompletes : Obligations.UnconstrainedGenerationCompletes := by
  intro s sn sel i hk hwf hbusy hsearch hruns hcaps hdigits
  obtain ⟨p, hp⟩ := tryCounter_of_unconstrained (c := sn.constraints) (congrArg BitVec.toNat hcaps)
    (congrArg BitVec.toNat hdigits) s.cfg.digitRule hk sn.regs.counter
  obtain ⟨hstores, hcompleted⟩ := finishGenerate_of_gen hbusy hwf (gen_of_first hp)
  exact ⟨_, p, hp, exec_of_searches hbusy hruns (searches_of_or hsearch), hstores, tryCounter_length hp, hcompleted⟩

end Sys2Proof.Proofs
end

section
/-! PROOFS. The families 20_memory.md and 10_state.md: host accesses to DMEM (R81, R89) and to the registers
(R62, R89), and how STATUS is packed (R40). -/

namespace Sys2Proof.Machine

/-! ### A DMEM access as a step (R81, R89) -/

theorem step_write_dmem {s : State} {j : Nat} {v : Word} {es : List Event} (hj : j < s.cfg.dmemWords.toNat)
    (h : s.inbox = .write 64 (s.cfg.coreBase.toNat + 0x10000 + 8 * j) v :: es) :
    step s = .next (writeDmem j v { s with inbox := es }) := by
  simp only [step, h, hostWrite, busTarget_dmem hj]

theorem step_read_dmem {s : State} {j : Nat} {es : List Event} (hj : j < s.cfg.dmemWords.toNat)
    (h : s.inbox = .read 64 (s.cfg.coreBase.toNat + 0x10000 + 8 * j) :: es) :
    step s = .next { s with
      inbox := es, observed := s.observed ++ [readDmem j { s with inbox := es }] } := by
  simp only [step, h, hostRead, hostReadValue, busTarget_dmem hj]

theorem readDmem_of_busy {s : State} (h : s.busy = true) (j : Nat) : readDmem j s = 0 := if_pos h

theorem readDmem_of_idle {s : State} (h : s.phase = .idle) (j : Nat) : readDmem j s = s.dmem.readWord j := by
  rw [readDmem, not_busy_of_phase h]
  rfl

/-! ### A register access by name (R81, R89) -/

theorem ofIndex_eq_some {i : Nat} {r : Reg} (h : Reg.ofIndex i = some r) : r.index = i := by
  unfold Reg.ofIndex at h
  split at h <;> cases h <;> rfl

/-- What a register reads does not depend on the events to come. -/
theorem readReg_with_inbox (s : State) (es : List Event) (r : Reg) :
    readReg { s with inbox := es } r = readReg s r := by
  cases r <;> rfl

theorem step_read_reg {s : State} {r : Reg} {es : List Event}
    (h : s.inbox = .read 64 (s.cfg.coreBase.toNat + 8 * r.index) :: es) :
    step s = .next { s with inbox := es, observed := s.observed ++ [readReg s r] } := by
  rw [step_read_register (index_lt r) h, readRegIndex, ofIndex_index]
  simp only [readReg_with_inbox]

/-- While BUSY every defined write to the page but CTRL's is ignored, with WIGN (R89). -/
theorem writeRegIndex_of_busy {s : State} (h : s.busy = true) {i : Nat} (hi : i ≠ Reg.ctrl.index) (v : Word) :
    writeRegIndex i v s = s.setWign := by
  unfold writeRegIndex
  split
  · next hctrl => exact absurd (ofIndex_eq_some hctrl).symm hi
  · exact if_pos h

/-- While IDLE a register other than CMD and CTRL stores its writable bits (R62). -/
theorem writeRegIndex_of_idle {s : State} (h : s.phase = .idle) {r : Reg} (hcmd : r ≠ .cmd) (hctrl : r ≠ .ctrl)
    (v : Word) : writeRegIndex r.index v s = { s with regs := s.regs.store v r } := by
  have hfree : ¬ s.busy = true := by simp [not_busy_of_phase h]
  rw [writeRegIndex, ofIndex_index]
  split
  · next e => exact absurd (Option.some.inj e) hctrl
  · rw [if_neg hfree]
    split
    · next e => cases e
    · next e => exact absurd (Option.some.inj e) hcmd
    · next e =>
      cases e
      rfl

/-! ### What a register reads after it was written (R62) -/

/-- Nothing is written where nothing is writable. -/
theorem merge_none (v x : Word) : (v &&& 0) ||| (x &&& ~~~ 0) = x := by
  have hall : ~~~ (0 : Word) = BitVec.allOnes 64 := rfl
  rw [hall, BitVec.ofNat_eq_ofNat, BitVec.and_zero, BitVec.and_allOnes, BitVec.zero_or]

theorem merge_all (v x : Word) : (v &&& 0xFFFFFFFFFFFFFFFF) ||| (x &&& ~~~ 0xFFFFFFFFFFFFFFFF) = v := by
  have hall : (0xFFFFFFFFFFFFFFFF : Word) = BitVec.allOnes 64 := rfl
  rw [hall, BitVec.not_allOnes, BitVec.and_allOnes, BitVec.and_zero, BitVec.or_zero]

/-- A field of the low n bits holds those of the value written; above it the register reads 0. -/
theorem merge_low {n : Nat} (v : Word) (x : BitVec n) :
    (v &&& (BitVec.allOnes n).setWidth 64) ||| (x.setWidth 64 &&& ~~~ (BitVec.allOnes n).setWidth 64) =
      (v.extractLsb' 0 n).setWidth 64 := by
  apply BitVec.eq_of_getLsbD_eq
  intro i hi
  by_cases hin : i < n
  · simp [hi, hin]
  · simpa [hi, hin] using BitVec.getLsbD_of_ge x i (not_lt.mp hin)

theorem merge_low32 (v : Word) (x : BitVec 32) :
    (v &&& 0xFFFFFFFF) ||| (x.setWidth 64 &&& ~~~ 0xFFFFFFFF) = (v.extractLsb' 0 32).setWidth 64 := merge_low v x

theorem merge_low1 (v : Word) (x : BitVec 1) :
    (v &&& 1) ||| (x.setWidth 64 &&& ~~~ 1) = (v.extractLsb' 0 1).setWidth 64 := merge_low v x

theorem wordOfBool_eq (b : Bool) : wordOfBool b = (BitVec.ofBool b).setWidth 64 := by cases b <;> rfl

theorem extractLsb'_one_eq (v : Word) : v.extractLsb' 0 1 = BitVec.ofBool (v.getLsbD 0) := by
  apply BitVec.eq_of_getLsbD_eq
  intro i hi
  obtain rfl : i = 0 := by omega
  simp

/-- Bit 0 of a word, as a word. -/
theorem wordOfBool_getLsbD_zero (v : Word) : wordOfBool (v.getLsbD 0) = v &&& 1 := by
  rw [wordOfBool_eq, ← extractLsb'_one_eq, ← merge_low1 v 0]
  simp

theorem merge_flag (v : Word) (b : Bool) :
    (v &&& 1) ||| (wordOfBool b &&& ~~~ 1) = wordOfBool (v.getLsbD 0) := by
  rw [wordOfBool_eq, wordOfBool_eq, ← extractLsb'_one_eq, merge_low1]

theorem readReg_store_same (s : State) (v : Word) (r : Reg) (hcmd : r ≠ .cmd) (hctrl : r ≠ .ctrl) :
    readReg { s with regs := s.regs.store v r } r =
      (v &&& writableBits r) ||| (readReg s r &&& ~~~ writableBits r) := by
  cases r with
  | cmd => exact absurd rfl hcmd
  | ctrl => exact absurd rfl hctrl
  | id | cfgDmem | cfgPad | cfgAlpha | cfgTick | status | time | resLen | resUnits | resCount =>
    exact (merge_none v _).symm
  | descMode =>
    refine Eq.trans ?_ (merge_low1 v _).symm
    exact congrArg (BitVec.setWidth 64) (bitOfMode_modeOfBit _)
  | descCase | descFlags => exact (merge_flag v _).symm
  | descCaps | descDigits | descMaxlen => exact (merge_low32 v _).symm
  | srcaBase | srcaLen | srcbBase | srcbLen | srccBase | srccLen | dstBase | dstCap | benchBudget | descNonce
  | descIter | descXbase | descXunits | descCounter | descCtbase | descCtlen => exact (merge_all v _).symm

/-- A store moves one field of the page, which one register reads. -/
theorem readReg_store_other (s : State) (v : Word) {r r' : Reg} (h : r' ≠ r) :
    readReg { s with regs := s.regs.store v r } r' = readReg s r' := by
  cases r with
  | id | cfgDmem | cfgPad | cfgAlpha | cfgTick | status | time | resLen | resUnits | resCount | cmd | ctrl => rfl
  | _ => cases r' <;> first | rfl | exact absurd rfl h

/-! ### STATUS (R40) -/

/-- The packing of STATUS: five fields at fixed places, the rest 0. -/
theorem status_bits (busy done irq wign : Bool) (code : StatusCode) :
    let w := wordOfBool busy ||| (wordOfBool done <<< 1) ||| (wordOfBool irq <<< 2) ||| (code.number <<< 8) |||
      (wordOfBool wign <<< 16)
    w.getLsbD 0 = busy ∧ w.getLsbD 1 = done ∧ w.getLsbD 2 = irq ∧ (w >>> 8) &&& 0xF = code.number ∧
      w.getLsbD 16 = wign ∧ w &&& 0xFFFFFFFFFFFEF0F8 = 0 := by
  revert busy done irq wign
  cases code <;> decide

theorem busy_iff (s : State) : s.busy = true ↔ s.phase ≠ .idle := by
  cases hphase : s.phase with
  | idle => simp [not_busy_of_phase hphase]
  | busy sn => simp [busy_of_phase hphase]

end Sys2Proof.Machine

namespace Sys2Proof.Proofs
open Sys2Proof.Machine

/-- Settles O10. -/
theorem idleDmemAccess : Obligations.IdleDmemAccess := by
  intro s j v es hwf hidle hj
  constructor
  · intro hwrite
    refine ⟨_, step_write_dmem hj hwrite, ?_⟩
    rw [writeDmem_of_idle (s := { s with inbox := es }) hidle]
    exact ⟨memWrite_storesExactly hwf j [v], rfl⟩
  · intro hread
    rw [step_read_dmem hj hread, readDmem_of_idle (s := { s with inbox := es }) hidle]

/-- Settles O11. -/
theorem busyAccess : Obligations.BusyAccess := by
  intro s sn v es hphase
  have hbusy : ({ s with inbox := es } : State).busy = true := busy_of_phase (sn := sn) hphase
  refine ⟨fun i hi hctrl hwrite => ?_, fun j hj hwrite => ?_, fun j hj hread => ?_, fun r => step_read_reg⟩
  · rw [step_write_register hi hwrite, writeRegIndex_of_busy hbusy hctrl]
    rfl
  · rw [step_write_dmem hj hwrite, writeDmem_of_busy hbusy]
    rfl
  · rw [step_read_dmem hj hread, readDmem_of_busy hbusy]

/-- Settles O12: a store moves the one field its register reads, by its writable bits. -/
theorem idleRegisterWrite : Obligations.IdleRegisterWrite := by
  refine ⟨fun s r es => step_read_reg, fun s => rfl, fun s r v es hidle hcmd hctrl hwrite => ?_⟩
  refine ⟨_, step_write_register (index_lt r) hwrite, ?_⟩
  rw [writeRegIndex_of_idle (s := { s with inbox := es }) hidle hcmd hctrl]
  refine ⟨rfl, ?_, fun r' hr' => ?_⟩
  · rw [← readReg_with_inbox s es r]
    exact readReg_store_same { s with inbox := es } v r hcmd hctrl
  · rw [← readReg_with_inbox s es r']
    exact readReg_store_other { s with inbox := es } v hr'

/-- Settles O14. -/
theorem statusLayout : Obligations.StatusLayout := by
  intro s
  obtain ⟨hbusy, hdone, hirq, hcode, hwign, hreserved⟩ :=
    status_bits s.busy s.regs.done s.irq s.regs.wign s.regs.code
  refine ⟨?_, hdone, hirq, hcode.trans ?_, hwign, hreserved⟩
  · rw [← busy_iff, ← hbusy]
    rfl
  · cases s.regs.code <;> rfl

/-- Settles O17. -/
theorem acceptanceLatchesTheCommand : Obligations.AcceptanceLatchesTheCommand := by
  intro s w es hidle hwrite
  have haccept : writeRegIndex Reg.cmd.index w { s with inbox := es } = accept w { s with inbox := es } :=
    if_neg (by simp [not_busy_of_phase (s := { s with inbox := es }) hidle])
  exact ⟨_, haccept ▸ step_write_register (index_lt .cmd) hwrite, rfl, rfl, rfl, rfl⟩

/-- Settles O18: CTRL is written alike in both phases. -/
theorem ctrlWriteInBothPhases : Obligations.CtrlWriteInBothPhases := by
  intro s v es hwrite
  refine ⟨writeCtrl v { s with inbox := es }, step_write_register (index_lt .ctrl) hwrite, rfl,
    wordOfBool_getLsbD_zero v, fun hack => ?_, fun hack => ?_, rfl⟩
  · simp only [writeCtrl_regs, hack, Bool.not_true, Bool.and_false, and_self]
  · simp only [writeCtrl_regs, hack, Bool.not_false, Bool.and_true, and_self]

end Sys2Proof.Proofs
end

section
/-! PROOFS. The family 60_exceptions.md: a step of the BUSY core, the order of the failure codes (R348), and what
failing, unfinished and completing commands leave unchanged (R85, R87, R347). -/

namespace Sys2Proof.Machine

theorem coreStep_command {s : State} {sn : Snapshot} {i : Instr} (hbusy : s.phase = .busy sn)
    (h : decode s.regs.cmd = .command i) : coreStep s = exec i s := by
  simp only [coreStep, hbusy, h]

/-! ### The order of the checks (R348) -/

/-- The place of a code in R348's order. -/
def precedence : StatusCode → Nat
  | .unsupported => 0
  | .malformed => 1
  | .unmatchable => 2
  | .alloc => 3
  | .ok => 4
  | .illegal => 5

theorem precedence_injective {a b : StatusCode} (h : precedence a = precedence b) : a = b := by
  cases a <;> cases b <;> first | rfl | cases h

/-- Every command makes its checks in R348's order. -/
theorem checksOf_ordered (c : Config) (r : Regs) (i : Instr) :
    (checksOf c r i).Pairwise fun p q => precedence p.2 ≤ precedence q.2 := by
  cases i with
  | computePw sel =>
    rw [checksOf, computePwChecks]
    cases r.mode <;> simp [computeGeneratedChecks, computeEncryptedChecks, precedence]
  | _ =>
    simp [checksOf, hashChecks, hmacChecks, ofbChecks, generateChecks, deriveKeyChecks, encryptPwChecks,
      benchmarkChecks, setModeChecks, precedence]

/-- In ordered checks the first failure has the first code that any failing check has. -/
theorem firstFailure_of_ordered {cs : List (Bool × StatusCode)} {k : StatusCode}
    (hordered : cs.Pairwise fun p q => precedence p.2 ≤ precedence q.2)
    (hfails : ∃ p ∈ cs, p.2 = k ∧ p.1 = false)
    (hearlier : ∀ p ∈ cs, precedence p.2 < precedence k → p.1 = true) : firstFailure cs = some k := by
  induction cs with
  | nil => exact absurd hfails (by simp)
  | cons check rest ih =>
    obtain ⟨ok, code⟩ := check
    obtain ⟨hhead, hrest⟩ := List.pairwise_cons.mp hordered
    obtain ⟨p, hp, rfl, hfalse⟩ := hfails
    rw [firstFailure_cons]
    cases ok with
    | true =>
      have hin : p ∈ rest := (List.mem_cons.mp hp).resolve_left fun e => by rw [e] at hfalse; cases hfalse
      exact ih hrest ⟨p, hin, rfl, hfalse⟩ fun q hq => hearlier q (List.mem_cons_of_mem _ hq)
    | false =>
      have hle : precedence code ≤ precedence p.2 := by
        rcases List.mem_cons.mp hp with rfl | hin
        · exact le_rfl
        · exact hhead p hin
      have hge : ¬ precedence code < precedence p.2 := fun hlt => by
        cases hearlier _ List.mem_cons_self hlt
      exact congrArg some (precedence_injective (hle.antisymm (not_lt.mp hge)))

/-- A well-formed command with a failing check of code k, and none of an earlier code, raises k. -/
theorem exec_of_cause {i : Instr} {s : State} {k : StatusCode} (hwf : i.wellFormed = true)
    (hfails : ∃ p ∈ checksOf s.cfg s.inputs.regs i, p.2 = k ∧ p.1 = false)
    (hearlier : ∀ p ∈ checksOf s.cfg s.inputs.regs i, precedence p.2 < precedence k → p.1 = true) :
    exec i s = .next (raiseStatus k s) := by
  apply exec_fail
  have hselectors : i.selectors.registered = true := hwf
  rw [firstFailure_cons, if_pos hselectors]
  exact firstFailure_of_ordered (checksOf_ordered _ _ i) hfails hearlier

theorem check_holds_of_no_failure {cs : List (Bool × StatusCode)} {p : Bool × StatusCode} (hp : p ∈ cs)
    (hnone : ¬ ∃ q ∈ cs, q.2 = p.2 ∧ q.1 = false) : p.1 = true := by
  cases h : p.1 with
  | true => rfl
  | false => exact absurd ⟨p, hp, rfl, h⟩ hnone

section
variable {c : Config} {r : Regs} {i : Instr} {p : Bool × StatusCode} (hp : p ∈ checksOf c r i)
include hp

/-- After the selectors' check no check comes before MALFORMED's. -/
theorem not_before_malformed : ¬ precedence p.2 < precedence .malformed := by
  rcases checksOf_codes c r i p hp with h | h | h <;> rw [h] <;> decide

theorem code_before_unmatchable (hlt : precedence p.2 < precedence .unmatchable) : p.2 = .malformed := by
  rcases checksOf_codes c r i p hp with h | h | h
  · exact h
  · rw [h] at hlt
    exact absurd hlt (Nat.lt_irrefl _)
  · rw [h] at hlt
    exact absurd hlt (by decide)

theorem code_before_alloc (hlt : precedence p.2 < precedence .alloc) : p.2 = .malformed ∨ p.2 = .unmatchable := by
  rcases checksOf_codes c r i p hp with h | h | h
  · exact .inl h
  · exact .inr h
  · rw [h] at hlt
    exact absurd hlt (Nat.lt_irrefl _)

end

/-- A code that a command raises is UNSUPPORTED or has its cause (R341-R344). -/
theorem cause_of_failure {c : Config} {r : Regs} {i : Instr} {k : StatusCode}
    (h : firstFailure ((i.selectors.registered, .unsupported) :: checksOf c r i) = some k) :
    k = .unsupported ∨ (k = .malformed ∧ MalformedCause c r i) ∨
      (k = .unmatchable ∧ UnmatchableCause r i) ∨ (k = .alloc ∧ AllocCause c r i) := by
  obtain ⟨pre, post, hchecks, -⟩ := firstFailure_eq_some.mp h
  have hmem : (false, k) ∈ (i.selectors.registered, StatusCode.unsupported) :: checksOf c r i := by
    rw [hchecks]
    exact List.mem_append_right _ List.mem_cons_self
  rcases List.mem_cons.mp hmem with e | hmem
  · exact .inl (congrArg Prod.snd e)
  · have hcode : k = .malformed ∨ k = .unmatchable ∨ k = .alloc := checksOf_codes c r i _ hmem
    rcases hcode with rfl | rfl | rfl
    · exact .inr (.inl ⟨rfl, (malformedCause_iff c r i).mpr ⟨_, hmem, rfl, rfl⟩⟩)
    · exact .inr (.inr (.inl ⟨rfl, (unmatchableCause_iff c r i).mpr ⟨_, hmem, rfl, rfl⟩⟩))
    · exact .inr (.inr (.inr ⟨rfl, (allocCause_iff c r i).mpr ⟨_, hmem, rfl, rfl⟩⟩))

/-! ### The codes of each command (R348's table) -/

theorem mayComplete_malformed {c : Config} {r : Regs} {i : Instr} (h : MalformedCause c r i) :
    MayComplete r i .malformed := by
  cases i with
  | bumpNonce => exact h
  | _ => trivial

theorem mayComplete_unmatchable {r : Regs} {i : Instr} (h : UnmatchableCause r i) :
    MayComplete r i .unmatchable := by
  cases i with
  | generate => trivial
  | computePw => exact h.1
  | _ => exact h

theorem mayComplete_alloc {c : Config} {r : Regs} {i : Instr} (h : AllocCause c r i) :
    MayComplete r i .alloc := by
  cases i with
  | setMode | bumpNonce => exact h
  | _ => trivial

theorem mayComplete_of_failure {c : Config} {r : Regs} {i : Instr} {k : StatusCode}
    (h : firstFailure ((i.selectors.registered, .unsupported) :: checksOf c r i) = some k) : MayComplete r i k := by
  rcases cause_of_failure h with rfl | ⟨rfl, hcause⟩ | ⟨rfl, hcause⟩ | ⟨rfl, hcause⟩
  · trivial
  · exact mayComplete_malformed hcause
  · exact mayComplete_unmatchable hcause
  · exact mayComplete_alloc hcause

/-! ### How a command that has completed ended -/

/-- A completed command has raised a code and done nothing else, or ended with OK. -/
theorem exec_completed {i : Instr} {s t : State} {sn : Snapshot} (hbusy : s.phase = .busy sn)
    (h : exec i s = .next t) (hidle : t.phase = .idle) :
    (∃ k, firstFailure ((i.selectors.registered, .unsupported) :: checksOf s.cfg s.inputs.regs i) = some k ∧
        t = raiseStatus k s) ∨ t.regs.code = .ok := by
  rcases exec_shape h with hfails | ⟨-, ⟨hphase, -, -⟩ | ⟨v, r, l, u, c, rfl, -, -⟩⟩
  · exact .inl hfails
  · rw [hphase, hbusy] at hidle
    cases hidle
  · exact .inr rfl

/-- No command writes outside its destination (R85). -/
theorem exec_readByte_outside {i : Instr} {s t : State} (hwf : s.dmem.wf) (h : exec i s = .next t) {a : Nat}
    (ha : ¬ (dmemAddr s.inputs.regs.dstBase.toNat ≤ a ∧
      a < dmemAddr s.inputs.regs.dstBase.toNat + 8 * s.inputs.regs.dstCap.toNat)) :
    t.dmem.readByte a = s.dmem.readByte a := by
  rcases exec_shape h with ⟨k, -, rfl⟩ | ⟨-, ⟨-, ht, -⟩ | ⟨v, r, l, u, c, rfl, hv, -⟩⟩
  · rfl
  · rw [ht]
  · refine readByte_memWrite_outside hwf _ v fun hin => ha ⟨hin.1, ?_⟩
    rcases hv with ⟨hcap, -⟩ | rfl
    · omega
    · exact absurd hin.2 (by simpa using hin.1)

end Sys2Proof.Machine

namespace Sys2Proof.Proofs
open Sys2Proof.Machine

/-- Settles O16. -/
theorem stepRunsTheDecodedCommand : Obligations.StepRunsTheDecodedCommand := by
  intro s sn i hbusy hdecode
  constructor
  · intro hempty
    simp only [step, hempty, coreStep_command hbusy hdecode]
  · intro es hcore
    simp only [step, hcore]
    exact coreStep_command hbusy hdecode

/-- Settles O21: the checks stand in R348's order, so the first cause's code is raised. -/
theorem failuresFollowThePrecedence : Obligations.FailuresFollowThePrecedence := by
  intro i s sn hbusy hwf
  have raised {k : StatusCode} (hexec : exec i s = .next (raiseStatus k s)) :
      ∃ t, exec i s = .next t ∧ CompletedWith s t s.regs k 0 0 0 ∧ t.dmem = s.dmem :=
    ⟨_, hexec, raiseStatus_completedWith k s⟩
  rw [← inputs_busy hbusy]
  simp only [malformedCause_iff, unmatchableCause_iff s.cfg, allocCause_iff]
  refine ⟨fun hmalformed => raised (exec_of_cause hwf hmalformed fun p hp hlt => ?_),
    fun hmalformed hunmatchable => raised (exec_of_cause hwf hunmatchable fun p hp hlt => ?_),
    fun hmalformed hunmatchable halloc => raised (exec_of_cause hwf halloc fun p hp hlt => ?_)⟩
  · exact absurd hlt (not_before_malformed hp)
  · have hcode := code_before_unmatchable hp hlt
    exact check_holds_of_no_failure hp (hcode ▸ hmalformed)
  · rcases code_before_alloc hp hlt with hcode | hcode
    · exact check_holds_of_no_failure hp (hcode ▸ hmalformed)
    · exact check_holds_of_no_failure hp (hcode ▸ hunmatchable)

/-- Settles O22. -/
theorem failureChangesNothingElse : Obligations.FailureChangesNothingElse := by
  intro i s t sn hbusy hexec hidle hfailed
  rcases exec_completed hbusy hexec hidle with ⟨k, -, rfl⟩ | hok
  · exact raiseStatus_completedWith k s
  · exact absurd hok hfailed

/-- Settles O23: a command that fails has the cause of its code. -/
theorem codesEachCommandReturns : Obligations.CodesEachCommandReturns := by
  intro i s t sn hbusy hexec hidle
  rcases exec_completed hbusy hexec hidle with ⟨k, hfails, rfl⟩ | hok
  · exact mayComplete_of_failure (inputs_busy hbusy ▸ hfails)
  · rw [hok]
    trivial

/-- Settles O24. -/
theorem unfinishedCommandShowsNothing : Obligations.UnfinishedCommandShowsNothing :=
  fun _ _ _ _ _ hexec hunfinished => exec_unfinished hexec hunfinished

/-- Settles O25: a store is as long as its command's capacity check allows. -/
theorem commandsWriteOnlyTheirDestination : Obligations.CommandsWriteOnlyTheirDestination := by
  intro i s t sn hwf hbusy hexec
  exact ⟨fun a ha => exec_readByte_outside hwf hexec (inputs_busy hbusy ▸ ha), exec_regs hexec⟩

end Sys2Proof.Proofs
end

section
/-! PROOFS. The families 40_sha512.md, 41_hmac.md, 42_stream_cipher.md and 44_key_derivation.md: the compression
written out (R173), what the commands that store a result leave (R178, R206, R226, R285-R288), what ENCRYPT_PW
stored deciphers to (section 8), BENCHMARK's loop (R289, R290), and that scratch reaches no result (R67). -/

namespace Sys2Proof.Machine

/-! ### The compression (R161-R166, R173) -/

/-- The rounds over constants and schedule in step are the rounds counted by t. -/
theorem rounds_eq_foldl {ks ws : WordArray} (h : ks.length = ws.length) (v : Working) :
    rounds ks ws v =
      (List.range ks.length).foldl (fun v t => shaRound (ks.getD t 0) (ws.getD t 0) v) v := by
  induction ks generalizing ws v with
  | nil => rfl
  | cons k ks ih =>
    obtain ⟨w, ws, rfl⟩ := List.exists_cons_of_length_eq_add_one h.symm
    rw [rounds, ih (Nat.succ_inj.mp h), List.length_cons, List.range_succ_eq_map, List.foldl_cons,
      List.foldl_map]
    rfl

/-- The feed-forward sums the digest and the last working variables word by word. -/
theorem compress_eq_zipWith {hs block : WordArray} {u : Working} (h : hs.length = 8)
    (hu : u = rounds roundConstants (schedule block) (workingOf hs)) :
    compress hs block = List.zipWith (· + ·) hs [u.a, u.b, u.c, u.d, u.e, u.f, u.g, u.h] := by
  subst hu
  match hs, h with
  | [_, _, _, _, _, _, _, _], _ => rfl

/-! ### The commands that store one result -/

/-- A command that stores its result and ends with OK. -/
theorem complete_store (s : State) (hwf : s.dmem.wf) (base : Nat) (v : WordArray) (r : Regs) (len units count : Word) :
    StoresExactly s.dmem (complete len units count { s with dmem := memWrite s.dmem base v, regs := r }).dmem
        base v ∧
      CompletedWith s (complete len units count { s with dmem := memWrite s.dmem base v, regs := r }) r .ok
        len units count :=
  ⟨memWrite_storesExactly hwf base v, rfl, rfl, rfl, rfl, rfl, rfl⟩

section
variable {s : State} {sn : Snapshot} {sel : Selectors} (hbusy : s.phase = .busy sn)
include hbusy

/-- Where no check fails, none of the model's checks does. -/
theorem no_failure_of_runs {i : Instr} (hruns : Runs s.cfg sn.regs i) :
    firstFailure ((i.selectors.registered, .unsupported) :: checksOf s.cfg s.inputs.regs i) = none :=
  (runs_iff _ _ _).mp (inputs_busy hbusy ▸ hruns)

theorem exec_hash_of_runs (hruns : Runs s.cfg sn.regs (.hash sel)) :
    exec (.hash sel) s = .next (complete 8 0 0 { s with
      dmem := memWrite s.dmem sn.regs.dstBase.toNat (sha512 sn.srca), regs := s.regs }) := by
  obtain ⟨t, hexec⟩ := exec_next (.hash sel) s
  rw [hexec, effect_of_no_failure (no_failure_of_runs hbusy hruns) (execHash_cases hexec), inputs_busy hbusy]
  rfl

theorem exec_hmac_of_runs (hruns : Runs s.cfg sn.regs (.hmac sel)) :
    exec (.hmac sel) s = .next (complete 8 0 0 { s with
      dmem := memWrite s.dmem sn.regs.dstBase.toNat (hmac sn.srca sn.srcb), regs := s.regs }) := by
  obtain ⟨t, hexec⟩ := exec_next (.hmac sel) s
  rw [hexec, effect_of_no_failure (no_failure_of_runs hbusy hruns) (execHmac_cases hexec), inputs_busy hbusy]
  rfl

theorem exec_ofb_of_runs {i : Instr} (hi : i = .ofbEnc sel ∨ i = .ofbDec sel) (hruns : Runs s.cfg sn.regs i) :
    exec i s = .next (complete sn.regs.srcbLen 0 0 { s with
      dmem := memWrite s.dmem sn.regs.dstBase.toNat (ofb sn.srca sn.srcb), regs := s.regs }) := by
  have hcommand : exec i s = .next (ofbCommand sel s) := by
    rcases hi with rfl | rfl <;> rfl
  have hnone : firstFailure ((sel.registered, .unsupported) :: ofbChecks s.cfg s.inputs.regs) = none := by
    rcases hi with rfl | rfl <;> exact no_failure_of_runs hbusy hruns
  rw [hcommand, effect_of_no_failure hnone (ofbCommand_cases sel s), inputs_busy hbusy]
  rfl

theorem exec_deriveKey_of_runs (hruns : Runs s.cfg sn.regs (.deriveKey sel)) :
    exec (.deriveKey sel) s = .next (complete 8 0 0 { s with
      dmem := memWrite s.dmem sn.regs.dstBase.toNat (derive sn.srca sn.srcb sn.regs.nonce sn.regs.iter)
      regs := s.regs }) := by
  obtain ⟨t, hexec⟩ := exec_next (.deriveKey sel) s
  rw [hexec, effect_of_no_failure (no_failure_of_runs hbusy hruns) (execDeriveKey_cases hexec), inputs_busy hbusy]
  rfl

theorem exec_computePw_of_encrypted (hruns : Runs s.cfg sn.regs (.computePw sel))
    (hmode : sn.regs.mode = .encrypted) :
    exec (.computePw sel) s = .next (complete sn.regs.ctLen
      (BitVec.ofNat 64 (rawLen (ofb (derive sn.srca sn.srcb sn.regs.nonce sn.regs.iter) sn.ciphertext))) 0
      { s with
        dmem := memWrite s.dmem sn.regs.dstBase.toNat
          (ofb (derive sn.srca sn.srcb sn.regs.nonce sn.regs.iter) sn.ciphertext)
        regs := s.regs }) := by
  obtain ⟨t, hexec⟩ := exec_next (.computePw sel) s
  rcases effect_of_no_failure (no_failure_of_runs hbusy hruns) (execComputePw_cases hexec) with
    ⟨hgenerated, -⟩ | ⟨-, ht⟩
  · rw [inputs_busy hbusy, hmode] at hgenerated
    cases hgenerated
  · rw [hexec, ht, finishDecrypt_eq, inputs_busy hbusy]
    rfl

theorem exec_encryptPw_of_runs (hruns : Runs s.cfg sn.regs (.encryptPw sel)) :
    exec (.encryptPw sel) s = .next (complete sn.regs.srccLen 0 0 { s with
      dmem := memWrite s.dmem sn.regs.dstBase.toNat
        (ofb (derive sn.srca sn.srcb (encryptNonce sn.regs) sn.regs.iter) sn.srcc)
      regs := storeCiphertextRegs s.regs (encryptNonce sn.regs) sn.regs.dstBase sn.regs.srccLen }) := by
  obtain ⟨t, hexec⟩ := exec_next (.encryptPw sel) s
  rw [hexec, effect_of_no_failure (no_failure_of_runs hbusy hruns) (execEncryptPw_cases hexec), inputs_busy hbusy]
  rfl

end

/-! ### The derivation (R280-R283) -/

theorem initialKey_eq (mp svc : WordArray) (nonce : Word) :
    initialKey mp svc nonce = hmac mp (svc ++ [0, nonce]) := by
  rw [initialKey, serviceNonce, List.append_assoc]
  rfl

theorem stretch_eq_iterate (n : Nat) (hk : WordArray) : stretch n hk = sha512^[n] hk := by
  induction n generalizing hk with
  | zero => rfl
  | succ n ih => rw [stretch, ih, Function.iterate_succ_apply]

theorem derive_eq_iterate (mp svc : WordArray) (nonce iters : Word) :
    derive mp svc nonce iters = sha512^[iters.toNat] (hmac mp (svc ++ [0, nonce])) := by
  rw [derive, stretch_eq_iterate, initialKey_eq]

theorem encryptNonce_eq (r : Regs) :
    encryptNonce r = if r.mode = .encrypted then r.nonce + 1 else r.nonce := by
  cases h : r.mode <;> simp [encryptNonce, h]

end Sys2Proof.Machine

namespace Sys2Proof.Proofs
open Sys2Proof.Machine

/-- Settles O29. -/
theorem compressionRunsEightyRounds : Obligations.CompressionRunsEightyRounds := by
  refine ⟨fun x => ⟨rfl, rfl, rfl, rfl⟩, fun x y z => ⟨rfl, rfl⟩, fun h b hh hb => ?_⟩
  have hlength : roundConstants.length = (schedule b).length := by
    rw [roundConstants_length, schedule_length hb]
  have hrounds := rounds_eq_foldl hlength (workingOf h)
  rw [roundConstants_length] at hrounds
  exact ⟨_, hrounds, compress_eq_zipWith hh rfl⟩

/-- Settles O31. -/
theorem hashWritesTheDigest : Obligations.HashWritesTheDigest := by
  intro s sn sel hwf hbusy hruns
  obtain ⟨hstores, hcompleted⟩ := complete_store s hwf _ _ _ _ _ _
  exact ⟨_, exec_hash_of_runs hbusy hruns, hstores, sha512_length _, hcompleted⟩

/-- Settles O33. -/
theorem hmacWritesTheMac : Obligations.HmacWritesTheMac := by
  intro s sn sel hwf hbusy hruns
  obtain ⟨hstores, hcompleted⟩ := complete_store s hwf _ _ _ _ _ _
  exact ⟨_, exec_hmac_of_runs hbusy hruns, hstores, hmac_length _ _, hcompleted⟩

/-- Settles O35. -/
theorem ofbWritesTheCipher : Obligations.OfbWritesTheCipher := by
  intro s sn sel i hi hwf hbusy hruns
  obtain ⟨hstores, hcompleted⟩ := complete_store s hwf _ _ _ _ _ _
  exact ⟨_, exec_ofb_of_runs hbusy hi hruns, hstores, (ofb_length _ _).trans (srcb_length sn), hcompleted⟩

/-- Settles O43. -/
theorem deriveKeyWritesTheHashedKey : Obligations.DeriveKeyWritesTheHashedKey := by
  refine ⟨fun mp svc nonce iters => ⟨initialKey_eq mp svc nonce, derive_eq_iterate mp svc nonce iters⟩, ?_⟩
  intro s sn sel hwf hbusy hruns
  obtain ⟨hstores, hcompleted⟩ := complete_store s hwf _ _ _ _ _ _
  exact ⟨_, exec_deriveKey_of_runs hbusy hruns, hstores, derive_length _ _ _ _, hcompleted⟩

/-- Settles O45. -/
theorem computePwDeciphers : Obligations.ComputePwDeciphers := by
  rintro s sn sel p hwf hbusy hruns hmode rfl
  obtain ⟨hstores, hcompleted⟩ := complete_store s hwf _ _ _ _ _ _
  exact ⟨_, exec_computePw_of_encrypted hbusy hruns hmode, hstores,
    (ofb_length _ _).trans (ciphertext_length sn), hcompleted⟩

/-- Settles O46. -/
theorem encryptPwStoresTheCiphertext : Obligations.EncryptPwStoresTheCiphertext := by
  rintro s sn sel nonce hwf hbusy hruns rfl
  rw [← encryptNonce_eq]
  obtain ⟨hstores, hcompleted⟩ := complete_store s hwf _ _ _ _ _ _
  exact ⟨_, exec_encryptPw_of_runs hbusy hruns, hstores, (ofb_length _ _).trans (srcc_length sn), hcompleted⟩

end Sys2Proof.Proofs
end

section
/-! PROOFS. The family 44_key_derivation.md: what ENCRYPT_PW stored, COMPUTE_PW gives back (R286, R288, section 8),
BENCHMARK's loop and its count (R289, R290); and that scratch reaches no result (10_state.md R67, R68). -/

namespace Sys2Proof.Machine

/-! ### Deciphering what was stored (section 8) -/

/-- COMPUTE_PW over a ciphertext made under the key it derives: the plaintext comes out. -/
theorem exec_computePw_of_ciphertext {s : State} {sn : Snapshot} {sel : Selectors} {plaintext : WordArray}
    (hwf : s.dmem.wf) (hbusy : s.phase = .busy sn) (hruns : Runs s.cfg sn.regs (.computePw sel))
    (hmode : sn.regs.mode = .encrypted)
    (hstored : sn.ciphertext = ofb (derive sn.srca sn.srcb sn.regs.nonce sn.regs.iter) plaintext) :
    ∃ u, exec (.computePw sel) s = .next u ∧ u.phase = .idle ∧ u.regs.code = .ok ∧
      memRead u.dmem sn.regs.dstBase.toNat plaintext.length = plaintext ∧
      u.regs.resUnits = BitVec.ofNat 64 (rawLen plaintext) := by
  have hexec := exec_computePw_of_encrypted hbusy hruns hmode
  rw [hstored, ofb_ofb] at hexec
  exact ⟨_, hexec, rfl, rfl, memRead_memWrite_same hwf _ plaintext, rfl⟩

/-- The page that ENCRYPT_PW leaves over `r`, with the fields COMPUTE_PW does not read named by `r'`, and a new
destination. -/
def decipherRegs (r r' : Regs) (base cap : Word) : Regs :=
  { r with
    nonce := encryptNonce r, ctBase := r.dstBase, ctLen := r.srccLen, mode := .encrypted, nb := false
    dstBase := base, dstCap := cap, ie := r'.ie, wign := r'.wign, time := r'.time, cmd := r'.cmd
    done := r'.done, code := r'.code, resLen := r'.resLen, resUnits := r'.resUnits, resCount := r'.resCount }

/-- COMPUTE_PW's checks hold on that page where ENCRYPT_PW's did and the new destination does. -/
theorem runs_decipherRegs {c : Config} {r : Regs} {sel sel' : Selectors} {base cap : Word} (r' : Regs)
    (hruns : Runs c r (.encryptPw sel)) (hsel : sel'.registered = true) (hin : ¬ Outside c base r.srccLen.toNat)
    (hcap : r.srccLen.toNat ≤ cap.toNat) : Runs c (decipherRegs r r' base cap) (.computePw sel') := by
  obtain ⟨-, hmalformed, -, halloc⟩ := hruns
  simp only [MalformedCause, AllocCause, not_or] at hmalformed halloc
  obtain ⟨hmp, hsvc, -, hct⟩ := hmalformed
  refine ⟨hsel, ?_, ?_, ?_⟩
  · rintro (h | h | ⟨h, -⟩ | ⟨-, h | h⟩)
    · exact hmp h
    · exact hsvc h
    · cases h
    · exact hct h
    · exact hin h
  · rintro ⟨h, -⟩
    cases h
  · rintro (h | ⟨h, -⟩ | ⟨-, h⟩)
    · exact halloc.1 h
    · cases h
    · exact absurd h (not_lt.mpr hcap)

/-- The ciphertext that ENCRYPT_PW stores (R288). -/
def encryptedWords (sn : Snapshot) : WordArray :=
  ofb (derive sn.srca sn.srcb (encryptNonce sn.regs) sn.regs.iter) sn.srcc

theorem encryptedWords_length (sn : Snapshot) : (encryptedWords sn).length = sn.regs.srccLen.toNat :=
  (ofb_length _ _).trans (srcc_length sn)

/-- The snapshot of a COMPUTE_PW accepted over what ENCRYPT_PW left. -/
def decipherSnapshot (sn : Snapshot) (r' : Regs) (base cap : Word) : Snapshot :=
  { regs := decipherRegs sn.regs r' base cap
    dmem := memWrite sn.dmem sn.regs.dstBase.toNat (encryptedWords sn) }

section
variable {sn : Snapshot} (r' : Regs) (base cap : Word) (hwf : sn.dmem.wf)
include hwf

/-- A region that the ciphertext does not overlap reads as before. -/
theorem decipherSnapshot_region {start len : Word}
    (h : sn.regs.dstBase.toNat + sn.regs.srccLen.toNat ≤ start.toNat ∨
      start.toNat + len.toNat ≤ sn.regs.dstBase.toNat) :
    (decipherSnapshot sn r' base cap).region start len = sn.region start len :=
  memRead_memWrite_disjoint hwf _ _ (encryptedWords_length sn ▸ h.symm)

theorem decipherSnapshot_ciphertext : (decipherSnapshot sn r' base cap).ciphertext = encryptedWords sn := by
  have hread := memRead_memWrite_same hwf sn.regs.dstBase.toNat (encryptedWords sn)
  rwa [encryptedWords_length] at hread

end

/-- On a coherent core that snapshot is the one acceptance takes. -/
theorem accept_after_encryptPw {s t : State} {sn : Snapshot} {sel : Selectors} (hcoherent : Coherent s sn)
    (hbusy : s.phase = .busy sn) (hruns : Runs s.cfg sn.regs (.encryptPw sel))
    (hexec : exec (.encryptPw sel) s = .next t) (w base cap : Word) :
    ∃ r', (accept w { t with regs := { t.regs with dstBase := base, dstCap := cap } }).phase =
      .busy (decipherSnapshot sn r' base cap) := by
  cases hexec.symm.trans (exec_encryptPw_of_runs hbusy hruns)
  obtain ⟨hdmem, hpage⟩ := hcoherent
  refine ⟨{ s.regs with
    cmd := w, done := false, code := .ok, resLen := sn.regs.srccLen, resUnits := 0, resCount := 0 }, ?_⟩
  rw [accept_phase, complete_dmem, complete_regs, ← hdmem, ← hpage]
  rfl

/-- ENCRYPT_PW keeps memory canonical and the configuration as it is. -/
theorem exec_encryptPw_keeps {s t : State} {sn : Snapshot} {sel : Selectors} (hwf : s.dmem.wf)
    (hbusy : s.phase = .busy sn) (hruns : Runs s.cfg sn.regs (.encryptPw sel))
    (hexec : exec (.encryptPw sel) s = .next t) : t.dmem.wf ∧ t.cfg = s.cfg := by
  cases hexec.symm.trans (exec_encryptPw_of_runs hbusy hruns)
  exact ⟨memWrite_wf hwf _ _, rfl⟩

/-! ### BENCHMARK (R289, R290) -/

/-- The state after one core step of a BENCHMARK no check of which fails. -/
def benchNext (sn : Snapshot) (s : State) : State :=
  if s.scratch.benchRunning then
    if benchWithinBudget sn.regs.benchBudget s then benchPass s else benchFinish s
  else if sn.regs.benchBudget = 0 then benchFinish (benchStart sn s) else benchStart sn s

theorem exec_benchmark_of_runs {s : State} {sn : Snapshot} {sel : Selectors} (hbusy : s.phase = .busy sn)
    (hruns : Runs s.cfg sn.regs (.benchmark sel)) : exec (.benchmark sel) s = .next (benchNext sn s) := by
  obtain ⟨t, hexec⟩ := exec_next (.benchmark sel) s
  have hcases := effect_of_no_failure (no_failure_of_runs hbusy hruns) (execBenchmark_cases hexec)
  rw [inputs_busy hbusy] at hcases
  rw [hexec, benchNext]
  rcases hcases with ⟨hrunning, hbudget, rfl⟩ | ⟨hrunning, hbudget, rfl⟩ | ⟨hrunning, hwithin, rfl⟩ |
    ⟨hrunning, hwithin, rfl⟩
  · rw [hrunning, if_neg Bool.false_ne_true, if_pos hbudget]
  · rw [hrunning, if_neg Bool.false_ne_true, if_neg hbudget]
  · rw [hrunning, if_pos rfl, if_pos hwithin]
  · rw [hrunning, if_pos rfl, hwithin, if_neg Bool.false_ne_true]

theorem benchWithinBudget_iff {budget : Word} {s : State} :
    benchWithinBudget budget s = true ↔ (s.regs.time - s.scratch.benchStart).toNat < budget.toNat :=
  decide_eq_true_iff

section
variable {sn : Snapshot} {s : State}

theorem benchNext_of_no_budget (hrunning : s.scratch.benchRunning = false) (hbudget : sn.regs.benchBudget = 0) :
    benchNext sn s = benchFinish (benchStart sn s) := by
  rw [benchNext, hrunning, if_neg Bool.false_ne_true, if_pos hbudget]

theorem benchNext_of_entry (hrunning : s.scratch.benchRunning = false) (hbudget : sn.regs.benchBudget ≠ 0) :
    benchNext sn s = benchStart sn s := by
  rw [benchNext, hrunning, if_neg Bool.false_ne_true, if_neg hbudget]

theorem benchNext_of_within (hrunning : s.scratch.benchRunning = true)
    (h : (s.regs.time - s.scratch.benchStart).toNat < sn.regs.benchBudget.toNat) : benchNext sn s = benchPass s := by
  rw [benchNext, hrunning, if_pos rfl, if_pos (benchWithinBudget_iff.mpr h)]

theorem benchNext_of_elapsed (hrunning : s.scratch.benchRunning = true)
    (h : sn.regs.benchBudget.toNat ≤ (s.regs.time - s.scratch.benchStart).toNat) :
    benchNext sn s = benchFinish s := by
  rw [benchNext, hrunning, if_pos rfl, if_neg fun hwithin => absurd (benchWithinBudget_iff.mp hwithin) h.not_gt]

end

/-! ### The count as a draw (I9) -/

theorem Steps.trans {j k : Nat} {s u t : State} (hj : Steps j s u) (hk : Steps k u t) : Steps (j + k) s t := by
  induction j generalizing s with
  | zero =>
    obtain rfl : u = s := hj
    rwa [Nat.zero_add]
  | succ j ih =>
    obtain ⟨v, hstep, hrest⟩ := hj
    rw [Nat.succ_add]
    exact ⟨v, hstep, ih hrest⟩

theorem Steps.one {s t : State} (h : step s = .next t) : Steps 1 s t := ⟨t, h, rfl⟩

/-- A core that BENCHMARK occupies, with a budget and no failing check. -/
structure Benchmarking (sn : Snapshot) (sel : Selectors) (s : State) : Prop where
  phase : s.phase = .busy sn
  command : decode s.regs.cmd = .command (.benchmark sel)
  runs : Runs s.cfg sn.regs (.benchmark sel)

theorem Benchmarking.step_core {sn : Snapshot} {sel : Selectors} {s : State} {es : List Event}
    (h : Benchmarking sn sel s) (hinbox : s.inbox = .core :: es) :
    step s = .next (benchNext sn { s with inbox := es }) := by
  simp only [step, hinbox]
  rw [coreStep_command (s := { s with inbox := es }) h.phase h.command]
  exact exec_benchmark_of_runs h.phase h.runs

theorem Benchmarking.enters {sn : Snapshot} {sel : Selectors} {s : State} {es : List Event}
    (h : Benchmarking sn sel s) (hbudget : sn.regs.benchBudget ≠ 0) (hrunning : s.scratch.benchRunning = false)
    (hinbox : s.inbox = .core :: es) : step s = .next (benchStart sn { s with inbox := es }) := by
  rw [h.step_core hinbox, benchNext_of_entry (s := { s with inbox := es }) hrunning hbudget]

theorem Benchmarking.counts {sn : Snapshot} {sel : Selectors} {s : State} {es : List Event}
    (h : Benchmarking sn sel s) (hrunning : s.scratch.benchRunning = true)
    (hwithin : (s.regs.time - s.scratch.benchStart).toNat < sn.regs.benchBudget.toNat)
    (hinbox : s.inbox = .core :: es) : step s = .next (benchPass { s with inbox := es }) := by
  rw [h.step_core hinbox, benchNext_of_within (s := { s with inbox := es }) hrunning hwithin]

theorem Benchmarking.completes {sn : Snapshot} {sel : Selectors} {s : State} {es : List Event}
    (h : Benchmarking sn sel s) (hrunning : s.scratch.benchRunning = true)
    (helapsed : sn.regs.benchBudget.toNat ≤ (s.regs.time - s.scratch.benchStart).toNat)
    (hinbox : s.inbox = .core :: es) : step s = .next (benchFinish { s with inbox := es }) := by
  rw [h.step_core hinbox, benchNext_of_elapsed (s := { s with inbox := es }) hrunning helapsed]

/-- While TIME stands still each core turn makes one pass. -/
theorem Benchmarking.passes {sn : Snapshot} {sel : Selectors} {s : State} {es : List Event} {n : Nat}
    (h : Benchmarking sn sel s) (hbudget : sn.regs.benchBudget ≠ 0) (hrunning : s.scratch.benchRunning = true)
    (htime : s.regs.time = s.scratch.benchStart) (hinbox : s.inbox = List.replicate n .core ++ es) :
    ∃ u, Steps n s u ∧ Benchmarking sn sel u ∧ u.scratch.benchRunning = true ∧
      u.regs.time = u.scratch.benchStart ∧ u.inbox = es ∧
      u.scratch.benchCount = s.scratch.benchCount + BitVec.ofNat 64 n := by
  induction n generalizing s with
  | zero => exact ⟨s, rfl, h, hrunning, htime, hinbox, (BitVec.add_zero _).symm⟩
  | succ n ih =>
    have hwithin : (s.regs.time - s.scratch.benchStart).toNat < sn.regs.benchBudget.toNat := by
      rw [htime, BitVec.sub_self]
      exact Nat.pos_of_ne_zero fun hzero => hbudget (BitVec.eq_of_toNat_eq hzero)
    rw [List.replicate_succ, List.cons_append] at hinbox
    have hpassed : Benchmarking sn sel (benchPass { s with inbox := List.replicate n .core ++ es }) :=
      ⟨h.phase, h.command, h.runs⟩
    obtain ⟨u, hsteps, hu, hrunning', htime', hinbox', hcount⟩ := ih hpassed hrunning htime rfl
    refine ⟨u, ⟨_, h.counts hrunning hwithin hinbox, hsteps⟩, hu, hrunning', htime', hinbox', hcount.trans ?_⟩
    exact add_one_add_ofNat s.scratch.benchCount n

/-- Once the whole budget has ticked, the next core turn completes with the count. -/
theorem Benchmarking.finishes {sn : Snapshot} {sel : Selectors} {s : State} (h : Benchmarking sn sel s)
    (hrunning : s.scratch.benchRunning = true) (htime : s.regs.time = s.scratch.benchStart)
    (hinbox : s.inbox = [.tick sn.regs.benchBudget.toNat, .core]) :
    ∃ t, Steps 2 s t ∧ t.phase = .idle ∧ t.regs.code = .ok ∧ t.regs.resCount = s.scratch.benchCount := by
  have htick : step s = .next (tick sn.regs.benchBudget.toNat { s with inbox := [.core] }) := by
    simp only [step, hinbox]
  have hticked : Benchmarking sn sel (tick sn.regs.benchBudget.toNat { s with inbox := [.core] }) :=
    ⟨h.phase, h.command, h.runs⟩
  have helapsed : s.regs.time + BitVec.ofNat 64 sn.regs.benchBudget.toNat - s.scratch.benchStart =
      sn.regs.benchBudget := by
    rw [htime, BitVec.ofNat_toNat, BitVec.setWidth_eq, BitVec.add_comm, BitVec.add_sub_cancel]
  exact ⟨_, ⟨_, htick, Steps.one (hticked.completes hrunning (congrArg BitVec.toNat helapsed).ge rfl)⟩, rfl, rfl, rfl⟩

/-- The turns and ticks that make BENCHMARK count n. -/
def drawInbox (budget : Word) (n : Nat) : List Event :=
  .core :: (List.replicate n .core ++ [.tick budget.toNat, .core])

/-! ### Scratch reaches no result (R67, R68) -/

/-- A generator command that completes does so alike from any scratch. -/
theorem finishGenerate_with_scratch {hk : WordArray} {s : State} {sn : Snapshot} (sc : Scratch)
    (hbusy : s.phase = .busy sn) (hidle : (finishGenerate hk s).phase = .idle) :
    finishGenerate hk { s with scratch := sc } = finishGenerate hk s := by
  have hinputs : ({ s with scratch := sc } : State).inputs = s.inputs := rfl
  rcases finishGenerate_cases hk s with ⟨-, e⟩ | ⟨p, ctr, hgen, e⟩
  · rw [e, hbusy] at hidle
    cases hidle
  · rcases finishGenerate_cases hk { s with scratch := sc } with ⟨hnone, -⟩ | ⟨p', ctr', hgen', e'⟩
    · rw [hinputs] at hnone
      cases hgen.symm.trans hnone
    · rw [hinputs] at hgen'
      cases hgen.symm.trans hgen'
      rw [e, e', hinputs]
      rfl

theorem exec_with_scratch {i : Instr} {s t : State} {sn : Snapshot} (sc : Scratch) (hbusy : s.phase = .busy sn)
    (hrunning : s.scratch.benchRunning = false) (hrunning' : sc.benchRunning = false)
    (h : exec i s = .next t) (hidle : t.phase = .idle) : exec i { s with scratch := sc } = .next t := by
  rcases exec_shape h with ⟨k, hfails, rfl⟩ | ⟨hnone, -⟩
  · exact exec_fail (s := { s with scratch := sc }) hfails
  have hruns : Runs s.cfg sn.regs i := inputs_busy hbusy ▸ (runs_iff _ _ _).mpr hnone
  have hbusy' : ({ s with scratch := sc } : State).phase = .busy sn := hbusy
  cases i with
  | generate sel =>
    cases h.symm.trans (exec_of_searches hbusy hruns (.generate sel))
    rw [exec_of_searches hbusy' hruns (.generate sel), finishGenerate_with_scratch sc hbusy hidle]
  | computePw sel =>
    cases hmode : sn.regs.mode with
    | generated =>
      cases h.symm.trans (exec_of_searches hbusy hruns (.computePw sel hmode))
      rw [exec_of_searches hbusy' hruns (.computePw sel hmode), finishGenerate_with_scratch sc hbusy hidle]
    | encrypted =>
      cases h.symm.trans (exec_computePw_of_encrypted hbusy hruns hmode)
      exact exec_computePw_of_encrypted hbusy' hruns hmode
  | benchmark sel =>
    cases h.symm.trans (exec_benchmark_of_runs hbusy hruns)
    rw [exec_benchmark_of_runs hbusy' hruns]
    by_cases hbudget : sn.regs.benchBudget = 0
    · rw [benchNext_of_no_budget hrunning hbudget, benchNext_of_no_budget hrunning' hbudget]
      rfl
    · rw [benchNext_of_entry hrunning hbudget, benchStart_phase, hbusy] at hidle
      cases hidle
  | _ => exact h

end Sys2Proof.Machine

namespace Sys2Proof.Proofs
open Sys2Proof.Machine

/-- Settles O47: the ciphertext stands where the descriptor says, the key's operands are as they were, and the
cipher undoes itself. -/
theorem encryptThenComputeGivesThePlaintext : Obligations.EncryptThenComputeGivesThePlaintext := by
  intro s t sn sel sel' b cap hinv hbusy hruns hexec hsel hmp hsvc hin hcap
  obtain ⟨hcoherent, -⟩ := (phaseOk_of_busy hbusy).mp hinv.phase_ok
  have hwf : sn.dmem.wf := hcoherent.1 ▸ hinv.memory_canonical
  obtain ⟨hwf', hcfg⟩ := exec_encryptPw_keeps hinv.memory_canonical hbusy hruns hexec
  obtain ⟨r', hphase⟩ := accept_after_encryptPw hcoherent hbusy hruns hexec (encode (.computePw sel')) b cap
  have hruns' : Runs t.cfg (decipherSnapshot sn r' b cap).regs (.computePw sel') :=
    hcfg ▸ runs_decipherRegs r' hruns hsel hin hcap
  have hstored : (decipherSnapshot sn r' b cap).ciphertext =
      ofb (derive (decipherSnapshot sn r' b cap).srca (decipherSnapshot sn r' b cap).srcb
        (decipherSnapshot sn r' b cap).regs.nonce (decipherSnapshot sn r' b cap).regs.iter) sn.srcc := by
    have hsrca : (decipherSnapshot sn r' b cap).srca = sn.srca := decipherSnapshot_region r' b cap hwf hmp
    have hsrcb : (decipherSnapshot sn r' b cap).srcb = sn.srcb := decipherSnapshot_region r' b cap hwf hsvc
    rw [decipherSnapshot_ciphertext r' b cap hwf, hsrca, hsrcb]
    rfl
  rw [← srcc_length sn]
  refine exec_computePw_of_ciphertext ?_ hphase hruns' rfl hstored
  exact hwf'

/-- Settles O48. -/
theorem benchmarkLoop : Obligations.BenchmarkLoop := by
  intro s sn sel hbusy hruns
  rw [exec_benchmark_of_runs hbusy hruns]
  refine ⟨fun hrunning hbudget => ?_, fun hrunning hbudget => ?_, fun hrunning hwithin => ?_,
    fun hrunning helapsed => ?_⟩
  · rw [benchNext_of_no_budget hrunning hbudget]
    exact ⟨_, rfl, ⟨rfl, rfl, rfl, rfl, rfl, rfl⟩, rfl⟩
  · rw [benchNext_of_entry hrunning hbudget]
    rfl
  · rw [benchNext_of_within hrunning hwithin]
    rfl
  · rw [benchNext_of_elapsed hrunning helapsed]
    exact ⟨_, rfl, ⟨rfl, rfl, rfl, rfl, rfl, rfl⟩, rfl⟩

/-- Settles O49: enter the loop, make n passes with TIME standing still, tick the whole budget, and test. -/
theorem benchmarkCountIsADraw : Obligations.BenchmarkCountIsADraw := by
  intro s sn sel n hbusy hdecode hruns hrunning hbudget
  have hstart : Benchmarking sn sel { s with inbox := drawInbox sn.regs.benchBudget n } := ⟨hbusy, hdecode, hruns⟩
  have henter := hstart.enters hbudget hrunning rfl
  have hentered : Benchmarking sn sel (benchStart sn { s with
      inbox := List.replicate n .core ++ [.tick sn.regs.benchBudget.toNat, .core] }) := ⟨hbusy, hdecode, hruns⟩
  obtain ⟨u, hpasses, hu, hrunning', htime, hinbox, hcount⟩ := hentered.passes hbudget rfl rfl rfl
  obtain ⟨t, hfinish, hidle, hok, hresult⟩ := hu.finishes hrunning' htime hinbox
  refine ⟨_, _, t, (Steps.one henter).trans (hpasses.trans hfinish), hidle, hok, ?_⟩
  rw [hresult, hcount]
  exact BitVec.zero_add _

/-- Settles O58: a completion zeroes the scratch, and no command but BENCHMARK in its loop reads it. -/
theorem scratchReachesNoResult : Obligations.ScratchReachesNoResult :=
  fun _ _ _ _ sc hbusy hrunning hrunning' hexec hidle => exec_with_scratch sc hbusy hrunning hrunning' hexec hidle

end Sys2Proof.Proofs
end
